-- ==== Sys2Proof/Word.lean ====
section
/-! DEFINITION. The byte and word types of LZOKAY-CORE and their plainest arithmetic. -/

namespace Sys2Proof

/-- The unit of the IN and OUT memories (20_memory.md R60). -/
abbrev Byte := BitVec 8

/-- A cursor, length or capacity register: `CURSOR_W` = 32 bits (00_scope.md R6). -/
abbrev Word := BitVec 32

/-- A register takes a natural (00_scope.md R10: rule arithmetic is on naturals; every value a rule
assigns fits its register, 10_state.md R37). -/
abbrev toWord (n : Nat) : Word := BitVec.ofNat 32 n

/-- A byte takes a natural. -/
abbrev toByte (n : Nat) : Byte := BitVec.ofNat 8 n

end Sys2Proof
end

