-- ==== Sys2Proof/Config.lean ====
section
/-! DEFINITION. What an implementation fixes (00_scope.md R6) and the free values: what the spec
leaves unspecified, as constants without a body. -/

namespace Sys2Proof

/-- The two engines (00_scope.md R2). -/
inductive Engine where
  | dec
  | enc
  deriving DecidableEq, Repr

/-- The two buffer memories of an engine (10_state.md R33, R34). -/
inductive Buffer where
  | input
  | output
  deriving DecidableEq, Repr

/-- The two index tables of ENC (10_state.md R31, R32). -/
inductive IndexTable where
  | head
  | prev
  deriving DecidableEq, Repr

/-- `LIT_INLINE_MAX` (00_scope.md R6). -/
@[simp] def Config.litInlineMax : Nat := 63
/-- `MS_INLINE_MAX_LEN` (00_scope.md R6). -/
@[simp] def Config.msInlineMaxLen : Nat := 17
/-- `MF_INLINE_MAX_LEN` (00_scope.md R6). -/
@[simp] def Config.mfInlineMaxLen : Nat := 66
/-- `MS_MIN_LEN` (00_scope.md R6). -/
@[simp] def Config.msMinLen : Nat := 3
/-- `MF_MIN_LEN` (00_scope.md R6). -/
@[simp] def Config.mfMinLen : Nat := 4
/-- `MS_MAX_DIST` (00_scope.md R6). -/
@[simp] def Config.msMaxDist : Nat := 2048
/-- `MAX_DIST` (00_scope.md R6). -/
@[simp] def Config.maxDist : Nat := 65535
/-- `END_DIST_FIELD` (00_scope.md R6). -/
@[simp] def Config.endDistField : BitVec 16 := 0xFFFF#16
/-- `EXT_CONT` (00_scope.md R6). -/
@[simp] def Config.extCont : Byte := 0xFF#8
/-- `KEY_W` (00_scope.md R6). -/
@[simp] def Config.keyWidth : Nat := 3
/-- `HSIZE` (00_scope.md R6). -/
@[simp] def Config.headEntries : Nat := 4096
/-- `WSIZE` (00_scope.md R6). -/
@[simp] def Config.prevEntries : Nat := 65536
/-- `MAX_CHAIN` (00_scope.md R6). -/
@[simp] def Config.maxChain : Nat := 16
/-- `ENC_LIT_MAX` (00_scope.md R6). -/
@[simp] def Config.encLitMax : Nat := 318

/-- The OPEN parameters `IN_MEM_BYTES` and `OUT_MEM_BYTES` of each engine, "any natural
`<= 2^32 - 1`" (00_scope.md R6, D4). They are an argument of the model: State carries them and no
step changes them (log entry 8). -/
structure MemSizes where
  decIn : Word
  decOut : Word
  encIn : Word
  encOut : Word
  deriving DecidableEq, Repr

/-- FREE VALUE: what a byte of a memory reads as that nothing has written since the memory's content
became unspecified; the counter says which time that was (10_state.md R38, 60_exceptions.md R276;
log entries 4 and 5). -/
opaque Config.freeByte : Engine → Buffer → (draw : Nat) → (addr : Nat) → Byte

/-- FREE VALUE: what an entry of HEAD or PREV reads as that nothing has written since reset
(10_state.md R38; log entry 7). -/
opaque Config.freeEntry : IndexTable → (draw : Nat) → (index : Nat) → Option Word

/-- FREE VALUE: `OUT_LEN` after a fault (60_exceptions.md R276; log entry 6). -/
opaque Config.freeOutLen : Engine → (draw : Nat) → Word

end Sys2Proof
end

