-- ==== Sys2Proof/Syntax.lean ====
section
/-! DEFINITION. The instructions: one constructor per row of spec/opcode_table.json. A token
constructor holds the fields of its header; a literal's payload is data that follows the header in
the stream (30_encoding.md R94, R98) and is read by the copy, not by the parse (R193). -/

namespace Sys2Proof

/-- The seven token forms of format F1 that DEC executes, and the two host commands. -/
inductive Instr where
  /-- LIT.X: literal run of `64 + e` bytes (30_encoding.md R94). -/
  | litX (e : Nat)
  /-- LIT.I: literal run of `v` bytes, `v` from 1 to 63 (30_encoding.md R94). -/
  | litI (v : BitVec 6)
  /-- END: an MF-class header with distance field 0xFFFF; `v` and the extension `e` are parsed and
  ignored (30_encoding.md R97). -/
  | endTok (v : BitVec 6) (e : Nat)
  /-- MF.X: match of length `67 + e` at distance `f + 1` (30_encoding.md R96). -/
  | mfX (e : Nat) (f : BitVec 16)
  /-- MF.I: match of length `v + 3` at distance `f + 1` (30_encoding.md R96). -/
  | mfI (v : BitVec 6) (f : BitVec 16)
  /-- MS.X: match of length `18 + e` at distance `f + 1` (30_encoding.md R95). -/
  | msX (e : Nat) (f : BitVec 11)
  /-- MS.I: match of length `v + 2` at distance `f + 1` (30_encoding.md R95). -/
  | msI (v : BitVec 4) (f : BitVec 11)
  /-- DEC.START: a write of DEC.CTRL with bit 0 = 1; `x` are the ignored bits 31:1
  (44_host_commands.md R250, 10_state.md R22). -/
  | decStart (x : BitVec 31)
  /-- ENC.START: a write of ENC.CTRL with bit 0 = 1; `x` are the ignored bits 31:1
  (44_host_commands.md R251, 10_state.md R22). -/
  | encStart (x : BitVec 31)
  deriving DecidableEq, Repr

end Sys2Proof
end

