-- ==== Sys2Proof/WellFormed.lean ====
section
/-! DEFINITION. Which values of an instruction's fields the format admits (30_encoding.md R92, R94
to R97). -/

namespace Sys2Proof

/-- An inline count field is never 0, because 0 is the escape (30_encoding.md R92); a real match's
far distance field is never 0xFFFF (R96); END carries an extension only when its `v` is 0 (R97,
R98). -/
def Instr.wf : Instr → Bool
  | .litX _ => true
  | .litI v => v != 0#6
  | .endTok v e => v == 0#6 || e == 0
  | .mfX _ f => f != Config.endDistField
  | .mfI v f => v != 0#6 && f != Config.endDistField
  | .msX _ _ => true
  | .msI v _ => v != 0#4
  | .decStart _ => true
  | .encStart _ => true

end Sys2Proof
end

