-- ==== Sys2Proof/Decode.lean ====
section
/-! DEFINITION. The decoder of token headers and of CTRL words, total on any bytes, and the encoder
(30_encoding.md R91 to R99). -/

namespace Sys2Proof

/-- Why the decoder gives no instruction. -/
inductive DecodeError where
  /-- The stream ends inside the header (30_encoding.md R102 case 1). `cnt` is the count, where the
  parse had settled it before the missing byte (42_decoder_token_parser.md R195, R196). -/
  | headerCut (cnt : Option Nat)
  /-- A CTRL word whose START bit is 0 launches nothing (10_state.md R22). -/
  | noStart
  deriving DecidableEq, Repr

/-- Where an instruction's bits stand: at the read cursor of the stream, or in a word the host
writes to an engine's CTRL register. -/
inductive Source where
  | stream (bytes : List Byte)
  | ctrl (g : Engine) (word : Word)
  deriving DecidableEq, Repr

/-- `DecodeExt` (30_encoding.md R93): the sum of the bytes up to and including the first that is not
0xFF, and the bytes after it. -/
def decodeExt : List Byte → Option (Nat × List Byte)
  | [] => none
  | g :: rest =>
    if g = Config.extCont then
      match decodeExt rest with
      | none => none
      | some (e, rest') => some (255 + e, rest')
    else some (g.toNat, rest)

/-- `EncodeExt` (30_encoding.md R93). -/
def encodeExt (e : Nat) : List Byte :=
  List.replicate (e / 255) Config.extCont ++ [toByte (e % 255)]

/-- The number of continuation bytes that carry `e` (30_encoding.md R93). -/
def extLen (e : Nat) : Nat := e / 255 + 1

/-- A `LIT` header whose control byte is `c` (42_decoder_token_parser.md R194). -/
def decodeLit (c : Byte) (rest : List Byte) : Except DecodeError (Instr × List Byte) :=
  let v := c.extractLsb' 0 6
  if v = 0#6 then
    match decodeExt rest with
    | none => .error (.headerCut none)
    | some (e, rest') => .ok (.litX e, rest')
  else .ok (.litI v, rest)

/-- An `MS` header whose control byte is `c`: continuation bytes come before the distance byte
(42_decoder_token_parser.md R195). -/
def decodeMs (c : Byte) (rest : List Byte) : Except DecodeError (Instr × List Byte) :=
  let v := c.extractLsb' 3 4
  let dl := c.extractLsb' 0 3
  if v = 0#4 then
    match decodeExt rest with
    | none => .error (.headerCut none)
    | some (e, []) => .error (.headerCut (some (18 + e)))
    | some (e, dh :: rest') => .ok (.msX e (dh ++ dl), rest')
  else
    match rest with
    | [] => .error (.headerCut (some (v.toNat + 2)))
    | dh :: rest' => .ok (.msI v (dh ++ dl), rest')

/-- An `MF`-class header whose control byte is `c`; it is `END` exactly when the distance field is
0xFFFF (42_decoder_token_parser.md R196, 30_encoding.md R97). -/
def decodeMf (c : Byte) (rest : List Byte) : Except DecodeError (Instr × List Byte) :=
  let v := c.extractLsb' 0 6
  if v = 0#6 then
    match decodeExt rest with
    | none => .error (.headerCut none)
    | some (e, lo :: hi :: rest') =>
      let f := hi ++ lo
      .ok (if f = Config.endDistField then .endTok 0#6 e else .mfX e f, rest')
    | some (e, _) => .error (.headerCut (some (67 + e)))
  else
    match rest with
    | lo :: hi :: rest' =>
      let f := hi ++ lo
      .ok (if f = Config.endDistField then .endTok v 0 else .mfI v f, rest')
    | _ => .error (.headerCut (some (v.toNat + 3)))

/-- One token header at the front of the stream bytes, and the bytes after it: the class is read
from the two most significant bits of the control byte (30_encoding.md R91, R100;
42_decoder_token_parser.md R193). -/
def decodeHeader : List Byte → Except DecodeError (Instr × List Byte)
  | [] => .error (.headerCut none)
  | c :: rest =>
    if c.extractLsb' 6 2 = 0#2 then decodeLit c rest
    else if c.extractLsb' 6 2 = 1#2 then decodeMf c rest
    else decodeMs c rest

/-- A word written to engine `g`'s CTRL: bit 0 is START, bits 31:1 are ignored (10_state.md R22). -/
def decodeCtrl (g : Engine) (w : Word) : Except DecodeError Instr :=
  if w.extractLsb' 0 1 = 1#1 then
    match g with
    | .dec => .ok (.decStart (w.extractLsb' 1 31))
    | .enc => .ok (.encStart (w.extractLsb' 1 31))
  else .error .noStart

/-- The instruction that stands at a source, and the stream bytes after it. -/
def decode : Source → Except DecodeError (Instr × List Byte)
  | .stream bytes => decodeHeader bytes
  | .ctrl g w =>
    match decodeCtrl g w with
    | .ok i => .ok (i, [])
    | .error r => .error r

/-- The header bytes of a token in address order: control byte, continuation bytes, distance bytes
(30_encoding.md R94 to R98). A host command has none. -/
def headerBytes : Instr → List Byte
  | .litX e => 0x00#8 :: encodeExt e
  | .litI v => [0b00#2 ++ v]
  | .endTok v e => (0b01#2 ++ v) :: ((if v = 0#6 then encodeExt e else []) ++ [0xFF#8, 0xFF#8])
  | .mfX e f => 0x40#8 :: (encodeExt e ++ [f.extractLsb' 0 8, f.extractLsb' 8 8])
  | .mfI v f => [0b01#2 ++ v, f.extractLsb' 0 8, f.extractLsb' 8 8]
  | .msX e f => (0b10000#5 ++ f.extractLsb' 0 3) :: (encodeExt e ++ [f.extractLsb' 3 8])
  | .msI v f => [0b1#1 ++ v ++ f.extractLsb' 0 3, f.extractLsb' 3 8]
  | .decStart _ => []
  | .encStart _ => []

/-- The number of header bytes (30_encoding.md R99, less a literal's payload). -/
def headerLen : Instr → Nat
  | .litX e => 1 + extLen e
  | .litI _ => 1
  | .endTok v e => 3 + (if v = 0#6 then extLen e else 0)
  | .mfX e _ => 3 + extLen e
  | .mfI _ _ => 3
  | .msX e _ => 2 + extLen e
  | .msI _ _ => 2
  | .decStart _ => 0
  | .encStart _ => 0

/-- The number of payload bytes that follow the header (30_encoding.md R94, R98). -/
def payloadLen : Instr → Nat
  | .litX e => 64 + e
  | .litI v => v.toNat
  | .endTok _ _ => 0
  | .mfX _ _ => 0
  | .mfI _ _ => 0
  | .msX _ _ => 0
  | .msI _ _ => 0
  | .decStart _ => 0
  | .encStart _ => 0

/-- The encoder: a token's header bytes, or the CTRL word of a host command. -/
def encode : Instr → Source
  | .decStart x => .ctrl .dec (x ++ 1#1)
  | .encStart x => .ctrl .enc (x ++ 1#1)
  | .litX e => .stream (headerBytes (.litX e))
  | .litI v => .stream (headerBytes (.litI v))
  | .endTok v e => .stream (headerBytes (.endTok v e))
  | .mfX e f => .stream (headerBytes (.mfX e f))
  | .mfI v f => .stream (headerBytes (.mfI v f))
  | .msX e f => .stream (headerBytes (.msX e f))
  | .msI v f => .stream (headerBytes (.msI v f))

/-- The canonical end marker `41 FF FF` (30_encoding.md R97). -/
def canonicalEnd : Instr := .endTok 1#6 0

/-- The low `n` bytes of `w`, bits 7:0 first. -/
def tableBytes : (n : Nat) → (w : Nat) → List Byte
  | 0, _ => []
  | n + 1, w => toByte w :: tableBytes n (w / 256)

/-- A table row's bits laid out as stream bytes, with the zero bytes a header may still need: one
that ends an extension and two distance bytes. -/
def tableStream (nbits w : Nat) : List Byte :=
  tableBytes (nbits / 8) w ++ [0#8, 0#8, 0#8]

/-- The instruction the decoder reads from a table row's bits. A row of 32 bits is a host command: a
CTRL word, read as DEC's because the word itself does not name the engine (log entry 15). -/
def decodeTableWord (nbits w : Nat) : Option Instr :=
  let source := if nbits = 32 then Source.ctrl .dec (toWord w) else .stream (tableStream nbits w)
  match decode source with
  | .ok (i, _) => some i
  | .error _ => none

end Sys2Proof
end

