-- ==== Sys2Proof/Machine/State.lean ====
section
/-! DEFINITION. The state of LZOKAY-CORE as plain data (10_state.md), what can stop a step, and the
state after reset (10_state.md R38, 70_reset_and_hazards.md R300, R301). -/

namespace Sys2Proof.Machine

/-- The three error kinds, a closed set (60_exceptions.md R270). -/
inductive ErrKind where
  | outputOverrun
  | inputOverrun
  | inputNotConsumed
  deriving DecidableEq, Repr

/-- What STATUS says: STATE, and ERR when STATE is FAULT. That ERR is non-zero exactly in FAULT
(10_state.md R23) holds by the shape of this type; the register's word is `Status.word`. -/
inductive Status where
  | idle
  | busy
  | done
  | fault (k : ErrKind)
  deriving DecidableEq, Repr

/-- DEC's PHASE register (10_state.md R27). -/
inductive Phase where
  | rt
  | cl
  | cm
  | dn
  deriving DecidableEq, Repr

/-- An IN or OUT memory: the bytes written since its content last became unspecified, by rising
address. `engine`, `buffer` and `draw` name the free values its other bytes read as (log entry 4). -/
structure Memory where
  engine : Engine
  buffer : Buffer
  draw : Nat
  cells : List Host.Cell
  deriving DecidableEq, Repr

/-- What an unlisted entry of an index table is: NIL, or unspecified since the reset that `draw`
counts (10_state.md R31, R38). -/
inductive Fill where
  | allNil
  | unspecified (draw : Nat)
  deriving DecidableEq, Repr

/-- An index table of ENC: entries by rising index, each NIL (`none`) or a position (10_state.md R31,
R32). -/
structure Table where
  which : IndexTable
  fill : Fill
  cells : List (Nat × Option Word)
  deriving DecidableEq, Repr

/-- What both engines have: the host-visible registers but CTRL, which holds nothing (10_state.md R21
to R26), the IN and OUT memories (R33, R34), and the model's own counter of free values (log entry
21). -/
structure Bank where
  status : Status
  inLen : Word
  outCap : Word
  outLen : Word
  inMem : Memory
  outMem : Memory
  draws : Nat
  deriving DecidableEq, Repr

/-- The decoder engine (10_state.md R27). -/
structure Dec where
  bank : Bank
  ip : Word
  op : Word
  phase : Phase
  cnt : BitVec 40
  dist : BitVec 17
  deriving DecidableEq, Repr

/-- The encoder engine (10_state.md R29 to R32). `i` is the position register `I`. -/
structure Enc where
  bank : Bank
  i : Word
  ls : Word
  op : Word
  h : BitVec 12
  cand : Option Word
  depth : BitVec 5
  blen : Word
  bdist : BitVec 16
  head : Table
  prev : Table
  deriving DecidableEq, Repr

/-- Who moves in a step (00_scope.md R3). -/
inductive Agent where
  | dec
  | enc
  | outside
  deriving DecidableEq, Repr

/-- An event from outside the block: a host access (10_state.md R21, 20_memory.md R60) or reset
(70_reset_and_hazards.md R300). -/
inductive Input where
  | regRead (g : Engine) (number : Nat)
  | regWrite (g : Engine) (number : Nat) (v : Word)
  | memRead (g : Engine) (b : Buffer) (addr : Nat)
  | memWrite (g : Engine) (b : Buffer) (addr : Nat) (v : Byte)
  | reset
  deriving DecidableEq, Repr

/-- What a host read returned. -/
inductive Reply where
  | word (v : Word)
  | byte (v : Byte)
  deriving DecidableEq, Repr

/-- The whole machine. `dec` and `enc` are the block (10_state.md R20); the other fields are the
model's own: the OPEN sizes (log entry 8), what the outside will do (log entry 3), who moves next
(log entry 2) and what host reads returned, newest first (log entry 3). -/
structure State where
  dec : Dec
  enc : Enc
  sizes : MemSizes
  inputs : List Input
  turns : List Agent
  replies : List Reply
  deriving DecidableEq, Repr

/-- Why the machine stops with a fault. The block's own errors are no such fault: they are next
states with STATUS in FAULT (60_exceptions.md R275). -/
inductive Fault where
  /-- The outside accesses an address that no IN or OUT memory has (20_memory.md R60). Raised by the
  host's memory accesses only. Safe: the spec gives no such byte (log entry 12). -/
  | hostAddress
  deriving DecidableEq, Repr

/-- Why the model refuses to go on. -/
inductive Refusal where
  /-- The instruction has no meaning in the model. Raised by `exec`'s arm alone; safe. -/
  | notModelled (mnemonic : String)
  /-- START with `IN_LEN > IN_MEM_BYTES` or `OUT_CAP > OUT_MEM_BYTES` (44_host_commands.md R252).
  Raised by DEC.START and ENC.START; safe. -/
  | launchPremise
  /-- A host access that R255 and R303 refuse, because the engine is BUSY (44_host_commands.md R255,
  70_reset_and_hazards.md R303). Raised by host accesses; safe. -/
  | busyAccess
  /-- A host access to IN or OUT against the directions of 20_memory.md R60, which are access rules
  (60_exceptions.md R279): a write of OUT, a read of IN, a read of OUT before any call has ended. Raised
  by host accesses to an engine that is not BUSY; safe (log entry 11). -/
  | accessDirection
  /-- A register number of 5 or more (10_state.md R21). Raised by host accesses; safe. -/
  | noSuchRegister
  deriving DecidableEq, Repr

/-- A memory whose every byte is unspecified (10_state.md R38). -/
def Memory.unspecified (g : Engine) (b : Buffer) (draw : Nat) : Memory :=
  { engine := g, buffer := b, draw := draw, cells := [] }

/-- A table whose every entry is unspecified (10_state.md R38). -/
def Table.unspecified (t : IndexTable) (draw : Nat) : Table :=
  { which := t, fill := .unspecified draw, cells := [] }

/-- An engine's bank after reset (10_state.md R38). -/
def Bank.afterReset (g : Engine) (draw : Nat) : Bank :=
  { status := .idle, inLen := 0, outCap := 0, outLen := 0
    inMem := Memory.unspecified g .input draw
    outMem := Memory.unspecified g .output draw
    draws := draw + 1 }

/-- DEC after reset (10_state.md R38). -/
def Dec.afterReset (draw : Nat) : Dec :=
  { bank := Bank.afterReset .dec draw, ip := 0, op := 0, phase := .rt, cnt := 0, dist := 0 }

/-- ENC after reset (10_state.md R38). -/
def Enc.afterReset (draw : Nat) : Enc :=
  { bank := Bank.afterReset .enc draw, i := 0, ls := 0, op := 0, h := 0, cand := none, depth := 0
    blen := 0, bdist := 0
    head := Table.unspecified .head draw
    prev := Table.unspecified .prev draw }

/-- The machine right after reset (10_state.md R38, 70_reset_and_hazards.md R300, R301). The sizes
are the largest the spec allows (log entry 8); no access is pending (log entries 2 and 3). -/
def State.reset : State :=
  { dec := Dec.afterReset 0, enc := Enc.afterReset 0
    sizes := { decIn := 0xFFFFFFFF#32, decOut := 0xFFFFFFFF#32,
               encIn := 0xFFFFFFFF#32, encOut := 0xFFFFFFFF#32 }
    inputs := [], turns := [], replies := [] }

end Sys2Proof.Machine
end

