-- ==== Sys2Proof/Machine/Ops.lean ====
section
/-! DEFINITION. The named operations: memory and table access, fault entry and the ways out of it,
the bank of an engine, the updates of State. -/

namespace Sys2Proof.Machine

/-- The value listed for a key. -/
def lookup {α : Type} : List (Nat × α) → Nat → Option α
  | [], _ => none
  | (k, v) :: rest, a => if k = a then some v else lookup rest a

/-- List a value for a key, keeping the keys rising. -/
def store {α : Type} : List (Nat × α) → Nat → α → List (Nat × α)
  | [], a, v => [(a, v)]
  | (k, w) :: rest, a, v =>
    if a < k then (a, v) :: (k, w) :: rest
    else if a = k then (a, v) :: rest
    else (k, w) :: store rest a v

/-- List no value for a key. -/
def unlist {α : Type} : List (Nat × α) → Nat → List (Nat × α)
  | [], _ => []
  | (k, w) :: rest, a => if k = a then rest else (k, w) :: unlist rest a

/-- The canonical form of a memory: addresses strictly rising. What an unlisted address holds is no
byte the model knows, so no listed byte equals it (log entry 4). -/
abbrev Memory.wf (m : Memory) : Prop :=
  m.cells.Pairwise fun x y => x.1 < y.1

/-- The canonical form of a table: indexes strictly rising, and NIL is not listed where unlisted
entries are NIL. -/
abbrev Table.wf (t : Table) : Prop :=
  t.cells.Pairwise (fun x y => x.1 < y.1) ∧
    (t.fill = .allNil → ∀ c ∈ t.cells, c.2 ≠ none)

/-- The byte written to an address since the memory became unspecified, if any. -/
def Memory.written (m : Memory) (a : Nat) : Option Byte := lookup m.cells a

/-- What an unlisted address reads as: a free value (10_state.md R38; log entry 4). -/
def Memory.unlisted (m : Memory) (a : Nat) : Byte := Config.freeByte m.engine m.buffer m.draw a

/-- `MemRead(space, a, 1)` (20_memory.md R63, R66). -/
def Memory.read (m : Memory) (a : Nat) : Byte :=
  match m.written a with
  | some v => v
  | none => m.unlisted a

/-- `MemWrite(space, a, 1, v)` (20_memory.md R63, R66). -/
def Memory.write (m : Memory) (a : Nat) (v : Byte) : Memory :=
  { m with cells := store m.cells a v }

/-- The `n` bytes from address `a`. -/
def Memory.readBytes (m : Memory) (a : Nat) : (n : Nat) → List Byte
  | 0 => []
  | n + 1 => m.read a :: m.readBytes (a + 1) n

/-- Write bytes from address `a` on, in increasing address order. -/
def Memory.writeBytes (m : Memory) (a : Nat) : List Byte → Memory
  | [] => m
  | v :: rest => (m.write a v).writeBytes (a + 1) rest

/-- The loop of a match copy: `n` times, read the byte `d` below `a`, write it at `a`, go to the next
address; each byte is read after the one before it is written (43_decoder_copy_engine.md R221). -/
def Memory.copyBack (m : Memory) (a d : Nat) : (n : Nat) → Memory
  | 0 => m
  | n + 1 => (m.write a (m.read (a - d))).copyBack (a + 1) d n

/-- A free entry, kept to what an entry can hold: NIL or a position below 2^32 - 1 (10_state.md R31;
log entries 7 and 18). -/
def Table.unlisted (t : Table) (k : Nat) : Option Word :=
  match t.fill with
  | .allNil => none
  | .unspecified draw =>
    match Config.freeEntry t.which draw k with
    | some p => if p.toNat < 4294967295 then some p else none
    | none => none

/-- `HEAD[k]` or `PREV[k]` (20_memory.md R60). -/
def Table.read (t : Table) (k : Nat) : Option Word :=
  match lookup t.cells k with
  | some v => v
  | none => t.unlisted k

/-- `HEAD[k] <- v` or `PREV[k] <- v`; an entry equal to what unlisted entries are is not listed. -/
def Table.write (t : Table) (k : Nat) (v : Option Word) : Table :=
  match t.fill, v with
  | .allNil, none => { t with cells := unlist t.cells k }
  | _, _ => { t with cells := store t.cells k v }

/-- The table whose every entry is NIL (44_host_commands.md R251). -/
def Table.allNil (t : IndexTable) : Table := { which := t, fill := .allNil, cells := [] }

/-- FAULT ENTRY, `raise k` on engine `g` (60_exceptions.md R275): STATUS takes FAULT and the error
code; the engine stops because it is no longer BUSY. OUT and OUT_LEN become any value (R276): a
fresh batch of free values (log entries 5 and 6). IN, IN_LEN and OUT_CAP are unchanged. -/
def Bank.raise (g : Engine) (k : ErrKind) (b : Bank) : Bank :=
  { b with
    status := .fault k
    outLen := Config.freeOutLen g b.draws
    outMem := Memory.unspecified g .output b.draws
    draws := b.draws + 1 }

/-- What both STARTs do to the bank (44_host_commands.md R250, R251); this is also the way out of
FAULT (60_exceptions.md R277). -/
def Bank.launch (b : Bank) : Bank := { b with outLen := 0, status := .busy }

/-- Completion in DONE (41_encoder_token_emission.md R169, 43_decoder_copy_engine.md R222). -/
def Bank.complete (b : Bank) (op : Word) : Bank := { b with outLen := op, status := .done }

/-- The stream bytes, or the raw data: `IN[0 .. IN_LEN)`. -/
def Bank.inputBytes (b : Bank) : List Byte := b.inMem.readBytes 0 b.inLen.toNat

/-- `OUT[0 .. n)`. -/
def Bank.outputBytes (b : Bank) (n : Nat) : List Byte := b.outMem.readBytes 0 n

/-- The bank of an engine. -/
def State.bank (s : State) : Engine → Bank
  | .dec => s.dec.bank
  | .enc => s.enc.bank

/-- A state with another decoder engine. -/
def State.withDec (s : State) (d : Dec) : State := { s with dec := d }

/-- A state with another encoder engine. -/
def State.withEnc (s : State) (e : Enc) : State := { s with enc := e }

/-- A decoder engine with another bank. -/
def Dec.withBank (d : Dec) (b : Bank) : Dec := { d with bank := b }

/-- An encoder engine with another bank. -/
def Enc.withBank (e : Enc) (b : Bank) : Enc := { e with bank := b }

/-- A state with another bank of engine `g`. -/
def State.withBank (s : State) (g : Engine) (b : Bank) : State :=
  match g with
  | .dec => s.withDec (s.dec.withBank b)
  | .enc => s.withEnc (s.enc.withBank b)

/-- The turn is taken. -/
def State.popTurn (s : State) : State := { s with turns := s.turns.tail }

/-- The first pending input is taken. -/
def State.popInput (s : State) : State := { s with inputs := s.inputs.tail }

/-- A host read returns `r`. -/
def State.reply (s : State) (r : Reply) : State := { s with replies := r :: s.replies }

/-- `IN_MEM_BYTES` of engine `g` (00_scope.md R6). -/
def State.inMemBytes (s : State) : Engine → Word
  | .dec => s.sizes.decIn
  | .enc => s.sizes.encIn

/-- `OUT_MEM_BYTES` of engine `g` (00_scope.md R6). -/
def State.outMemBytes (s : State) : Engine → Word
  | .dec => s.sizes.decOut
  | .enc => s.sizes.encOut

/-- The size of a buffer memory (10_state.md R33, R34). -/
def State.memBytes (s : State) (g : Engine) : Buffer → Word
  | .input => s.inMemBytes g
  | .output => s.outMemBytes g

/-- A buffer memory of a bank. -/
def Bank.mem (b : Bank) : Buffer → Memory
  | .input => b.inMem
  | .output => b.outMem

/-- A bank with another buffer memory. -/
def Bank.withMem (b : Bank) (which : Buffer) (m : Memory) : Bank :=
  match which with
  | .input => { b with inMem := m }
  | .output => { b with outMem := m }

/-- The length premises of a launch (44_host_commands.md R252). -/
def State.launchable (s : State) (g : Engine) : Bool :=
  decide ((s.bank g).inLen.toNat ≤ (s.inMemBytes g).toNat) &&
    decide ((s.bank g).outCap.toNat ≤ (s.outMemBytes g).toNat)

/-- The reset event (70_reset_and_hazards.md R300): both engines at their reset values, in any state;
every memory and table becomes a fresh batch of unspecified values. The model's own fields are not
the block's and stay (log entry 13). -/
def State.resetBlock (s : State) : State :=
  { s with dec := Dec.afterReset s.dec.bank.draws, enc := Enc.afterReset s.enc.bank.draws }

end Sys2Proof.Machine
end

