-- ==== Sys2Proof/Machine/Commands.lean ====
section
/-! DEFINITION. The host commands DEC.START and ENC.START (44_host_commands.md R250 to R253). -/

namespace Sys2Proof.Machine

/-- DEC's side of a launch: CNT and DIST are left as they are (44_host_commands.md R250). -/
def Dec.launch (d : Dec) : Dec :=
  { d with bank := d.bank.launch, ip := 0, op := 0, phase := .rt }

/-- ENC's side of a launch: HEAD is cleared, PREV is not (44_host_commands.md R251). -/
def Enc.launch (e : Enc) : Enc :=
  { e with bank := e.bank.launch, i := 0, ls := 0, op := 0, head := Table.allNil .head }

/-- What both commands share: ignored while BUSY (44_host_commands.md R253), refused outside the
length premises (R252). -/
def State.start (s : State) (g : Engine) (launched : State) : Host.Outcome State Fault Refusal :=
  if (s.bank g).status = .busy then .next s
  else if s.launchable g then .next launched
  else .refused .launchPremise

/-- DEC.START (44_host_commands.md R250); bits 31:1 of the word are ignored (10_state.md R22). -/
def execDecStart (_x : BitVec 31) (s : State) : Host.Outcome State Fault Refusal :=
  s.start .dec (s.withDec s.dec.launch)

/-- ENC.START (44_host_commands.md R251); bits 31:1 of the word are ignored (10_state.md R22). -/
def execEncStart (_x : BitVec 31) (s : State) : Host.Outcome State Fault Refusal :=
  s.start .enc (s.withEnc s.enc.launch)

end Sys2Proof.Machine
end

