-- ==== Sys2Proof/Machine/Operands.lean ====
section
/-! DEFINITION. What the fields of a token mean: counts, lengths and distances (30_encoding.md R92,
R95, R96). -/

namespace Sys2Proof.Machine

/-- `LIT.I`: `n = v` (30_encoding.md R92). -/
def litInline (v : BitVec 6) : Nat := v.toNat
/-- `LIT.X`: `n = 64 + e` (30_encoding.md R92). -/
def litEscaped (e : Nat) : Nat := Config.litInlineMax + 1 + e
/-- `MS.I`: `len = v + 2` (30_encoding.md R92). -/
def msInline (v : BitVec 4) : Nat := v.toNat + 2
/-- `MS.X`: `len = 18 + e` (30_encoding.md R92). -/
def msEscaped (e : Nat) : Nat := Config.msInlineMaxLen + 1 + e
/-- `MF.I`: `len = v + 3` (30_encoding.md R92). -/
def mfInline (v : BitVec 6) : Nat := v.toNat + 3
/-- `MF.X`: `len = 67 + e` (30_encoding.md R92). -/
def mfEscaped (e : Nat) : Nat := Config.mfInlineMaxLen + 1 + e
/-- The count that the parse of an `END` leaves and nothing uses (42_decoder_token_parser.md R196). -/
def endCount (v : BitVec 6) (e : Nat) : Nat := if v = 0#6 then mfEscaped e else mfInline v
/-- `MS`: `dist = f + 1` (30_encoding.md R95). -/
def msDist (f : BitVec 11) : Nat := f.toNat + 1
/-- `MF` and `END`: `dist = f + 1` (30_encoding.md R96, R97). -/
def mfDist (f : BitVec 16) : Nat := f.toNat + 1

end Sys2Proof.Machine
end

