-- ==== Sys2Proof/Machine/CopyEngine.lean ====
section
/-! DEFINITION. DEC's shared operations: the effect of a parsed header, the two copies, the end check,
and fault entry (42_decoder_token_parser.md, 43_decoder_copy_engine.md). -/

namespace Sys2Proof.Machine

/-- `raise k` on DEC; the working registers keep their values (60_exceptions.md R275). -/
def Dec.raise (k : ErrKind) (d : Dec) : Dec := d.withBank (d.bank.raise .dec k)

/-- The stream bytes from the read cursor to the end, which is all a parse may read
(42_decoder_token_parser.md R191, 20_memory.md R65). -/
def Dec.unread (d : Dec) : List Byte :=
  d.bank.inMem.readBytes d.ip.toNat (d.bank.inLen.toNat - d.ip.toNat)

/-- The whole header of a `LIT` token has been parsed: DIST is not written
(42_decoder_token_parser.md R194). -/
def Dec.parsedLit (d : Dec) (header count : Nat) : Dec :=
  { d with ip := toWord (d.ip.toNat + header), cnt := BitVec.ofNat 40 count, phase := .cl }

/-- The whole header of a match or `END` token has been parsed (42_decoder_token_parser.md R195,
R196). -/
def Dec.parsedMatch (d : Dec) (header count distance : Nat) (next : Phase) : Dec :=
  { d with
    ip := toWord (d.ip.toNat + header)
    cnt := BitVec.ofNat 40 count
    dist := BitVec.ofNat 17 distance
    phase := next }

/-- The stream ended inside the header: every byte there was has been fetched, CNT holds the count
where the parse had settled it, and the missing byte raises INPUT_OVERRUN
(42_decoder_token_parser.md R191, R195, R196; log entry 17). -/
def Dec.headerCut (d : Dec) (count : Option Nat) : Dec :=
  let fetched :=
    { d with ip := toWord (d.ip.toNat + (d.bank.inLen.toNat - d.ip.toNat)) }
  match count with
  | none => fetched.raise .inputOverrun
  | some n => { fetched with cnt := BitVec.ofNat 40 n }.raise .inputOverrun

/-- `CopyLiteral()` (43_decoder_copy_engine.md R220): payload test, then capacity test, then the
copy. -/
def Dec.copyLiteral (d : Dec) : Dec :=
  let n := d.cnt.toNat
  if d.bank.inLen.toNat - d.ip.toNat < n then d.raise .inputOverrun
  else if d.bank.outCap.toNat - d.op.toNat < n then d.raise .outputOverrun
  else
    { d with
      bank := { d.bank with
        outMem := d.bank.outMem.writeBytes d.op.toNat (d.bank.inMem.readBytes d.ip.toNat n) }
      ip := toWord (d.ip.toNat + n)
      op := toWord (d.op.toNat + n)
      phase := .rt }

/-- `CopyMatch()` (43_decoder_copy_engine.md R221): distance test, then capacity test, then the
byte-at-a-time copy. -/
def Dec.copyMatch (d : Dec) : Dec :=
  let len := d.cnt.toNat
  if d.op.toNat < d.dist.toNat then d.raise .inputOverrun
  else if d.bank.outCap.toNat - d.op.toNat < len then d.raise .outputOverrun
  else
    { d with
      bank := { d.bank with outMem := d.bank.outMem.copyBack d.op.toNat d.dist.toNat len }
      op := toWord (d.op.toNat + len)
      phase := .rt }

/-- `Finish()` (43_decoder_copy_engine.md R222). -/
def Dec.finish (d : Dec) : Dec :=
  if d.ip = d.bank.inLen then d.withBank (d.bank.complete d.op)
  else d.raise .inputNotConsumed

/-- A token acts on DEC while DEC is BUSY and between tokens (42_decoder_token_parser.md R190); an
engine that is not BUSY does nothing (60_exceptions.md R284; log entry 14). -/
def State.token (s : State) (effect : Dec → Dec) : State :=
  if s.dec.bank.status = .busy ∧ s.dec.phase = .rt then s.withDec (effect s.dec) else s

end Sys2Proof.Machine
end

