-- ==== Sys2Proof/Machine/EndMarker.lean ====
section
/-! DEFINITION. The end marker: parse (42_decoder_token_parser.md R196), then the end check
(43_decoder_copy_engine.md R222). -/

namespace Sys2Proof.Machine

/-- END (30_encoding.md R97): its `v` and extension are parsed and not used again. -/
def execEnd (v : BitVec 6) (e : Nat) (s : State) : Host.Outcome State Fault Refusal :=
  .next (s.token fun d =>
    (d.parsedMatch (3 + if v = 0#6 then extLen e else 0) (endCount v e)
      (mfDist Config.endDistField) .dn).finish)

end Sys2Proof.Machine
end

