-- ==== Sys2Proof/Machine/Literals.lean ====
section
/-! DEFINITION. The literal tokens: parse (42_decoder_token_parser.md R194), then copy
(43_decoder_copy_engine.md R220). -/

namespace Sys2Proof.Machine

/-- LIT.X (30_encoding.md R94). -/
def execLitX (e : Nat) (s : State) : Host.Outcome State Fault Refusal :=
  .next (s.token fun d => (d.parsedLit (1 + extLen e) (litEscaped e)).copyLiteral)

/-- LIT.I (30_encoding.md R94). -/
def execLitI (v : BitVec 6) (s : State) : Host.Outcome State Fault Refusal :=
  .next (s.token fun d => (d.parsedLit 1 (litInline v)).copyLiteral)

end Sys2Proof.Machine
end

