-- ==== Sys2Proof/Machine/Matches.lean ====
section
/-! DEFINITION. The match tokens: parse (42_decoder_token_parser.md R195, R196), then copy
(43_decoder_copy_engine.md R221). -/

namespace Sys2Proof.Machine

/-- MF.X (30_encoding.md R96). -/
def execMfX (e : Nat) (f : BitVec 16) (s : State) : Host.Outcome State Fault Refusal :=
  .next (s.token fun d =>
    (d.parsedMatch (3 + extLen e) (mfEscaped e) (mfDist f) .cm).copyMatch)

/-- MF.I (30_encoding.md R96). -/
def execMfI (v : BitVec 6) (f : BitVec 16) (s : State) : Host.Outcome State Fault Refusal :=
  .next (s.token fun d => (d.parsedMatch 3 (mfInline v) (mfDist f) .cm).copyMatch)

/-- MS.X (30_encoding.md R95). -/
def execMsX (e : Nat) (f : BitVec 11) (s : State) : Host.Outcome State Fault Refusal :=
  .next (s.token fun d =>
    (d.parsedMatch (2 + extLen e) (msEscaped e) (msDist f) .cm).copyMatch)

/-- MS.I (30_encoding.md R95). -/
def execMsI (v : BitVec 4) (f : BitVec 11) (s : State) : Host.Outcome State Fault Refusal :=
  .next (s.token fun d => (d.parsedMatch 2 (msInline v) (msDist f) .cm).copyMatch)

end Sys2Proof.Machine
end

