-- ==== Sys2Proof/Machine/Dispatch.lean ====
section
/-! DEFINITION. One arm per instruction. -/

namespace Sys2Proof.Machine

def exec (i : Instr) (s : State) : Host.Outcome State Fault Refusal :=
  match i with
  | .litX e => Sys2Proof.Machine.execLitX e s
  | .litI v => Sys2Proof.Machine.execLitI v s
  | .endTok v e => Sys2Proof.Machine.execEnd v e s
  | .mfX e f => Sys2Proof.Machine.execMfX e f s
  | .mfI v f => Sys2Proof.Machine.execMfI v f s
  | .msX e f => Sys2Proof.Machine.execMsX e f s
  | .msI v f => Sys2Proof.Machine.execMsI v f s
  | .decStart x => Sys2Proof.Machine.execDecStart x s
  | .encStart x => Sys2Proof.Machine.execEncStart x s

end Sys2Proof.Machine
end

