-- ==== Sys2Proof/Machine/Flags.lean ====
section
/-! DEFINITION. The block has no flags, condition codes or predicates (10_state.md R35). Its only
status is the STATUS register, whose word is computed here (10_state.md R23). -/

namespace Sys2Proof.Machine

/-- The code of an error kind in `STATUS.ERR` (60_exceptions.md R270). -/
def ErrKind.code : ErrKind → Nat
  | .outputOverrun => 1
  | .inputOverrun => 2
  | .inputNotConsumed => 3

/-- `STATUS.STATE`, bits 1:0 (10_state.md R23). -/
def Status.stateField : Status → BitVec 2
  | .idle => 0
  | .busy => 1
  | .done => 2
  | .fault _ => 3

/-- `STATUS.ERR`, bits 7:4 (10_state.md R23). -/
def Status.errField : Status → BitVec 4
  | .idle => 0
  | .busy => 0
  | .done => 0
  | .fault k => BitVec.ofNat 4 k.code

/-- The STATUS register as the host reads it; bits 31:8 and 3:2 read as 0 (10_state.md R23). -/
def Status.word (st : Status) : Word := 0#24 ++ st.errField ++ 0#2 ++ st.stateField

end Sys2Proof.Machine
end

