-- ==== Sys2Proof/Machine/HostPort.lean ====
section
/-! DEFINITION. What an access of the host and the reset event do (10_state.md R21 to R26,
20_memory.md R60, 44_host_commands.md R253, R255, 70_reset_and_hazards.md R300, R303). -/

namespace Sys2Proof.Machine

/-- What a turn of an agent is: an instruction to run on a state, or an answer without one. -/
inductive Action where
  | run (i : Instr) (s : State)
  | answer (o : Host.Outcome State Fault Refusal)

/-- The model accepts `s'` only while engine `g` is not BUSY (44_host_commands.md R255,
70_reset_and_hazards.md R303). -/
def State.unlessBusy (s : State) (g : Engine) (o : Host.Outcome State Fault Refusal) :
    Host.Outcome State Fault Refusal :=
  if (s.bank g).status = .busy then .refused .busyAccess else o

/-- A host read of register `(g, number)`: CTRL reads 0 and STATUS the state at the time of the read,
always; the other three only while the engine is not BUSY (10_state.md R21 to R26,
44_host_commands.md R255; log entry 10). -/
def State.regRead (s : State) (g : Engine) (number : Nat) : Host.Outcome State Fault Refusal :=
  match number with
  | 0 => .next (s.reply (.word 0))
  | 1 => .next (s.reply (.word (s.bank g).status.word))
  | 2 => s.unlessBusy g (.next (s.reply (.word (s.bank g).inLen)))
  | 3 => s.unlessBusy g (.next (s.reply (.word (s.bank g).outCap)))
  | 4 => s.unlessBusy g (.next (s.reply (.word (s.bank g).outLen)))
  | _ => .refused .noSuchRegister

/-- A host write of register `(g, number)`: a CTRL word with bit 0 = 1 is the START command, any other
CTRL word does nothing; writes of STATUS and OUT_LEN are ignored (10_state.md R22; log entry 9);
IN_LEN and OUT_CAP take any value while the engine is not BUSY (10_state.md R24, R25). -/
def State.regWrite (s : State) (g : Engine) (number : Nat) (v : Word) : Action :=
  match number with
  | 0 =>
    match decodeCtrl g v with
    | .ok i => .run i s
    | .error _ => .answer (.next s)
  | 1 => .answer (.next s)
  | 2 => .answer (s.unlessBusy g (.next (s.withBank g { s.bank g with inLen := v })))
  | 3 => .answer (s.unlessBusy g (.next (s.withBank g { s.bank g with outCap := v })))
  | 4 => .answer (.next s)
  | _ => .answer (.refused .noSuchRegister)

/-- An access to an address of a memory exists only below the memory's size (20_memory.md R60; log
entry 12). -/
def State.inMemory (s : State) (g : Engine) (b : Buffer) (a : Nat)
    (o : Host.Outcome State Fault Refusal) : Host.Outcome State Fault Refusal :=
  if a < (s.memBytes g b).toNat then o else .fault .hostAddress

/-- Which memory of an engine that is not BUSY the host reads: OUT, once a call has ended, and IN never
(20_memory.md R60, R68, 60_exceptions.md R276; log entry 27). -/
def Status.hostReads (st : Status) : Buffer → Bool
  | .input => false
  | .output =>
    match st with
    | .idle => false
    | .busy => false
    | .done => true
    | .fault _ => true

/-- Which memory of an engine that is not BUSY the host writes: IN alone (20_memory.md R60). -/
def hostWrites : Buffer → Bool
  | .input => true
  | .output => false

/-- An access is accepted only in a direction that R60 lists (20_memory.md R60, 60_exceptions.md R279;
log entry 11). -/
def directed (allowed : Bool) (o : Host.Outcome State Fault Refusal) :
    Host.Outcome State Fault Refusal :=
  if allowed then o else .refused .accessDirection

/-- A host read of a byte of IN or OUT (20_memory.md R60, 44_host_commands.md R255). -/
def State.memRead (s : State) (g : Engine) (b : Buffer) (a : Nat) :
    Host.Outcome State Fault Refusal :=
  s.unlessBusy g (directed ((s.bank g).status.hostReads b)
    (s.inMemory g b a (.next (s.reply (.byte (((s.bank g).mem b).read a))))))

/-- A host write of a byte of IN or OUT (20_memory.md R60, 44_host_commands.md R255). -/
def State.memWrite (s : State) (g : Engine) (b : Buffer) (a : Nat) (v : Byte) :
    Host.Outcome State Fault Refusal :=
  s.unlessBusy g (directed (hostWrites b)
    (s.inMemory g b a
      (.next (s.withBank g ((s.bank g).withMem b (((s.bank g).mem b).write a v))))))

/-- One event from outside, on a state that no longer lists it. -/
def State.perform (s : State) : Input → Action
  | .regRead g n => .answer (s.regRead g n)
  | .regWrite g n v => s.regWrite g n v
  | .memRead g b a => .answer (s.memRead g b a)
  | .memWrite g b a v => .answer (s.memWrite g b a v)
  | .reset => .answer (.next s.resetBlock)

/-- The outside's turn: its next pending event, if there is one (log entry 3). -/
def State.outsideTurn (s : State) : Action :=
  match s.inputs with
  | [] => .answer (.next s)
  | x :: _ => s.popInput.perform x

end Sys2Proof.Machine
end

