-- ==== Sys2Proof/Machine/Emission.lean ====
section
/-! DEFINITION. ENC's token emission (41_encoder_token_emission.md). An emission answers `ok` with
the engine after it, or `error` with the engine as its `raise` left it: no later statement runs
(60_exceptions.md R275). -/

namespace Sys2Proof.Machine

/-- The outcome of an operation of ENC that can raise. -/
abbrev Emission := Except Enc Enc

/-- `raise k` on ENC; the working registers keep their values (60_exceptions.md R275). -/
def Enc.raise (k : ErrKind) (e : Enc) : Enc := e.withBank (e.bank.raise .enc k)

/-- Sequence: the second operation runs only if the first did not raise. -/
def Emission.andThen (r : Emission) (f : Enc → Emission) : Emission :=
  match r with
  | .ok e => f e
  | .error e => .error e

/-- The engine after an operation, raised or not. -/
def Emission.engine (r : Emission) : Enc :=
  match r with
  | .ok e => e
  | .error e => e

/-- `OutPut(v)` (41_encoder_token_emission.md R160). -/
def Enc.outPut (e : Enc) (v : Byte) : Emission :=
  if e.bank.outCap.toNat ≤ e.op.toNat then .error (e.raise .outputOverrun)
  else .ok { e with
    bank := { e.bank with outMem := e.bank.outMem.write e.op.toNat v }
    op := toWord (e.op.toNat + 1) }

/-- `OutPut` of each byte in order. -/
def Enc.outPutAll (e : Enc) : List Byte → Emission
  | [] => .ok e
  | v :: rest => (e.outPut v).andThen fun e' => e'.outPutAll rest

/-- The loop of `EmitExt(e)`: 0xFF while the rest is 255 or more, then the rest
(41_encoder_token_emission.md R161). -/
def emitExtLoop : (fuel : Nat) → (n : Nat) → List Byte
  | 0, n => [toByte n]
  | fuel + 1, n => if 255 ≤ n then 0xFF#8 :: emitExtLoop fuel (n - 255) else [toByte n]

/-- The bytes `EmitExt(e)` puts out (41_encoder_token_emission.md R161). -/
def emitExtBytes (n : Nat) : List Byte := emitExtLoop (n / 255) n

/-- The header of `EmitLit` (41_encoder_token_emission.md R162). -/
def emitLitHeader (n : Nat) : List Byte :=
  if n ≤ 63 then [toByte n] else 0x00#8 :: emitExtBytes (n - 64)

/-- `EmitLit(s, n)` (41_encoder_token_emission.md R162). -/
def Enc.emitLit (e : Enc) (start n : Nat) : Emission :=
  (e.outPutAll (emitLitHeader n)).andThen fun e' =>
    e'.outPutAll (e'.bank.inMem.readBytes start n)

/-- The loop of `FlushLiterals(upto)`; `fuel` bounds its rounds, each of which moves LS by at least 1
(41_encoder_token_emission.md R163). -/
def Enc.flushLoop (upto : Nat) : (fuel : Nat) → Enc → Emission
  | 0, e => .ok e
  | fuel + 1, e =>
    if e.ls.toNat < upto then
      let k := min (upto - e.ls.toNat) Config.encLitMax
      (e.emitLit e.ls.toNat k).andThen fun e' =>
        Enc.flushLoop upto fuel { e' with ls := toWord (e'.ls.toNat + k) }
    else .ok e

/-- `FlushLiterals(upto)` (41_encoder_token_emission.md R163). -/
def Enc.flushLiterals (e : Enc) (upto : Nat) : Emission :=
  Enc.flushLoop upto (upto - e.ls.toNat) e

/-- The bytes of `EmitMS(len, dist)` (41_encoder_token_emission.md R165). -/
def emitMsBytes (len dist : Nat) : List Byte :=
  let f := dist - 1
  (if len ≤ 17 then [0x80#8 ||| (toByte (len - 2) <<< 3) ||| toByte (f % 8)]
   else (0x80#8 ||| toByte (f % 8)) :: emitExtBytes (len - 18)) ++ [toByte (f / 8)]

/-- The bytes of `EmitMF(len, dist)` (41_encoder_token_emission.md R166). -/
def emitMfBytes (len dist : Nat) : List Byte :=
  let f := dist - 1
  (if len ≤ 66 then [0x40#8 ||| toByte (len - 3)]
   else 0x40#8 :: emitExtBytes (len - 67)) ++ [toByte (f % 256), toByte (f / 256)]

/-- The bytes of `EmitMatch(len, dist)`: the class is chosen by the distance alone
(41_encoder_token_emission.md R164). -/
def emitMatchBytes (len dist : Nat) : List Byte :=
  if dist ≤ Config.msMaxDist then emitMsBytes len dist else emitMfBytes len dist

/-- `EmitMatch(len, dist)` (41_encoder_token_emission.md R164). -/
def Enc.emitMatch (e : Enc) (len dist : Nat) : Emission := e.outPutAll (emitMatchBytes len dist)

/-- `EmitEnd()` (41_encoder_token_emission.md R167). -/
def Enc.emitEnd (e : Enc) : Emission := e.outPutAll [0x41#8, 0xFF#8, 0xFF#8]

/-- `EncBound(n)` (41_encoder_token_emission.md R168). -/
def encBound (n : Nat) : Nat := n + n / 32 + 4

end Sys2Proof.Machine
end

