-- ==== Sys2Proof/Machine/MatchFinder.lean ====
section
/-! DEFINITION. ENC's match finder and step (40_encoder_match_finder.md). -/

namespace Sys2Proof.Machine

/-- The hash of a match-key (40_encoder_match_finder.md R131). -/
def hashKey (b0 b1 b2 : Byte) : BitVec 12 :=
  ((b0.setWidth 16 <<< 8) ^^^ (b1.setWidth 16 <<< 4) ^^^ b2.setWidth 16).setWidth 12

/-- `Hash3(p)` (40_encoder_match_finder.md R131). -/
def Enc.hash3 (e : Enc) (p : Nat) : BitVec 12 :=
  hashKey (e.bank.inMem.read p) (e.bank.inMem.read (p + 1)) (e.bank.inMem.read (p + 2))

/-- A position has a key when `p + 3 <= IN_LEN` (40_encoder_match_finder.md R132). -/
def Enc.hasKey (e : Enc) (p : Nat) : Bool := decide (p + Config.keyWidth ≤ e.bank.inLen.toNat)

/-- The PREV slot of a position (10_state.md R32). -/
def prevSlot (p : Nat) : Nat := p % Config.prevEntries

/-- `Insert(p)` (40_encoder_match_finder.md R133). -/
def Enc.insert (e : Enc) (p : Nat) : Enc :=
  let h := (e.hash3 p).toNat
  { e with
    prev := e.prev.write (prevSlot p) (e.head.read h)
    head := e.head.write h (some (toWord p)) }

/-- The loop of `MatchLen`: how many bytes agree, up to `n` of them. -/
def Enc.agree (e : Enc) (c i : Nat) : (n : Nat) → Nat
  | 0 => 0
  | n + 1 =>
    if e.bank.inMem.read c = e.bank.inMem.read i then e.agree (c + 1) (i + 1) n + 1 else 0

/-- `MatchLen(c, i)` (40_encoder_match_finder.md R134). -/
def Enc.matchLen (e : Enc) (c i : Nat) : Nat := e.agree c i (e.bank.inLen.toNat - i)

/-- `Valid(len, dist)` (40_encoder_match_finder.md R135). -/
def validMatch (len dist : Nat) : Bool :=
  (decide (Config.msMinLen ≤ len) && decide (dist ≤ Config.msMaxDist)) ||
    (decide (Config.mfMinLen ≤ len) && decide (dist ≤ Config.maxDist))

/-- One round of the chain walk: examine the candidate `c`, keep it if it is valid and strictly
longer, go to the next older one (40_encoder_match_finder.md R136, R137). -/
def Enc.examine (e : Enc) (c : Word) : Enc :=
  let len := e.matchLen c.toNat e.i.toNat
  let dist := e.i.toNat - c.toNat
  let best :=
    if validMatch len dist ∧ e.blen.toNat < len then
      { e with blen := toWord len, bdist := BitVec.ofNat 16 dist }
    else e
  { best with
    cand := e.prev.read (prevSlot c.toNat)
    depth := BitVec.ofNat 5 (e.depth.toNat + 1) }

/-- The chain walk with its three stop conditions (40_encoder_match_finder.md R136); `fuel` is the
most candidates it can examine. -/
def Enc.walk : (fuel : Nat) → Enc → Enc
  | 0, e => e
  | fuel + 1, e =>
    match e.cand with
    | none => e
    | some c =>
      if e.i.toNat - c.toNat ≤ Config.maxDist ∧ e.depth.toNat < Config.maxChain then
        Enc.walk fuel (e.examine c)
      else e

/-- `FindMatch()` (40_encoder_match_finder.md R136). -/
def Enc.findMatch (e : Enc) : Enc :=
  let h := e.hash3 e.i.toNat
  Enc.walk Config.maxChain
    { e with h := h, cand := e.head.read h.toNat, depth := 0, blen := 0, bdist := 0 }

/-- Insert the positions `p`, `p + 1`, … (`n` of them) that have a key, in increasing order
(40_encoder_match_finder.md R140). -/
def Enc.insertRange (e : Enc) (p : Nat) : (n : Nat) → Enc
  | 0 => e
  | n + 1 => (if e.hasKey p then e.insert p else e).insertRange (p + 1) n

/-- The search and insertion at position I (40_encoder_match_finder.md R130, R138). -/
def Enc.search (e : Enc) : Enc :=
  if 3 ≤ e.bank.inLen.toNat - e.i.toNat then e.findMatch.insert e.i.toNat
  else { e with blen := 0 }

/-- No valid match (40_encoder_match_finder.md R139). -/
def Enc.stepLiteral (e : Enc) : Enc := { e with i := toWord (e.i.toNat + 1) }

/-- After the match token: insert the other covered positions and move on
(40_encoder_match_finder.md R140). -/
def Enc.cover (e : Enc) : Enc :=
  let e' := e.insertRange (e.i.toNat + 1) (e.blen.toNat - 1)
  { e' with i := toWord (e.i.toNat + e.blen.toNat), ls := toWord (e.i.toNat + e.blen.toNat) }

/-- A valid match (40_encoder_match_finder.md R140). -/
def Enc.stepMatch (e : Enc) : Emission :=
  ((e.flushLiterals e.i.toNat).andThen fun e1 =>
    e1.emitMatch e1.blen.toNat e1.bdist.toNat).andThen fun e2 => .ok e2.cover

/-- End of input (40_encoder_match_finder.md R141, 41_encoder_token_emission.md R169). -/
def Enc.stepEnd (e : Enc) : Emission :=
  ((e.flushLiterals e.bank.inLen.toNat).andThen Enc.emitEnd).andThen fun e' =>
    .ok (e'.withBank (e'.bank.complete e'.op))

/-- `EncStep` (40_encoder_match_finder.md R130). -/
def Enc.encStep (e : Enc) : Enc :=
  if e.i = e.bank.inLen then e.stepEnd.engine
  else
    let e' := e.search
    if e'.blen = 0#32 then e'.stepLiteral else e'.stepMatch.engine

/-- ENC's turn: it steps while BUSY (40_encoder_match_finder.md R130) and otherwise does nothing
(60_exceptions.md R284). -/
def Enc.turn (e : Enc) : Enc := if e.bank.status = .busy then e.encStep else e

end Sys2Proof.Machine
end

