-- ==== Sys2Proof/Machine/Fetch.lean ====
section
/-! DEFINITION. Who moves next, and what its turn is: DEC fetches and decodes a token, ENC steps, the
outside performs its next access. -/

namespace Sys2Proof.Machine

/-- DEC's turn while BUSY: between tokens it fetches a header and runs its token; in a copy or end
phase it does that phase (42_decoder_token_parser.md R190, 43_decoder_copy_engine.md R220 to R222). -/
def State.busyDecTurn (s : State) : Action :=
  match s.dec.phase with
  | .rt =>
    match decodeHeader s.dec.unread with
    | .ok (i, _) => .run i s
    | .error (.headerCut count) => .answer (.next (s.withDec (s.dec.headerCut count)))
    | .error .noStart => .answer (.next s)
  | .cl => .answer (.next (s.withDec s.dec.copyLiteral))
  | .cm => .answer (.next (s.withDec s.dec.copyMatch))
  | .dn => .answer (.next (s.withDec s.dec.finish))

/-- DEC's turn; an engine that is not BUSY does nothing (60_exceptions.md R284). -/
def State.decTurn (s : State) : Action :=
  if s.dec.bank.status = .busy then s.busyDecTurn else .answer (.next s)

/-- Who moves: the first of `turns`; where `turns` names nobody, a BUSY engine before the outside
(60_exceptions.md R282: any order gives the same observations; log entry 2). -/
def State.mover (s : State) : Agent :=
  match s.turns with
  | g :: _ => g
  | [] =>
    if s.dec.bank.status = .busy then .dec
    else if s.enc.bank.status = .busy then .enc
    else .outside

/-- The mover's turn, on the state in which the turn is taken. -/
def State.nextAction (s : State) : Action :=
  match s.mover with
  | .dec => s.popTurn.decTurn
  | .enc => .answer (.next (s.popTurn.withEnc s.enc.turn))
  | .outside => s.popTurn.outsideTurn

/-- The stream bytes of a token whose header is at the front of `bytes`: its header, then its payload
as zero bytes. -/
def tokenImage (bytes : List Byte) : List Byte :=
  match decodeHeader bytes with
  | .ok (i, rest) => bytes.take (bytes.length - rest.length) ++ List.replicate (payloadLen i) 0#8
  | .error _ => bytes

/-- DEC BUSY between tokens, with `bytes` as the stream from its read cursor to the end. -/
def Dec.loadStream (d : Dec) (bytes : List Byte) : Dec :=
  { d with
    bank := { d.bank with
      status := .busy
      inLen := toWord (d.ip.toNat + bytes.length)
      inMem := d.bank.inMem.writeBytes d.ip.toNat bytes }
    phase := .rt }

/-- A token placed where DEC fetches next, and DEC's turn (log entry 16). -/
def State.withToken (s : State) (bytes : List Byte) : State :=
  { s with dec := s.dec.loadStream (tokenImage bytes), turns := .dec :: s.turns }

/-- A host command placed as the outside's next access, and the outside's turn (log entry 16). -/
def State.withCommand (s : State) (g : Engine) (w : Word) : State :=
  { s with inputs := .regWrite g 0 w :: s.inputs, turns := .outside :: s.turns }

end Sys2Proof.Machine
end

