-- ==== Sys2Proof/Machine/Step.lean ====
section
/-! DEFINITION. One step of the machine: the next mover's turn. -/

namespace Sys2Proof.Machine

/-- One step: an instruction runs by `exec`, any other turn has its answer. -/
def step (s : State) : Host.Outcome State Fault Refusal :=
  match s.nextAction with
  | .run i s' => exec i s'
  | .answer o => o

/-- A table row's bits placed where the next step fetches: a row of 32 bits is a word the host writes
to DEC.CTRL, any other row is a token at DEC's read cursor with DEC BUSY (log entries 15, 16). -/
def State.withFetchWord (s : State) (nbits w : Nat) : State :=
  if nbits = 32 then s.withCommand .dec (toWord w) else s.withToken (tableStream nbits w)

end Sys2Proof.Machine
end

