-- ==== Sys2Proof/Machine/Parser.lean ====
section
/-! DEFINITION. DEC's step as the spec writes it, phase by phase and byte by byte
(42_decoder_token_parser.md R190 to R196). The machine's own step takes a whole token at once (log
entry 1); this is the unfused form that the fused one is held against. -/

namespace Sys2Proof.Machine

/-- What an operation of DEC answers: a value and the engine, or the engine after a `raise`. -/
abbrev Parse (α : Type) := Except Dec (α × Dec)

/-- `NextByte()` (42_decoder_token_parser.md R191). -/
def Dec.nextByte (d : Dec) : Parse Byte :=
  if d.bank.inLen.toNat ≤ d.ip.toNat then .error (d.raise .inputOverrun)
  else .ok (d.bank.inMem.read d.ip.toNat, { d with ip := toWord (d.ip.toNat + 1) })

/-- The loop of `ReadExt()`; the stream has no more than `fuel` bytes left
(42_decoder_token_parser.md R192). -/
def Dec.readExtLoop : (fuel : Nat) → (sum : Nat) → Dec → Parse Nat
  | 0, _, d => .error (d.raise .inputOverrun)
  | fuel + 1, sum, d =>
    match d.nextByte with
    | .error d' => .error d'
    | .ok (g, d') =>
      if g = Config.extCont then Dec.readExtLoop fuel (sum + g.toNat) d'
      else .ok (sum + g.toNat, d')

/-- `ReadExt()` (42_decoder_token_parser.md R192). -/
def Dec.readExt (d : Dec) : Parse Nat :=
  Dec.readExtLoop (d.bank.inLen.toNat - d.ip.toNat + 1) 0 d

/-- CNT of a class whose inline count is `inline` and whose escape base is `base`
(42_decoder_token_parser.md R194 to R196, 30_encoding.md R92). -/
def Dec.readCount (d : Dec) (escaped : Bool) (inline base : Nat) : Except Dec Dec :=
  if escaped then
    match d.readExt with
    | .error d' => .error d'
    | .ok (e, d') => .ok { d' with cnt := BitVec.ofNat 40 (base + e) }
  else .ok { d with cnt := BitVec.ofNat 40 inline }

/-- `ParseLIT(c)` (42_decoder_token_parser.md R194). -/
def Dec.parseLit (d : Dec) (c : Byte) : Except Dec Dec :=
  let v := c.toNat % 64
  match d.readCount (v == 0) v 64 with
  | .error d' => .error d'
  | .ok d' => .ok { d' with phase := .cl }

/-- `ParseMS(c)` (42_decoder_token_parser.md R195). -/
def Dec.parseMs (d : Dec) (c : Byte) : Except Dec Dec :=
  let v := c.toNat / 8 % 16
  let dl := c.toNat % 8
  match d.readCount (v == 0) (v + 2) 18 with
  | .error d' => .error d'
  | .ok d1 =>
    match d1.nextByte with
    | .error d' => .error d'
    | .ok (dh, d2) =>
      .ok { d2 with dist := BitVec.ofNat 17 (dh.toNat * 8 + dl + 1), phase := .cm }

/-- `ParseMF(c)` (42_decoder_token_parser.md R196). -/
def Dec.parseMf (d : Dec) (c : Byte) : Except Dec Dec :=
  let v := c.toNat % 64
  match d.readCount (v == 0) (v + 3) 67 with
  | .error d' => .error d'
  | .ok d1 =>
    match d1.nextByte with
    | .error d' => .error d'
    | .ok (lo, d2) =>
      match d2.nextByte with
      | .error d' => .error d'
      | .ok (hi, d3) =>
        let f := lo.toNat + hi.toNat * 256
        .ok { d3 with
          dist := BitVec.ofNat 17 (f + 1)
          phase := if f = 65535 then .dn else .cm }

/-- `ReadToken()` (42_decoder_token_parser.md R193). -/
def Dec.readToken (d : Dec) : Except Dec Dec :=
  match d.nextByte with
  | .error d' => .error d'
  | .ok (c, d') =>
    if c.toNat / 64 = 0 then d'.parseLit c
    else if c.toNat / 64 = 1 then d'.parseMf c
    else d'.parseMs c

/-- `DecStep` (42_decoder_token_parser.md R190). -/
def Dec.decStep (d : Dec) : Dec :=
  match d.phase with
  | .rt =>
    match d.readToken with
    | .ok d' => d'
    | .error d' => d'
  | .cl => d.copyLiteral
  | .cm => d.copyMatch
  | .dn => d.finish

/-- DEC's unfused turn: it steps while BUSY (42_decoder_token_parser.md R190, 60_exceptions.md
R284). -/
def Dec.phaseTurn (d : Dec) : Dec := if d.bank.status = .busy then d.decStep else d

end Sys2Proof.Machine
end

