-- ==== Sys2Proof/Machine/Stream.lean ====
section
/-! DEFINITION. Streams as data: the textual token syntax and its pseudo-tokens (30_encoding.md R105,
R106), well-formed streams (R103), and the function a decompress call computes
(43_decoder_copy_engine.md R226). -/

namespace Sys2Proof.Machine

/-- A token of the textual syntax, but for `END` and raw bytes (30_encoding.md R105). -/
inductive AsmToken where
  | lit (payload : List Byte)
  | ms (len dist : Nat)
  | mf (len dist : Nat)
  deriving DecidableEq, Repr

/-- An end marker: `END.v k` or `END.x e` (30_encoding.md R106). -/
inductive AsmEnd where
  | endV (k : BitVec 6)
  | endX (e : Nat)
  deriving DecidableEq, Repr

/-- What the syntax requires of a token (30_encoding.md R94 to R96, R105). -/
def AsmToken.legal : AsmToken → Bool
  | .lit payload => decide (1 ≤ payload.length)
  | .ms len dist => decide (3 ≤ len) && decide (1 ≤ dist) && decide (dist ≤ 2048)
  | .mf len dist => decide (4 ≤ len) && decide (1 ≤ dist) && decide (dist ≤ 65535)

/-- What the syntax requires of an end marker (30_encoding.md R106). -/
def AsmEnd.legal : AsmEnd → Bool
  | .endV k => k != 0#6
  | .endX _ => true

/-- The instruction a token assembles to (30_encoding.md R94 to R96). -/
def AsmToken.instr : AsmToken → Instr
  | .lit payload =>
    if payload.length ≤ 63 then .litI (BitVec.ofNat 6 payload.length)
    else .litX (payload.length - 64)
  | .ms len dist =>
    if len ≤ 17 then .msI (BitVec.ofNat 4 (len - 2)) (BitVec.ofNat 11 (dist - 1))
    else .msX (len - 18) (BitVec.ofNat 11 (dist - 1))
  | .mf len dist =>
    if len ≤ 66 then .mfI (BitVec.ofNat 6 (len - 3)) (BitVec.ofNat 16 (dist - 1))
    else .mfX (len - 67) (BitVec.ofNat 16 (dist - 1))

/-- The instruction an end marker assembles to (30_encoding.md R106). -/
def AsmEnd.instr : AsmEnd → Instr
  | .endV k => .endTok k 0
  | .endX e => .endTok 0#6 e

/-- The payload of a token (30_encoding.md R94). -/
def AsmToken.payload : AsmToken → List Byte
  | .lit payload => payload
  | .ms _ _ => []
  | .mf _ _ => []

/-- The bytes a token assembles to (30_encoding.md R105). -/
def AsmToken.bytes (t : AsmToken) : List Byte := headerBytes t.instr ++ t.payload

/-- The bytes of tokens one after the other, with nothing between them (30_encoding.md R90). -/
def assemble : List AsmToken → List Byte
  | [] => []
  | t :: rest => t.bytes ++ assemble rest

/-- A whole stream: tokens, then an end marker (30_encoding.md R90). -/
def assembleStream (ts : List AsmToken) (last : AsmEnd) : List Byte :=
  assemble ts ++ headerBytes last.instr

/-- The pseudo-token `MATCH len, dist` (30_encoding.md R106). -/
def asmMatch (len dist : Nat) : AsmToken := if dist ≤ 2048 then .ms len dist else .mf len dist

/-- The loop of `LITS`; `fuel` bounds its rounds. -/
def asmLitsLoop : (fuel : Nat) → List Byte → List AsmToken
  | 0, _ => []
  | fuel + 1, run =>
    if run = [] then [] else .lit (run.take 318) :: asmLitsLoop fuel (run.drop 318)

/-- The pseudo-token `LITS <bytes>`: nothing for no byte, else full tokens of 318 first and the rest
last (30_encoding.md R106). -/
def asmLits (run : List Byte) : List AsmToken := asmLitsLoop run.length run

/-- `n` times, append the byte `d` back from the end (43_decoder_copy_engine.md R226). -/
def repeatBack (d : Nat) : (n : Nat) → List Byte → List Byte
  | 0, out => out
  | n + 1, out => repeatBack d n (out ++ [out.getD (out.length - d) 0#8])

/-- The output after one more token (30_encoding.md R103, 43_decoder_copy_engine.md R226). -/
def AsmToken.expand (out : List Byte) : AsmToken → List Byte
  | .lit payload => out ++ payload
  | .ms len dist => repeatBack dist len out
  | .mf len dist => repeatBack dist len out

/-- The distance of a match token; a literal has none. -/
def AsmToken.dist : AsmToken → Nat
  | .lit _ => 0
  | .ms _ dist => dist
  | .mf _ dist => dist

/-- The bytes that tokens produce after `out`, where each is legal and no distance reaches before the
first byte (30_encoding.md R103). -/
def expandTokens (out : List Byte) : List AsmToken → Option (List Byte)
  | [] => some out
  | t :: rest =>
    if t.legal ∧ t.dist ≤ out.length then expandTokens (t.expand out) rest else none

/-- `s` is a well-formed stream whose decoding is `out` (30_encoding.md R103). -/
def WellFormedStream (s out : List Byte) : Prop :=
  ∃ ts last, s = assembleStream ts last ∧ last.legal = true ∧ expandTokens [] ts = some out

/-- What a decompress call gives (43_decoder_copy_engine.md R226). -/
inductive CallResult where
  | ok (out : List Byte)
  | err (k : ErrKind)
  deriving DecidableEq, Repr

/-- What a token asks of the copy engine. -/
inductive TokenWork where
  | literal (n : Nat)
  | backref (len dist : Nat)
  | finish
  deriving DecidableEq, Repr

/-- The work of a token (42_decoder_token_parser.md R194 to R196). A host command is no token; it
never comes out of a stream and stands here as `finish`. -/
def tokenWork : Instr → TokenWork
  | .litX e => .literal (litEscaped e)
  | .litI v => .literal (litInline v)
  | .endTok _ _ => .finish
  | .mfX e f => .backref (mfEscaped e) (mfDist f)
  | .mfI v f => .backref (mfInline v) (mfDist f)
  | .msX e f => .backref (msEscaped e) (msDist f)
  | .msI v f => .backref (msInline v) (msDist f)
  | .decStart _ => .finish
  | .encStart _ => .finish

/-- The loop of `Decompress`: `s` is the stream from the read cursor on, `out` the output so far;
every round consumes at least one byte, so `fuel` of one more than the length is enough. -/
def decompressLoop (cap : Nat) : (fuel : Nat) → (s out : List Byte) → CallResult
  | 0, _, _ => .err .inputOverrun
  | fuel + 1, s, out =>
    match decodeHeader s with
    | .error _ => .err .inputOverrun
    | .ok (i, rest) =>
      match tokenWork i with
      | .literal n =>
        if rest.length < n then .err .inputOverrun
        else if cap - out.length < n then .err .outputOverrun
        else decompressLoop cap fuel (rest.drop n) (out ++ rest.take n)
      | .backref len dist =>
        if out.length < dist then .err .inputOverrun
        else if cap - out.length < len then .err .outputOverrun
        else decompressLoop cap fuel rest (repeatBack dist len out)
      | .finish => if rest = [] then .ok out else .err .inputNotConsumed

/-- `Decompress(s, cap)` (43_decoder_copy_engine.md R226). -/
def decompress (s : List Byte) (cap : Nat) : CallResult :=
  decompressLoop cap (s.length + 1) s []

end Sys2Proof.Machine
end

