-- ==== Sys2Proof/Safety.lean ====
section
/-! DEFINITION. What counts as a safe state, and the terms the claims are stated in: the invariants of
10_state.md R37 and 40_encoder_match_finder.md R143, frames, and the effects of the copy engine. -/

namespace Sys2Proof.Machine

/-- The memories of a bank keep their canonical form, list only addresses that exist (20_memory.md
R60, R65), and the counter of free values is ahead of those in use (log entry 21). -/
abbrev Bank.memoryOk (b : Bank) (inSize outSize : Word) : Prop :=
  b.inMem.wf ∧ b.outMem.wf ∧
    (∀ c ∈ b.inMem.cells, c.1 < inSize.toNat) ∧ (∀ c ∈ b.outMem.cells, c.1 < outSize.toNat) ∧
    b.inMem.draw < b.draws ∧ b.outMem.draw < b.draws

/-- The length premises of a launch, while the call runs (44_host_commands.md R252, 20_memory.md
R66). -/
abbrev Bank.premises (b : Bank) (inSize outSize : Word) : Prop :=
  b.inLen.toNat ≤ inSize.toNat ∧ b.outCap.toNat ≤ outSize.toNat

/-- The DEC lines of 10_state.md R37. The bound of CNT is asked for after a ReadToken only, because
START leaves CNT as it was (log entry 19). -/
abbrev Dec.callOk (d : Dec) : Prop :=
  d.ip.toNat ≤ d.bank.inLen.toNat ∧ d.op.toNat ≤ d.bank.outCap.toNat ∧
    (∀ a < d.op.toNat, (d.bank.outMem.written a).isSome = true) ∧
    (d.phase ≠ .rt → d.cnt.toNat ≤ 67 + 255 * (d.bank.inLen.toNat - 1)) ∧
    (d.phase = .cm → 1 ≤ d.dist.toNat ∧ d.dist.toNat ≤ 65535)

/-- The cursor lines of 10_state.md R37 for ENC. -/
abbrev Enc.callOk (e : Enc) : Prop :=
  e.ls.toNat ≤ e.i.toNat ∧ e.i.toNat ≤ e.bank.inLen.toNat ∧ e.op.toNat ≤ e.bank.outCap.toNat

/-- HEAD and PREV keep their canonical form and list only entries that exist (20_memory.md R60,
R65). -/
abbrev Enc.tablesOk (e : Enc) : Prop :=
  e.head.wf ∧ e.prev.wf ∧
    (∀ c ∈ e.head.cells, c.1 < Config.headEntries) ∧ (∀ c ∈ e.prev.cells, c.1 < Config.prevEntries)

/-- The invariant of the whole machine. -/
abbrev State.Inv (s : State) : Prop :=
  s.dec.bank.memoryOk s.sizes.decIn s.sizes.decOut ∧
    s.enc.bank.memoryOk s.sizes.encIn s.sizes.encOut ∧
    s.enc.tablesOk ∧
    (s.dec.bank.status = .busy →
      s.dec.bank.premises s.sizes.decIn s.sizes.decOut ∧ s.dec.callOk) ∧
    (s.enc.bank.status = .busy →
      s.enc.bank.premises s.sizes.encIn s.sizes.encOut ∧ s.enc.callOk)

/-- The largest position below `n` that has a key of hash `h`, as a table entry holds it (10_state.md
R31, R32). -/
def Enc.lastInserted (e : Enc) (h : BitVec 12) : (n : Nat) → Option Word
  | 0 => none
  | n + 1 => if e.hasKey n ∧ e.hash3 n = h then some (toWord n) else e.lastInserted h n

/-- The index between steps (10_state.md R31, R32, 40_encoder_match_finder.md R143): HEAD holds the
latest position of each hash, and PREV, for each position still in the window, the one before it of
the same hash. -/
def Enc.indexOk (e : Enc) : Prop :=
  (∀ h : BitVec 12, e.head.read h.toNat = e.lastInserted h e.i.toNat) ∧
    ∀ p, p < e.i.toNat → e.hasKey p = true → e.i.toNat ≤ p + 65536 →
      e.prev.read (prevSlot p) = e.lastInserted (e.hash3 p) p

/-- The last line of 10_state.md R37: what ENC has put out is a token sequence whose expansion is the
input before the pending literal run. -/
def Enc.prefixOk (e : Enc) : Prop :=
  ∃ ts, e.bank.outputBytes e.op.toNat = assemble ts ∧
    expandTokens [] ts = some (e.bank.inMem.readBytes 0 e.ls.toNat)

/-- The positions that the chain walk examines from entry `c` on, at most `fuel` of them, nearest
first (40_encoder_match_finder.md R136). -/
def Enc.candidates (e : Enc) : (fuel : Nat) → Option Word → List Nat
  | 0, _ => []
  | _ + 1, none => []
  | fuel + 1, some c =>
    if e.i.toNat - c.toNat ≤ Config.maxDist then
      c.toNat :: e.candidates fuel (e.prev.read (prevSlot c.toNat))
    else []

/-- Nothing but DEC differs. -/
def SameButDec (s t : State) : Prop :=
  t.enc = s.enc ∧ t.sizes = s.sizes ∧ t.inputs = s.inputs ∧ t.turns = s.turns ∧
    t.replies = s.replies

/-- Nothing but ENC differs. -/
def SameButEnc (s t : State) : Prop :=
  t.dec = s.dec ∧ t.sizes = s.sizes ∧ t.inputs = s.inputs ∧ t.turns = s.turns ∧
    t.replies = s.replies

/-- The arguments of a call: IN, IN_LEN and OUT_CAP (44_host_commands.md R250). -/
def SameArguments (b b' : Bank) : Prop :=
  b'.inMem = b.inMem ∧ b'.inLen = b.inLen ∧ b'.outCap = b.outCap

/-- All of a bank but OUT. -/
def SameButOut (b b' : Bank) : Prop :=
  SameArguments b b' ∧ b'.status = b.status ∧ b'.outLen = b.outLen ∧ b'.draws = b.draws

/-- DEC after a whole `LIT` token of `n` payload bytes behind a header of `header` bytes
(43_decoder_copy_engine.md R220, 42_decoder_token_parser.md R194). -/
def LiteralDone (d d' : Dec) (header n : Nat) : Prop :=
  d'.ip.toNat = d.ip.toNat + header + n ∧ d'.op.toNat = d.op.toNat + n ∧ d'.phase = .rt ∧
    d'.cnt.toNat = n ∧ d'.dist = d.dist ∧ SameButOut d.bank d'.bank ∧
    ∀ a, d'.bank.outMem.read a =
      if d.op.toNat ≤ a ∧ a < d.op.toNat + n then
        d.bank.inMem.read (d.ip.toNat + header + (a - d.op.toNat))
      else d.bank.outMem.read a

/-- DEC after a whole match token of length `len` and distance `dist` behind a header of `header`
bytes: the last `dist` output bytes repeated with period `dist` (43_decoder_copy_engine.md R221,
R225). -/
def MatchDone (d d' : Dec) (header len dist : Nat) : Prop :=
  d'.ip.toNat = d.ip.toNat + header ∧ d'.op.toNat = d.op.toNat + len ∧ d'.phase = .rt ∧
    d'.cnt.toNat = len ∧ d'.dist.toNat = dist ∧ SameButOut d.bank d'.bank ∧
    ∀ a, d'.bank.outMem.read a =
      if d.op.toNat ≤ a ∧ a < d.op.toNat + len then
        d.bank.outMem.read (d.op.toNat - dist + (a - d.op.toNat) % dist)
      else d.bank.outMem.read a

/-- DEC stopped by a `raise` of `k` inside a token whose parse left IP, CNT, DIST and PHASE so: STATUS
says FAULT and `k`; IN, IN_LEN and OUT_CAP are unchanged, OP has not moved (60_exceptions.md R275,
R276). -/
def TokenRaised (d d' : Dec) (k : ErrKind) (header count dist : Nat) (at_ : Phase) : Prop :=
  d'.bank.status = .fault k ∧ SameArguments d.bank d'.bank ∧ d'.op = d.op ∧
    d'.ip.toNat = d.ip.toNat + header ∧ d'.cnt.toNat = count ∧ d'.dist.toNat = dist ∧
    d'.phase = at_

/-- DEC is between tokens of a running call, and a header of `header` bytes lies in the stream. -/
def AtToken (s : State) (header : Nat) : Prop :=
  s.dec.bank.status = .busy ∧ s.dec.phase = .rt ∧
    s.dec.ip.toNat + header ≤ s.dec.bank.inLen.toNat

/-- `n` steps in which only agent `g` moves. -/
def turnsOf (g : Agent) (n : Nat) (s : State) : Host.Outcome State Fault Refusal :=
  Sys2Proof.core.run n { s with turns := List.replicate n g }

/-- ENC right after START: the state a call begins in (44_host_commands.md R251). -/
def Enc.started (e : Enc) : Prop :=
  e.bank.status = .busy ∧ e.i = 0 ∧ e.ls = 0 ∧ e.op = 0 ∧ e.head = Table.allNil .head

/-- DEC right after START: the state a call begins in (44_host_commands.md R250). -/
def Dec.started (d : Dec) : Prop :=
  d.bank.status = .busy ∧ d.ip = 0 ∧ d.op = 0 ∧ d.phase = .rt

/-- The next event from outside is `x`, and the outside has the turn. -/
def NextInput (s : State) (x : Input) (rest : List Input) : Prop :=
  s.mover = .outside ∧ s.inputs = x :: rest

/-- What the host can observe of an ended call (00_scope.md R7): the error, or the output. -/
def Bank.observation (b : Bank) : Option CallResult :=
  match b.status with
  | .idle => none
  | .busy => none
  | .done => some (.ok (b.outputBytes b.outLen.toNat))
  | .fault k => some (.err k)

/-- Which engine an access is to; reset is to both (70_reset_and_hazards.md R300). -/
def Input.touches (g : Engine) : Input → Bool
  | .regRead g' _ => g' == g
  | .regWrite g' _ _ => g' == g
  | .memRead g' _ _ => g' == g
  | .memWrite g' _ _ _ => g' == g
  | .reset => true

end Sys2Proof.Machine
end

