-- ==== Sys2Proof/Certificates/Slice0/Obligations.lean ====
section
/-! DEFINITION. The statements for the provers. -/

open Sys2Proof Sys2Proof.Machine

/-! ## The stream format -/

/-- 30_encoding.md R94 to R98: decoding the encoding of a well-formed instruction gives it back, and a
token's header is decoded the same whatever follows it. -/
def Obligations.EncodedInstructionDecodesBack : Prop :=
  ∀ (i : Instr) (rest : List Byte), i.wf = true →
    decode (encode i) = .ok (i, []) ∧
      ∀ bytes, encode i = .stream bytes → decodeHeader (bytes ++ rest) = .ok (i, rest)

/-- 30_encoding.md R92, R93, R100: a header that decodes is exactly the encoding of the token it
decodes to, and that token is well formed and no host command. -/
def Obligations.DecodedHeaderIsItsEncoding : Prop :=
  ∀ (bytes : List Byte) (i : Instr) (rest : List Byte), decodeHeader bytes = .ok (i, rest) →
    i.wf = true ∧ encode i = .stream (headerBytes i) ∧ bytes = headerBytes i ++ rest ∧
      (headerBytes i).length = headerLen i

/-- 30_encoding.md R93, whole: the two procedures, their inverse laws, the number of bytes. -/
def Obligations.ExtensionCodingIsOneToOne : Prop :=
  (∀ e, encodeExt e = List.replicate (e / 255) 0xFF#8 ++ [toByte (e % 255)] ∧
      (encodeExt e).length = e / 255 + 1) ∧
    (∀ (q : Nat) (r : Byte) (rest : List Byte), r ≠ 0xFF#8 →
      decodeExt (List.replicate q 0xFF#8 ++ r :: rest) = some (255 * q + r.toNat, rest)) ∧
    (∀ q, decodeExt (List.replicate q 0xFF#8) = none) ∧
    (∀ (e : Nat) (rest : List Byte), decodeExt (encodeExt e ++ rest) = some (e, rest)) ∧
    ∀ (bytes : List Byte) (e : Nat) (rest : List Byte), decodeExt bytes = some (e, rest) →
      bytes = encodeExt e ++ rest

/-- 30_encoding.md R100, the six rows of the control-byte map: the token, its count and the low bits of
its distance. -/
def Obligations.ControlByteMapHasNoGap : Prop :=
  ∀ (c lo hi : Byte) (e : Nat) (rest : List Byte),
    (c.toNat = 0x00 → decodeHeader (c :: (encodeExt e ++ rest)) = .ok (.litX e, rest) ∧
      tokenWork (.litX e) = .literal (64 + e)) ∧
    (0x01 ≤ c.toNat ∧ c.toNat ≤ 0x3F → ∃ v, decodeHeader (c :: rest) = .ok (.litI v, rest) ∧
      tokenWork (.litI v) = .literal c.toNat) ∧
    (c.toNat = 0x40 → ∃ f : BitVec 16, f.toNat = lo.toNat + 256 * hi.toNat ∧
      decodeHeader (c :: (encodeExt e ++ lo :: hi :: rest)) =
        .ok (if f = 0xFFFF#16 then .endTok 0#6 e else .mfX e f, rest) ∧
      tokenWork (.mfX e f) = .backref (67 + e) (f.toNat + 1)) ∧
    (0x41 ≤ c.toNat ∧ c.toNat ≤ 0x7F → ∃ (v : BitVec 6) (f : BitVec 16),
      v.toNat = c.toNat - 0x40 ∧ f.toNat = lo.toNat + 256 * hi.toNat ∧
      decodeHeader (c :: lo :: hi :: rest) =
        .ok (if f = 0xFFFF#16 then .endTok v 0 else .mfI v f, rest) ∧
      tokenWork (.mfI v f) = .backref (c.toNat - 0x3D) (f.toNat + 1)) ∧
    (0x80 ≤ c.toNat ∧ c.toNat ≤ 0x87 → ∃ f : BitVec 11,
      f.toNat = 8 * lo.toNat + c.toNat % 8 ∧
      decodeHeader (c :: (encodeExt e ++ lo :: rest)) = .ok (.msX e f, rest) ∧
      tokenWork (.msX e f) = .backref (18 + e) (f.toNat + 1)) ∧
    (0x88 ≤ c.toNat → ∃ (v : BitVec 4) (f : BitVec 11),
      f.toNat = 8 * lo.toNat + c.toNat % 8 ∧
      decodeHeader (c :: lo :: rest) = .ok (.msI v f, rest) ∧
      tokenWork (.msI v f) = .backref (c.toNat / 8 % 16 + 2) (f.toNat + 1)) ∧
    tokenWork (.endTok 0#6 e) = .finish

/-- Words written out from 30_encoding.md R94 to R97 and the START words of 10_state.md R22. -/
def Obligations.SampleWordsDecode : Prop :=
  decodeHeader [0x03#8, 0x61#8] = .ok (.litI 3, [0x61#8]) ∧
    decodeHeader [0x00#8, 0xFE#8] = .ok (.litX 254, []) ∧
    decodeHeader [0xA2#8, 0x00#8] = .ok (.msI 4 2, []) ∧
    decodeHeader [0x83#8, 0xFF#8, 0x1B#8, 0x25#8] = .ok (.msX 282 299, []) ∧
    decodeHeader [0x51#8, 0xFE#8, 0xFF#8] = .ok (.mfI 17 65534, []) ∧
    decodeHeader [0x40#8, 0x21#8, 0xB7#8, 0x0B#8] = .ok (.mfX 33 2999, []) ∧
    decodeHeader [0x41#8, 0xFF#8, 0xFF#8] = .ok (canonicalEnd, []) ∧
    decodeHeader [0x40#8, 0x05#8, 0xFF#8, 0xFF#8] = .ok (.endTok 0 5, []) ∧
    decodeCtrl .dec 0x00000001#32 = .ok (.decStart 0) ∧
    decodeCtrl .enc 0x80000001#32 = .ok (.encStart 0x40000000#31)

/-! ## Steps and instructions -/

/-- 42_decoder_token_parser.md R190, R193: where the bytes at IP decode to a token, DEC's step is
`exec` of that token, after the turn is taken. (That one step takes the whole token is the model's
choice, log entry 1.) -/
def Obligations.StepRunsTheDecodedToken : Prop :=
  ∀ (s : State) (i : Instr) (rest : List Byte),
    s.mover = .dec → s.dec.bank.status = .busy → s.dec.phase = .rt →
    decodeHeader s.dec.unread = .ok (i, rest) →
      step s = exec i { s with turns := s.turns.tail }

/-- 44_host_commands.md R250, R251, 10_state.md R22: a host write of CTRL with bit 0 = 1 runs the
engine's START command, after the turn and the access are taken; with bit 0 = 0 it does nothing. -/
def Obligations.StepRunsTheStartCommand : Prop :=
  ∀ (s : State) (w : Word) (rest : List Input),
    (NextInput s (.regWrite .dec 0 w) rest →
      step s = if w.extractLsb' 0 1 = 1#1 then
          exec (.decStart (w.extractLsb' 1 31)) { s with turns := s.turns.tail, inputs := rest }
        else .next { s with turns := s.turns.tail, inputs := rest }) ∧
    (NextInput s (.regWrite .enc 0 w) rest →
      step s = if w.extractLsb' 0 1 = 1#1 then
          exec (.encStart (w.extractLsb' 1 31)) { s with turns := s.turns.tail, inputs := rest }
        else .next { s with turns := s.turns.tail, inputs := rest })

/-- 42_decoder_token_parser.md R191, R193: where the stream ends inside a header, the step raises
INPUT_OVERRUN, with every byte fetched and OP, IN, IN_LEN and OUT_CAP unchanged. -/
def Obligations.CutHeaderRaisesInputOverrun : Prop :=
  ∀ (s : State) (n : Option Nat),
    s.mover = .dec → s.dec.bank.status = .busy → s.dec.phase = .rt →
    s.dec.ip.toNat ≤ s.dec.bank.inLen.toNat →
    decodeHeader s.dec.unread = .error (.headerCut n) →
      ∃ t, step s = .next t ∧ SameButDec s.popTurn t ∧
        t.dec.bank.status = .fault .inputOverrun ∧ SameArguments s.dec.bank t.dec.bank ∧
        t.dec.ip = s.dec.bank.inLen ∧ t.dec.op = s.dec.op ∧ t.dec.dist = s.dec.dist ∧
        t.dec.phase = .rt

/-- LIT.I and LIT.X (30_encoding.md R94, 42_decoder_token_parser.md R194, 43_decoder_copy_engine.md
R220): where the payload is in the stream and fits the capacity, the token copies it. -/
def Obligations.LiteralTokensCopyTheirPayload : Prop :=
  (∀ (s : State) (v : BitVec 6), v ≠ 0#6 → AtToken s 1 →
    s.dec.ip.toNat + 1 + v.toNat ≤ s.dec.bank.inLen.toNat →
    s.dec.op.toNat + v.toNat ≤ s.dec.bank.outCap.toNat →
      ∃ t, exec (.litI v) s = .next t ∧ SameButDec s t ∧ LiteralDone s.dec t.dec 1 v.toNat) ∧
  ∀ (s : State) (e : Nat), AtToken s (1 + extLen e) →
    s.dec.ip.toNat + (1 + extLen e) + (64 + e) ≤ s.dec.bank.inLen.toNat →
    s.dec.op.toNat + (64 + e) ≤ s.dec.bank.outCap.toNat →
      ∃ t, exec (.litX e) s = .next t ∧ SameButDec s t ∧
        LiteralDone s.dec t.dec (1 + extLen e) (64 + e)

/-- LIT.I and LIT.X (43_decoder_copy_engine.md R220, 60_exceptions.md R274): a payload cut short
raises INPUT_OVERRUN, whatever the capacity; a payload that is whole but does not fit raises
OUTPUT_OVERRUN. -/
def Obligations.LiteralTokensRaiseInOrder : Prop :=
  (∀ (s : State) (v : BitVec 6), v ≠ 0#6 → AtToken s 1 →
    (s.dec.bank.inLen.toNat < s.dec.ip.toNat + 1 + v.toNat →
      ∃ t, exec (.litI v) s = .next t ∧ SameButDec s t ∧
        TokenRaised s.dec t.dec .inputOverrun 1 v.toNat s.dec.dist.toNat .cl) ∧
    (s.dec.ip.toNat + 1 + v.toNat ≤ s.dec.bank.inLen.toNat →
      s.dec.bank.outCap.toNat < s.dec.op.toNat + v.toNat →
      ∃ t, exec (.litI v) s = .next t ∧ SameButDec s t ∧
        TokenRaised s.dec t.dec .outputOverrun 1 v.toNat s.dec.dist.toNat .cl)) ∧
  ∀ (s : State) (e : Nat), AtToken s (1 + extLen e) →
    (s.dec.bank.inLen.toNat < s.dec.ip.toNat + (1 + extLen e) + (64 + e) →
      ∃ t, exec (.litX e) s = .next t ∧ SameButDec s t ∧
        TokenRaised s.dec t.dec .inputOverrun (1 + extLen e) (64 + e) s.dec.dist.toNat .cl) ∧
    (s.dec.ip.toNat + (1 + extLen e) + (64 + e) ≤ s.dec.bank.inLen.toNat →
      s.dec.bank.outCap.toNat < s.dec.op.toNat + (64 + e) →
      ∃ t, exec (.litX e) s = .next t ∧ SameButDec s t ∧
        TokenRaised s.dec t.dec .outputOverrun (1 + extLen e) (64 + e) s.dec.dist.toNat .cl)

/-- MS.I, MS.X, MF.I and MF.X (30_encoding.md R95, R96, 42_decoder_token_parser.md R195, R196,
43_decoder_copy_engine.md R221, R225): where the distance reaches no further than the output and the
length fits, the last `dist` bytes are repeated with period `dist`. -/
def Obligations.MatchTokensRepeatTheOutput : Prop :=
  (∀ (s : State) (v : BitVec 4) (f : BitVec 11), v ≠ 0#4 → AtToken s 2 →
    f.toNat + 1 ≤ s.dec.op.toNat → s.dec.op.toNat + (v.toNat + 2) ≤ s.dec.bank.outCap.toNat →
      ∃ t, exec (.msI v f) s = .next t ∧ SameButDec s t ∧
        MatchDone s.dec t.dec 2 (v.toNat + 2) (f.toNat + 1)) ∧
  (∀ (s : State) (e : Nat) (f : BitVec 11), AtToken s (2 + extLen e) →
    f.toNat + 1 ≤ s.dec.op.toNat → s.dec.op.toNat + (18 + e) ≤ s.dec.bank.outCap.toNat →
      ∃ t, exec (.msX e f) s = .next t ∧ SameButDec s t ∧
        MatchDone s.dec t.dec (2 + extLen e) (18 + e) (f.toNat + 1)) ∧
  (∀ (s : State) (v : BitVec 6) (f : BitVec 16), v ≠ 0#6 → f ≠ 0xFFFF#16 → AtToken s 3 →
    f.toNat + 1 ≤ s.dec.op.toNat → s.dec.op.toNat + (v.toNat + 3) ≤ s.dec.bank.outCap.toNat →
      ∃ t, exec (.mfI v f) s = .next t ∧ SameButDec s t ∧
        MatchDone s.dec t.dec 3 (v.toNat + 3) (f.toNat + 1)) ∧
  ∀ (s : State) (e : Nat) (f : BitVec 16), f ≠ 0xFFFF#16 → AtToken s (3 + extLen e) →
    f.toNat + 1 ≤ s.dec.op.toNat → s.dec.op.toNat + (67 + e) ≤ s.dec.bank.outCap.toNat →
      ∃ t, exec (.mfX e f) s = .next t ∧ SameButDec s t ∧
        MatchDone s.dec t.dec (3 + extLen e) (67 + e) (f.toNat + 1)

/-- MS.I, MS.X, MF.I and MF.X (43_decoder_copy_engine.md R221, 60_exceptions.md R274): a distance that
reaches before the output raises INPUT_OVERRUN, whatever the capacity; a good distance whose length
does not fit raises OUTPUT_OVERRUN. -/
def Obligations.MatchTokensRaiseInOrder : Prop :=
  ∀ (s : State) (i : Instr) (len dist : Nat), i.wf = true → tokenWork i = .backref len dist →
    AtToken s (headerLen i) →
    (s.dec.op.toNat < dist →
      ∃ t, exec i s = .next t ∧ SameButDec s t ∧
        TokenRaised s.dec t.dec .inputOverrun (headerLen i) len dist .cm) ∧
    (dist ≤ s.dec.op.toNat → s.dec.bank.outCap.toNat < s.dec.op.toNat + len →
      ∃ t, exec i s = .next t ∧ SameButDec s t ∧
        TokenRaised s.dec t.dec .outputOverrun (headerLen i) len dist .cm)

/-- END (30_encoding.md R97, 43_decoder_copy_engine.md R222): where its header ends the stream, the
call is DONE with OUT_LEN = OP; where bytes follow, it raises INPUT_NOT_CONSUMED. -/
def Obligations.EndTokenEndsTheCall : Prop :=
  ∀ (s : State) (v : BitVec 6) (e : Nat), (Instr.endTok v e).wf = true →
    AtToken s (headerLen (.endTok v e)) →
    (s.dec.ip.toNat + headerLen (.endTok v e) = s.dec.bank.inLen.toNat →
      ∃ t, exec (.endTok v e) s = .next t ∧ SameButDec s t ∧
        t.dec.bank.status = .done ∧ t.dec.bank.outLen = s.dec.op ∧
        SameArguments s.dec.bank t.dec.bank ∧ t.dec.bank.outMem = s.dec.bank.outMem ∧
        t.dec.bank.draws = s.dec.bank.draws ∧
        t.dec.ip = s.dec.bank.inLen ∧ t.dec.op = s.dec.op ∧ t.dec.phase = .dn ∧
        t.dec.cnt.toNat = endCount v e ∧ t.dec.dist.toNat = 65536) ∧
    (s.dec.ip.toNat + headerLen (.endTok v e) < s.dec.bank.inLen.toNat →
      ∃ t, exec (.endTok v e) s = .next t ∧ SameButDec s t ∧
        TokenRaised s.dec t.dec .inputNotConsumed (headerLen (.endTok v e)) (endCount v e) 65536 .dn)

/-- DEC.START (44_host_commands.md R250, R252): accepted in IDLE, DONE and FAULT, with the whole
effect and nothing else, for every value of the ignored bits. -/
def Obligations.DecStartLaunchesACall : Prop :=
  ∀ (s : State) (x : BitVec 31), s.dec.bank.status ≠ .busy →
    s.dec.bank.premises s.sizes.decIn s.sizes.decOut →
      ∃ t, exec (.decStart x) s = .next t ∧ SameButDec s t ∧
        t.dec.ip = 0 ∧ t.dec.op = 0 ∧ t.dec.phase = .rt ∧
        t.dec.cnt = s.dec.cnt ∧ t.dec.dist = s.dec.dist ∧
        t.dec.bank.outLen = 0 ∧ t.dec.bank.status = .busy ∧
        SameArguments s.dec.bank t.dec.bank ∧ t.dec.bank.outMem = s.dec.bank.outMem ∧
        t.dec.bank.draws = s.dec.bank.draws

/-- ENC.START (44_host_commands.md R251, R252): accepted in IDLE, DONE and FAULT, with the whole
effect and nothing else, for every value of the ignored bits. -/
def Obligations.EncStartLaunchesACall : Prop :=
  ∀ (s : State) (x : BitVec 31), s.enc.bank.status ≠ .busy →
    s.enc.bank.premises s.sizes.encIn s.sizes.encOut →
      ∃ t, exec (.encStart x) s = .next t ∧ SameButEnc s t ∧
        t.enc.i = 0 ∧ t.enc.ls = 0 ∧ t.enc.op = 0 ∧
        (∀ h, t.enc.head.read h = none) ∧ t.enc.prev = s.enc.prev ∧
        t.enc.h = s.enc.h ∧ t.enc.cand = s.enc.cand ∧ t.enc.depth = s.enc.depth ∧
        t.enc.blen = s.enc.blen ∧ t.enc.bdist = s.enc.bdist ∧
        t.enc.bank.outLen = 0 ∧ t.enc.bank.status = .busy ∧
        SameArguments s.enc.bank t.enc.bank ∧ t.enc.bank.outMem = s.enc.bank.outMem ∧
        t.enc.bank.draws = s.enc.bank.draws

/-- 44_host_commands.md R253 and R252: START of a BUSY engine is ignored; START of an engine that is
not BUSY, outside a length premise, is refused. -/
def Obligations.StartIsIgnoredOrRefused : Prop :=
  ∀ (s : State) (x : BitVec 31),
    (s.dec.bank.status = .busy → exec (.decStart x) s = .next s) ∧
    (s.enc.bank.status = .busy → exec (.encStart x) s = .next s) ∧
    (s.dec.bank.status ≠ .busy → ¬ s.dec.bank.premises s.sizes.decIn s.sizes.decOut →
      exec (.decStart x) s = .refused .launchPremise) ∧
    (s.enc.bank.status ≠ .busy → ¬ s.enc.bank.premises s.sizes.encIn s.sizes.encOut →
      exec (.encStart x) s = .refused .launchPremise)

/-! ## The decoder's call -/

/-- 42_decoder_token_parser.md R190 to R196 against the model's one step per token (log entry 1):
DEC's turn between tokens is two turns of the spec's DecStep, the parse and the phase after it; a
parse that raises is followed by nothing. -/
def Obligations.FusedTokenIsTwoPhases : Prop :=
  ∀ s : State, s.mover = .dec → s.dec.bank.status = .busy → s.dec.phase = .rt →
    step s = .next (s.popTurn.withDec s.dec.phaseTurn.phaseTurn)

/-- 42_decoder_token_parser.md R197: ReadToken raises INPUT_OVERRUN or leaves one of the three next
phases. -/
def Obligations.ReadTokenIsTotal : Prop :=
  ∀ d : Dec, d.phase = .rt →
    (∃ d', d.readToken = .error d' ∧ d'.bank.status = .fault .inputOverrun) ∨
    ∃ d', d.readToken = .ok d' ∧ (d'.phase = .cl ∨ d'.phase = .cm ∨ d'.phase = .dn) ∧
      d'.bank = d.bank ∧ d'.op = d.op ∧ d.ip.toNat < d'.ip.toNat ∧
      d'.ip.toNat ≤ d.bank.inLen.toNat

/-- 10_state.md R37, the DEC lines, over the spec's own DecStep. -/
def Obligations.PhaseStepKeepsTheDecoderBounds : Prop :=
  ∀ d : Dec, d.bank.status = .busy → d.callOk → d.decStep.bank.status = .busy → d.decStep.callOk

/-- 43_decoder_copy_engine.md R226, 44_host_commands.md R257, 70_reset_and_hazards.md R306: from
START, at most IN_LEN + 1 turns of DEC end the call, and what the host can observe is
`Decompress(IN[0 .. IN_LEN), OUT_CAP)`. The count is of the model's own turns, one a token (log entry
1); the count of R306, 2 * IN_LEN + 2 phases, is PhaseStepsComputeDecompress. -/
def Obligations.DecCallComputesDecompress : Prop :=
  ∀ s : State, s.dec.started →
    ∃ t, turnsOf .dec (s.dec.bank.inLen.toNat + 1) s = .next t ∧
      t.dec.bank.observation =
        some (decompress s.dec.bank.inputBytes s.dec.bank.outCap.toNat) ∧
      SameArguments s.dec.bank t.dec.bank ∧ t.enc = s.enc

/-- 43_decoder_copy_engine.md R225: the byte-at-a-time copy repeats the last `d` bytes with period `d`,
and writes nothing else. -/
def Obligations.OverlappingCopyRepeatsWithPeriod : Prop :=
  ∀ (m : Memory) (base d len : Nat), 1 ≤ d → d ≤ base →
    (∀ j, j < len → (m.copyBack base d len).read (base + j) = m.read (base - d + j % d)) ∧
    ∀ a, a < base ∨ base + len ≤ a → (m.copyBack base d len).read a = m.read a

/-- 43_decoder_copy_engine.md R226, 42_decoder_token_parser.md R190, 70_reset_and_hazards.md R306: the
iteration of the spec's own DecStep, one phase at a time, ends a call within 2 * IN_LEN + 2 steps, and
what the host can observe is `Decompress(IN[0 .. IN_LEN), OUT_CAP)`. -/
def Obligations.PhaseStepsComputeDecompress : Prop :=
  ∀ d : Dec, d.started →
    (Nat.iterate Dec.phaseTurn (2 * d.bank.inLen.toNat + 2) d).bank.observation =
      some (decompress d.bank.inputBytes d.bank.outCap.toNat)

/-- 30_encoding.md R103: DEC's function succeeds exactly on the well-formed streams whose decoded
length the capacity allows. -/
def Obligations.DecompressSucceedsExactlyOnWellFormedStreams : Prop :=
  ∀ (s out : List Byte) (cap : Nat),
    decompress s cap = .ok out ↔ WellFormedStream s out ∧ out.length ≤ cap

/-- 43_decoder_copy_engine.md R227, laws 3 and 5 for every well-formed stream: a smaller capacity
gives OUTPUT_OVERRUN, bytes after the end marker give INPUT_NOT_CONSUMED. -/
def Obligations.WellFormedStreamFailsAsTheLawsSay : Prop :=
  ∀ s out : List Byte, WellFormedStream s out →
    (∀ k, k < out.length → decompress s k = .err .outputOverrun) ∧
    ∀ x : List Byte, x ≠ [] → decompress (s ++ x) out.length = .err .inputNotConsumed

/-- 43_decoder_copy_engine.md R227, the further laws: a larger capacity keeps a success and keeps any
error but OUTPUT_OVERRUN. -/
def Obligations.LargerCapacityKeepsTheResult : Prop :=
  ∀ (s : List Byte) (cap cap' : Nat), cap ≤ cap' →
    (∀ out, decompress s cap = .ok out → decompress s cap' = .ok out) ∧
    ∀ k, k ≠ .outputOverrun → decompress s cap = .err k → decompress s cap' = .err k

/-! ## The encoder -/

/-- 40_encoder_match_finder.md R131: the hash of the three bytes at a position as a number, and its
three groups of bits. -/
def Obligations.HashKeyFormula : Prop :=
  ∀ (e : Enc) (p : Nat),
    let b0 := e.bank.inMem.read p
    let b1 := e.bank.inMem.read (p + 1)
    let b2 := e.bank.inMem.read (p + 2)
    (e.hash3 p).toNat =
      ((b0.toNat <<< 8) ^^^ (b1.toNat <<< 4) ^^^ b2.toNat) &&& 0xFFF ∧
    (e.hash3 p).extractLsb' 8 4 = b0.extractLsb' 0 4 ^^^ b1.extractLsb' 4 4 ∧
    (e.hash3 p).extractLsb' 4 4 = b1.extractLsb' 0 4 ^^^ b2.extractLsb' 4 4 ∧
    (e.hash3 p).extractLsb' 0 4 = b2.extractLsb' 0 4

/-- 40_encoder_match_finder.md R133: Insert makes the position the head of its chain, links the old
head behind it, and changes nothing else. -/
def Obligations.InsertLinksThePosition : Prop :=
  ∀ (e : Enc) (p : Nat), e.tablesOk →
    (∀ k, (e.insert p).head.read k =
      if k = (e.hash3 p).toNat then some (toWord p) else e.head.read k) ∧
    (∀ k, (e.insert p).prev.read k =
      if k = p % 65536 then e.head.read (e.hash3 p).toNat else e.prev.read k) ∧
    e.insert p = { e with head := (e.insert p).head, prev := (e.insert p).prev }

/-- 40_encoder_match_finder.md R134: MatchLen is the largest agreement before the end of the input. -/
def Obligations.MatchLenIsTheLongestAgreement : Prop :=
  ∀ (e : Enc) (c i : Nat), c < i → i < e.bank.inLen.toNat →
    e.matchLen c i ≤ e.bank.inLen.toNat - i ∧
    (∀ j, j < e.matchLen c i → e.bank.inMem.read (c + j) = e.bank.inMem.read (i + j)) ∧
    (e.matchLen c i < e.bank.inLen.toNat - i →
      e.bank.inMem.read (c + e.matchLen c i) ≠ e.bank.inMem.read (i + e.matchLen c i))

/-- 40_encoder_match_finder.md R136, R137: FindMatch examines the at most 16 nearest positions of the
chain inside the window and leaves the longest valid one, the nearest on ties; it writes scratch
registers only. -/
def Obligations.FindMatchTakesTheLongestThenNearest : Prop :=
  ∀ e : Enc, e.callOk → e.indexOk → 3 ≤ e.bank.inLen.toNat - e.i.toNat →
    let i := e.i.toNat
    let seen := e.candidates 16 (e.head.read (e.hash3 i).toNat)
    let found := e.findMatch
    seen.length ≤ 16 ∧ (∀ c ∈ seen, c < i ∧ i - c ≤ 65535 ∧ e.hash3 c = e.hash3 i) ∧
    (found.blen = 0#32 ↔ ∀ c ∈ seen, validMatch (e.matchLen c i) (i - c) = false) ∧
    (found.blen ≠ 0#32 → ∃ c ∈ seen, validMatch (e.matchLen c i) (i - c) = true ∧
      found.blen.toNat = e.matchLen c i ∧ found.bdist.toNat = i - c ∧
      ∀ c' ∈ seen, validMatch (e.matchLen c' i) (i - c') = true →
        e.matchLen c' i < e.matchLen c i ∨
          (e.matchLen c' i = e.matchLen c i ∧ i - c ≤ i - c')) ∧
    found.bank = e.bank ∧ found.i = e.i ∧ found.ls = e.ls ∧ found.op = e.op ∧
      found.head = e.head ∧ found.prev = e.prev

/-- 41_encoder_token_emission.md R161, R162, R164, R165, R166, R167: each emission of ENC puts out the
encoding of its token in format F1, byte by byte, and does nothing else. -/
def Obligations.EncoderEmitsTheFormatsTokens : Prop :=
  (∀ n, emitExtBytes n = encodeExt n) ∧
  (∀ (e : Enc) (start n : Nat), 1 ≤ n →
    e.emitLit start n = e.outPutAll (AsmToken.lit (e.bank.inMem.readBytes start n)).bytes) ∧
  (∀ (e : Enc) (len dist : Nat), 1 ≤ dist → validMatch len dist = true →
    e.emitMatch len dist = e.outPutAll (asmMatch len dist).bytes ∧
      (asmMatch len dist).legal = true) ∧
  ∀ e : Enc, e.emitEnd = e.outPutAll (headerBytes canonicalEnd)

/-- 41_encoder_token_emission.md R160: OutPut raises OUTPUT_OVERRUN when OP has reached OUT_CAP, and
otherwise writes the one byte at OP and advances OP. -/
def Obligations.OutPutChecksTheCapacity : Prop :=
  ∀ (e : Enc) (v : Byte),
    (e.bank.outCap.toNat ≤ e.op.toNat → ∃ e', e.outPut v = .error e' ∧
      e'.bank.status = .fault .outputOverrun ∧ SameArguments e.bank e'.bank ∧
      e' = { e with bank := e'.bank }) ∧
    (e.op.toNat < e.bank.outCap.toNat → ∃ e', e.outPut v = .ok e' ∧
      e'.op.toNat = e.op.toNat + 1 ∧ SameButOut e.bank e'.bank ∧
      (∀ a, e'.bank.outMem.read a = if a = e.op.toNat then v else e.bank.outMem.read a) ∧
      e' = { e with bank := e'.bank, op := e'.op })

/-- 41_encoder_token_emission.md R163, 30_encoding.md R106: FlushLiterals puts out the pending run as
full tokens of 318 first and the rest last, nothing for an empty run, and leaves LS at its operand. -/
def Obligations.FlushPutsOutFullRunsFirst : Prop :=
  ∀ (e : Enc) (upto : Nat), e.ls.toNat ≤ upto → upto ≤ e.bank.inLen.toNat →
    let run := e.bank.inMem.readBytes e.ls.toNat (upto - e.ls.toNat)
    let bytes := assemble (asmLits run)
    e.op.toNat + bytes.length ≤ e.bank.outCap.toNat →
      ∃ e', e.flushLiterals upto = .ok e' ∧ e'.ls.toNat = upto ∧
        e'.op.toNat = e.op.toNat + bytes.length ∧
        e'.bank.outMem.readBytes e.op.toNat bytes.length = bytes ∧
        (∀ a, a < e.op.toNat ∨ e'.op.toNat ≤ a →
          e'.bank.outMem.read a = e.bank.outMem.read a) ∧
        SameButOut e.bank e'.bank ∧
        e' = { e with bank := e'.bank, ls := e'.ls, op := e'.op }

/-- 40_encoder_match_finder.md R139: a position without a valid match emits nothing and advances I by
1; LS does not move. -/
def Obligations.PositionWithoutMatchAdvancesByOne : Prop :=
  ∀ e : Enc, e.bank.status = .busy → e.i.toNat < e.bank.inLen.toNat → e.search.blen = 0#32 →
    e.turn.i.toNat = e.i.toNat + 1 ∧ e.turn.ls = e.ls ∧ e.turn.op = e.op ∧ e.turn.bank = e.bank

/-- 40_encoder_match_finder.md R130, R140: a position with a valid match advances I by its length and
leaves the pending run empty, unless the emission raises. -/
def Obligations.PositionWithMatchAdvancesByItsLength : Prop :=
  ∀ e : Enc, e.bank.status = .busy → e.callOk → e.i.toNat < e.bank.inLen.toNat →
    e.search.blen ≠ 0#32 →
      e.turn.bank.status = .fault .outputOverrun ∨
      (e.turn.bank.status = .busy ∧ e.turn.i.toNat = e.i.toNat + e.search.blen.toNat ∧
        e.turn.ls = e.turn.i ∧ e.op.toNat + 2 ≤ e.turn.op.toNat ∧
        e.turn.op.toNat ≤ e.bank.outCap.toNat)

/-- 40_encoder_match_finder.md R141: for empty input the stream is the END token alone. -/
def Obligations.EmptyInputGivesTheEndMarker : Prop :=
  ∀ e : Enc, e.started → e.bank.inLen = 0 → 3 ≤ e.bank.outCap.toNat →
    e.turn.bank.status = .done ∧ e.turn.bank.outLen.toNat = 3 ∧
      e.turn.bank.outputBytes 3 = [0x41#8, 0xFF#8, 0xFF#8]

/-- 60_exceptions.md R280: the only fault ENC takes is OUTPUT_OVERRUN; 40_encoder_match_finder.md
R130: a step that does not end the call adds at least 1 to I. -/
def Obligations.EncoderOverrunsOrAdvances : Prop :=
  ∀ e : Enc, e.bank.status = .busy → e.callOk →
    e.turn.bank.status = .done ∨ e.turn.bank.status = .fault .outputOverrun ∨
      (e.turn.bank.status = .busy ∧ e.i.toNat < e.turn.i.toNat ∧ e.turn.callOk)

/-- 10_state.md R31, R32, 40_encoder_match_finder.md R143, R144: while the call runs, HEAD and PREV
are exactly the index of the positions before I, at START and after every step. -/
def Obligations.EncoderIndexStaysExact : Prop :=
  (∀ e : Enc, e.started → e.indexOk) ∧
  ∀ e : Enc, e.bank.status = .busy → e.callOk → e.tablesOk → e.indexOk →
    e.turn.bank.status = .busy → e.turn.indexOk

/-- 10_state.md R37, last line, and 40_encoder_match_finder.md R145: what ENC has put out always
decodes to the input before the pending run, and in DONE the whole output is a well-formed stream
whose decoding is the whole input. -/
def Obligations.EncoderOutputDecodesToItsInput : Prop :=
  (∀ e : Enc, e.started → e.prefixOk) ∧
  ∀ e : Enc, e.bank.status = .busy → e.callOk → e.tablesOk → e.indexOk → e.prefixOk →
    (e.turn.bank.status = .busy → e.turn.prefixOk) ∧
    (e.turn.bank.status = .done →
      WellFormedStream (e.turn.bank.outputBytes e.turn.bank.outLen.toNat) e.bank.inputBytes)

/-- 41_encoder_token_emission.md R168: with OUT_CAP >= EncBound(IN_LEN) no step of ENC raises, and the
output never passes the bound. -/
def Obligations.EncBoundIsNeverExceeded : Prop :=
  ∀ e : Enc, e.bank.status = .busy → e.callOk →
    e.op.toNat ≤ e.ls.toNat + e.ls.toNat / 32 →
    encBound e.bank.inLen.toNat ≤ e.bank.outCap.toNat →
      (e.turn.bank.status = .busy ∧ e.turn.op.toNat ≤ e.turn.ls.toNat + e.turn.ls.toNat / 32) ∨
      (e.turn.bank.status = .done ∧ e.turn.bank.outLen.toNat ≤ encBound e.bank.inLen.toNat)

/-- 40_encoder_match_finder.md R145, 44_host_commands.md R256, 43_decoder_copy_engine.md R227 laws 1
and 2: from START with OUT_CAP >= EncBound(IN_LEN), at most IN_LEN + 1 turns of ENC end the call in
DONE, and DEC's function gives the input back at exactly its length. -/
def Obligations.CompressedInputDecompressesToItself : Prop :=
  ∀ s : State, s.enc.started → s.enc.tablesOk →
    encBound s.enc.bank.inLen.toNat ≤ s.enc.bank.outCap.toNat →
    ∃ t out, turnsOf .enc (s.enc.bank.inLen.toNat + 1) s = .next t ∧
      t.enc.bank.observation = some (.ok out) ∧ SameArguments s.enc.bank t.enc.bank ∧
      t.dec = s.dec ∧
      decompress out s.enc.bank.inLen.toNat = .ok s.enc.bank.inputBytes

/-- 10_state.md R36 for ENC: what the host observes of a compress call depends on IN, IN_LEN and
OUT_CAP alone, not on what PREV, OUT or any other register held before it. -/
def Obligations.EncCallDependsOnItsArgumentsAlone : Prop :=
  ∀ s s' : State, s.enc.started → s'.enc.started → s.enc.tablesOk → s'.enc.tablesOk →
    s'.enc.bank.inLen = s.enc.bank.inLen → s'.enc.bank.outCap = s.enc.bank.outCap →
    s'.enc.bank.inputBytes = s.enc.bank.inputBytes →
    ∃ t t', turnsOf .enc (s.enc.bank.inLen.toNat + 1) s = .next t ∧
      turnsOf .enc (s.enc.bank.inLen.toNat + 1) s' = .next t' ∧
      t.enc.bank.observation ≠ none ∧
      t'.enc.bank.observation = t.enc.bank.observation

/-! ## The host's accesses and reset -/

/-- 10_state.md R23: the values STATUS reads. -/
def Obligations.StatusWordHasSixValues : Prop :=
  ∀ st : Status, st.word =
    match st with
    | .idle => 0x00#32
    | .busy => 0x01#32
    | .done => 0x02#32
    | .fault .outputOverrun => 0x13#32
    | .fault .inputOverrun => 0x23#32
    | .fault .inputNotConsumed => 0x33#32

/-- 10_state.md R21, R22, R23, 44_host_commands.md R255, 70_reset_and_hazards.md R303: reads of
registers. That IN_LEN and OUT_CAP of a BUSY engine are refused is the model's reading, log entry 10. -/
def Obligations.RegisterReads : Prop :=
  ∀ (s : State) (g : Engine) (n : Nat) (rest : List Input), NextInput s (.regRead g n) rest →
    let s' := { s with turns := s.turns.tail, inputs := rest }
    (n = 0 → step s = .next (s'.reply (.word 0))) ∧
    (n = 1 → step s = .next (s'.reply (.word (s.bank g).status.word))) ∧
    (n = 2 → (s.bank g).status ≠ .busy → step s = .next (s'.reply (.word (s.bank g).inLen))) ∧
    (n = 3 → (s.bank g).status ≠ .busy → step s = .next (s'.reply (.word (s.bank g).outCap))) ∧
    (n = 4 → (s.bank g).status ≠ .busy → step s = .next (s'.reply (.word (s.bank g).outLen))) ∧
    (2 ≤ n ∧ n ≤ 4 → (s.bank g).status = .busy → step s = .refused .busyAccess) ∧
    (5 ≤ n → step s = .refused .noSuchRegister)

/-- 10_state.md R21, R22, R24, R25, 44_host_commands.md R255: writes of registers other than CTRL.
That a write of STATUS or OUT_LEN is ignored while BUSY too is the model's reading, log entry 9. -/
def Obligations.RegisterWrites : Prop :=
  ∀ (s : State) (g : Engine) (n : Nat) (v : Word) (rest : List Input),
    NextInput s (.regWrite g n v) rest →
    let s' := { s with turns := s.turns.tail, inputs := rest }
    (n = 1 ∨ n = 4 → step s = .next s') ∧
    (n = 2 → (s.bank g).status ≠ .busy →
      step s = .next (s'.withBank g { s.bank g with inLen := v })) ∧
    (n = 3 → (s.bank g).status ≠ .busy →
      step s = .next (s'.withBank g { s.bank g with outCap := v })) ∧
    (n = 2 ∨ n = 3 → (s.bank g).status = .busy → step s = .refused .busyAccess) ∧
    (5 ≤ n → step s = .refused .noSuchRegister)

/-- 20_memory.md R60, R63, 44_host_commands.md R255, 60_exceptions.md R279, 70_reset_and_hazards.md
R303: the host's accesses to IN and OUT. That an access against the directions of R60 is refused, that
OUT can be read in FAULT too, and that an address no memory has faults, are the model's choices, log
entries 11, 27 and 12. -/
def Obligations.MemoryAccesses : Prop :=
  ∀ (s : State) (g : Engine) (b : Buffer) (a : Nat) (v : Byte) (rest : List Input),
    let s' := { s with turns := s.turns.tail, inputs := rest }
    (NextInput s (.memRead g b a) rest →
      ((s.bank g).status = .busy → step s = .refused .busyAccess) ∧
      ((s.bank g).status ≠ .busy → b = .input ∨ (s.bank g).status = .idle →
        step s = .refused .accessDirection) ∧
      ((s.bank g).status ≠ .busy → (s.bank g).status ≠ .idle → b = .output →
        step s = if a < (s.outMemBytes g).toNat then
            .next (s'.reply (.byte ((s.bank g).outMem.read a)))
          else .fault .hostAddress)) ∧
    (NextInput s (.memWrite g b a v) rest →
      ((s.bank g).status = .busy → step s = .refused .busyAccess) ∧
      ((s.bank g).status ≠ .busy → b = .output → step s = .refused .accessDirection) ∧
      ((s.bank g).status ≠ .busy → b = .input → (s.inMemBytes g).toNat ≤ a →
        step s = .fault .hostAddress) ∧
      ((s.bank g).status ≠ .busy → b = .input → a < (s.inMemBytes g).toNat → ∃ m,
        step s = .next (s'.withBank g { s.bank g with inMem := m }) ∧
        ∀ a', m.read a' = if a' = a then v else (s.bank g).inMem.read a'))

/-- 10_state.md R38, 70_reset_and_hazards.md R300, R301: the reset event, in any state: what it fixes,
and that no byte or entry is one that was written before it. -/
def Obligations.ResetEventClearsBothEngines : Prop :=
  ∀ (s : State) (rest : List Input), NextInput s .reset rest →
    ∃ t, step s = .next t ∧
      (∀ g, (t.bank g).status.word = 0 ∧ (t.bank g).inLen = 0 ∧ (t.bank g).outCap = 0 ∧
        (t.bank g).outLen = 0 ∧
        ∀ a, (t.bank g).inMem.written a = none ∧ (t.bank g).outMem.written a = none) ∧
      t.dec.ip = 0 ∧ t.dec.op = 0 ∧ t.dec.cnt = 0 ∧ t.dec.dist = 0 ∧ t.dec.phase = .rt ∧
      t.enc.i = 0 ∧ t.enc.ls = 0 ∧ t.enc.op = 0 ∧ t.enc.h = 0 ∧ t.enc.depth = 0 ∧
      t.enc.blen = 0 ∧ t.enc.bdist = 0 ∧ t.enc.cand = none ∧
      t.enc.head.cells = [] ∧ t.enc.prev.cells = [] ∧
      t.sizes = s.sizes ∧ t.inputs = rest ∧ t.turns = s.turns.tail ∧ t.replies = s.replies

/-- 10_state.md R38: the machine right after reset. -/
def Obligations.ResetStateHasTheSpecsValues : Prop :=
  (∀ g, (State.reset.bank g).status.word = 0 ∧ (State.reset.bank g).inLen = 0 ∧
    (State.reset.bank g).outCap = 0 ∧ (State.reset.bank g).outLen = 0 ∧
    ∀ a, (State.reset.bank g).inMem.written a = none ∧
      (State.reset.bank g).outMem.written a = none) ∧
  State.reset.dec.ip = 0 ∧ State.reset.dec.op = 0 ∧ State.reset.dec.cnt = 0 ∧
    State.reset.dec.dist = 0 ∧ State.reset.dec.phase = .rt ∧
  State.reset.enc.i = 0 ∧ State.reset.enc.ls = 0 ∧ State.reset.enc.op = 0 ∧
    State.reset.enc.h = 0 ∧ State.reset.enc.depth = 0 ∧ State.reset.enc.blen = 0 ∧
    State.reset.enc.bdist = 0 ∧ State.reset.enc.cand = none

/-! ## The whole machine -/

/-- The invariant of 10_state.md R37, the canonical memories and tables and the addresses of
20_memory.md R65 are kept by every step, from every state that has them. -/
def Obligations.EveryStepKeepsTheInvariant : Prop :=
  ∀ s t : State, s.Inv → step s = .next t → t.Inv

/-- The reset state has the invariant. -/
def Obligations.ResetStateHasTheInvariant : Prop := State.reset.Inv

/-- 60_exceptions.md R270, 00_scope.md R2, 10_state.md R33: a turn of an engine never stops the
machine, changes nothing of the other engine and nothing of the call's arguments. -/
def Obligations.EngineTurnsStayInTheirEngine : Prop :=
  ∀ s : State,
    (s.mover = .dec → ∃ t, step s = .next t ∧ SameButDec s.popTurn t ∧
      SameArguments s.dec.bank t.dec.bank) ∧
    (s.mover = .enc → ∃ t, step s = .next t ∧ SameButEnc s.popTurn t ∧
      SameArguments s.enc.bank t.enc.bank)

/-- 60_exceptions.md R284, 44_host_commands.md R254: a turn of an engine that is not BUSY changes
nothing. -/
def Obligations.EngineThatIsNotBusyDoesNothing : Prop :=
  ∀ s : State,
    (s.mover = .dec → s.dec.bank.status ≠ .busy → step s = .next s.popTurn) ∧
    (s.mover = .enc → s.enc.bank.status ≠ .busy → step s = .next s.popTurn)

/-- 60_exceptions.md R282: two turns, one of each engine, give the same state in either order. -/
def Obligations.EngineTurnsCommute : Prop :=
  ∀ (s : State) (ts : List Agent), ∃ t,
    Sys2Proof.core.run 2 { s with turns := .dec :: .enc :: ts } = .next t ∧
    Sys2Proof.core.run 2 { s with turns := .enc :: .dec :: ts } = .next t

/-- 00_scope.md R2, 44_host_commands.md R253: an access to one engine leaves the other as it was. -/
def Obligations.AccessLeavesTheOtherEngine : Prop :=
  ∀ (s t : State) (x : Input) (rest : List Input), NextInput s x rest → step s = .next t →
    (x.touches .dec = false → t.dec = s.dec) ∧ (x.touches .enc = false → t.enc = s.enc)

/-- 60_exceptions.md R277: FAULT persists, with its error, until the next START to that engine or
reset. -/
def Obligations.FaultPersistsUntilStartOrReset : Prop :=
  ∀ (s t : State) (g : Engine) (k : ErrKind), (s.bank g).status = .fault k → step s = .next t →
    (t.bank g).status ≠ .fault k →
      ∃ x rest, NextInput s x rest ∧
        (x = .reset ∨ ∃ w : Word, x = .regWrite g 0 w ∧ w.extractLsb' 0 1 = 1#1)

/-- 44_host_commands.md R254, 10_state.md R26, 20_memory.md R60: while an engine is not BUSY, in DONE, in
FAULT and before its first call, STATUS, OUT_LEN and OUT hold still until the next START to that engine
or reset. -/
def Obligations.ResultHoldsUntilStartOrReset : Prop :=
  ∀ (s t : State) (g : Engine), (s.bank g).status ≠ .busy → step s = .next t →
    (∃ x rest, NextInput s x rest ∧
      (x = .reset ∨ ∃ w : Word, x = .regWrite g 0 w ∧ w.extractLsb' 0 1 = 1#1)) ∨
    ((t.bank g).status = (s.bank g).status ∧ (t.bank g).outLen = (s.bank g).outLen ∧
      (t.bank g).outMem = (s.bank g).outMem)
end

