-- ==== Sys2Proof/Laws/Memory.lean ====
section
/-! SUPPORT. What the memory and table operations do: read after write, what a write leaves alone, and
that every operation keeps the canonical form. -/

namespace Sys2Proof.Machine

variable {α : Type}

/-! ### Association lists -/

theorem lookup_store (l : List (Nat × α)) (a b : Nat) (v : α) :
    lookup (store l a v) b = if b = a then some v else lookup l b := by
  induction l with
  | nil => simp [store, lookup, eq_comm]
  | cons c rest ih =>
    obtain ⟨k, w⟩ := c
    by_cases h1 : a < k
    · simp [store, lookup, h1, eq_comm]
    · by_cases h2 : a = k
      · subst h2
        by_cases h3 : b = a
        · simp [store, lookup, h3]
        · simp [store, lookup, h3, Ne.symm h3]
      · by_cases h3 : k = b
        · subst h3
          simp [store, lookup, h1, h2, Ne.symm h2]
        · simp [store, lookup, h1, h2, h3, ih]

theorem mem_store {l : List (Nat × α)} {a : Nat} {v : α} {c : Nat × α} (h : c ∈ store l a v) :
    c = (a, v) ∨ c ∈ l := by
  induction l with
  | nil => simpa [store] using h
  | cons x rest ih =>
    obtain ⟨k, w⟩ := x
    unfold store at h
    split at h
    · simpa using h
    · split at h
      · rcases List.mem_cons.1 h with h | h
        · exact .inl h
        · exact .inr (List.mem_cons_of_mem _ h)
      · rcases List.mem_cons.1 h with h | h
        · exact .inr (by simp [h])
        · exact (ih h).imp id (List.mem_cons_of_mem _)

theorem store_rising {l : List (Nat × α)} (a : Nat) (v : α)
    (h : l.Pairwise fun x y => x.1 < y.1) :
    (store l a v).Pairwise fun x y => x.1 < y.1 := by
  induction l with
  | nil => simp [store]
  | cons x rest ih =>
    obtain ⟨k, w⟩ := x
    obtain ⟨hk, hr⟩ := List.pairwise_cons.1 h
    unfold store
    split
    · rename_i hlt
      refine List.pairwise_cons.2 ⟨fun y hy => ?_, h⟩
      rcases List.mem_cons.1 hy with rfl | hy
      · exact hlt
      · exact Nat.lt_trans hlt (hk y hy)
    · split
      · rename_i heq
        subst heq
        exact List.pairwise_cons.2 ⟨hk, hr⟩
      · rename_i hge hne
        refine List.pairwise_cons.2 ⟨fun y hy => ?_, ih hr⟩
        rcases mem_store hy with rfl | hy
        · show k < a
          omega
        · exact hk y hy

theorem mem_unlist {l : List (Nat × α)} {a : Nat} {c : Nat × α} (h : c ∈ unlist l a) : c ∈ l := by
  induction l with
  | nil => simp [unlist] at h
  | cons x rest ih =>
    unfold unlist at h
    split at h
    · exact List.mem_cons_of_mem _ h
    · rcases List.mem_cons.1 h with rfl | h
      · exact List.mem_cons_self
      · exact List.mem_cons_of_mem _ (ih h)

theorem unlist_rising {l : List (Nat × α)} (a : Nat) (h : l.Pairwise fun x y => x.1 < y.1) :
    (unlist l a).Pairwise fun x y => x.1 < y.1 := by
  induction l with
  | nil => simp [unlist]
  | cons x rest ih =>
    obtain ⟨hk, hr⟩ := List.pairwise_cons.1 h
    unfold unlist
    split
    · exact hr
    · exact List.pairwise_cons.2 ⟨fun y hy => hk y (mem_unlist hy), ih hr⟩

theorem lookup_none_of_above {l : List (Nat × α)} {a : Nat} (h : ∀ c ∈ l, a < c.1) :
    lookup l a = none := by
  induction l with
  | nil => rfl
  | cons x rest ih =>
    have hx := h x List.mem_cons_self
    have : ¬ x.1 = a := by omega
    simp [lookup, this, ih fun c hc => h c (List.mem_cons_of_mem _ hc)]

theorem lookup_unlist {l : List (Nat × α)} (a b : Nat) (h : l.Pairwise fun x y => x.1 < y.1) :
    lookup (unlist l a) b = if b = a then none else lookup l b := by
  induction l with
  | nil => simp [unlist, lookup]
  | cons x rest ih =>
    obtain ⟨hk, hr⟩ := List.pairwise_cons.1 h
    by_cases h1 : x.1 = a
    · by_cases h2 : b = a
      · subst h2
        simp [unlist, h1, lookup_none_of_above fun c hc => h1 ▸ hk c hc]
      · have : ¬ x.1 = b := fun h3 => h2 (h3 ▸ h1)
        simp [unlist, h1, h2, lookup, Ne.symm h2]
    · by_cases h3 : x.1 = b
      · have : ¬ b = a := fun h4 => h1 (h3 ▸ h4)
        simp [unlist, lookup, h3, this]
      · simp [unlist, h1, lookup, h3, ih hr]

/-! ### Memories -/

theorem Memory.written_write (m : Memory) (a b : Nat) (v : Byte) :
    (m.write a v).written b = if b = a then some v else m.written b :=
  lookup_store m.cells a b v

@[simp] theorem Memory.write_engine (m : Memory) (a : Nat) (v : Byte) :
    (m.write a v).engine = m.engine := rfl
@[simp] theorem Memory.write_buffer (m : Memory) (a : Nat) (v : Byte) :
    (m.write a v).buffer = m.buffer := rfl
@[simp] theorem Memory.write_draw (m : Memory) (a : Nat) (v : Byte) :
    (m.write a v).draw = m.draw := rfl

/-- Read after write, and a write leaves every other address alone. -/
theorem Memory.read_write (m : Memory) (a b : Nat) (v : Byte) :
    (m.write a v).read b = if b = a then v else m.read b := by
  by_cases h : b = a <;> simp [Memory.read, Memory.written_write, h, Memory.unlisted]

theorem Memory.wf_write {m : Memory} (a : Nat) (v : Byte) (h : m.wf) : (m.write a v).wf :=
  store_rising a v h

theorem Memory.wf_unspecified (g : Engine) (b : Buffer) (k : Nat) : (Memory.unspecified g b k).wf :=
  List.Pairwise.nil

@[simp] theorem Memory.written_unspecified (g : Engine) (b : Buffer) (k a : Nat) :
    (Memory.unspecified g b k).written a = none := rfl

/-- The addresses a write lists. -/
theorem Memory.cells_write_lt {m : Memory} {a n : Nat} {v : Byte} (h : ∀ c ∈ m.cells, c.1 < n)
    (ha : a < n) : ∀ c ∈ (m.write a v).cells, c.1 < n := by
  intro c hc
  rcases mem_store hc with rfl | hc
  · exact ha
  · exact h c hc

@[simp] theorem Memory.readBytes_length (m : Memory) (a n : Nat) : (m.readBytes a n).length = n := by
  induction n generalizing a with
  | zero => rfl
  | succ n ih => simp [Memory.readBytes, ih]

theorem Memory.readBytes_getD (m : Memory) (a n j : Nat) (d : Byte) (h : j < n) :
    (m.readBytes a n).getD j d = m.read (a + j) := by
  induction n generalizing a j with
  | zero => omega
  | succ n ih =>
    cases j with
    | zero => simp [Memory.readBytes]
    | succ j =>
      have := ih (a + 1) j (by omega)
      simp only [Memory.readBytes, List.getD_cons_succ, this]
      congr 1
      omega

theorem Memory.readBytes_append (m : Memory) (a n k : Nat) :
    m.readBytes a (n + k) = m.readBytes a n ++ m.readBytes (a + n) k := by
  induction n generalizing a with
  | zero => simp [Memory.readBytes]
  | succ n ih =>
    rw [show n + 1 + k = (n + k) + 1 by omega]
    simp [Memory.readBytes, ih, show a + 1 + n = a + (n + 1) by omega]

theorem Memory.readBytes_congr {m m' : Memory} {a n : Nat}
    (h : ∀ j, j < n → m.read (a + j) = m'.read (a + j)) : m.readBytes a n = m'.readBytes a n := by
  induction n generalizing a with
  | zero => rfl
  | succ n ih =>
    have h0 := h 0 (by omega)
    have hs := ih (a := a + 1) fun j hj => by
      have := h (j + 1) (by omega)
      rwa [show a + (j + 1) = a + 1 + j by omega] at this
    simp_all [Memory.readBytes]

/-- What a block write leaves at every address. -/
theorem Memory.read_writeBytes (m : Memory) (a b : Nat) (vs : List Byte) :
    (m.writeBytes a vs).read b =
      if a ≤ b ∧ b < a + vs.length then vs.getD (b - a) 0 else m.read b := by
  induction vs generalizing m a with
  | nil =>
    rw [if_neg (by simp only [List.length_nil]; omega)]
    rfl
  | cons v rest ih =>
    simp only [Memory.writeBytes, ih, Memory.read_write, List.length_cons]
    by_cases h0 : b = a
    · subst h0
      rw [if_neg (by omega), if_pos rfl, if_pos (by omega), Nat.sub_self]
      rfl
    · by_cases h1 : a + 1 ≤ b ∧ b < a + 1 + rest.length
      · rw [if_pos h1, if_pos (by omega), show b - a = (b - (a + 1)) + 1 by omega,
          List.getD_cons_succ]
      · rw [if_neg h1, if_neg h0, if_neg (by omega)]

theorem Memory.wf_writeBytes {m : Memory} (a : Nat) (vs : List Byte) (h : m.wf) :
    (m.writeBytes a vs).wf := by
  induction vs generalizing m a with
  | nil => exact h
  | cons v rest ih => exact ih _ (Memory.wf_write a v h)

theorem Memory.writeBytes_draw (m : Memory) (a : Nat) (vs : List Byte) :
    (m.writeBytes a vs).draw = m.draw := by
  induction vs generalizing m a with
  | nil => rfl
  | cons v rest ih => exact ih _ _

theorem Memory.cells_writeBytes_lt {m : Memory} {a n : Nat} {vs : List Byte}
    (h : ∀ c ∈ m.cells, c.1 < n) (ha : a + vs.length ≤ n) :
    ∀ c ∈ (m.writeBytes a vs).cells, c.1 < n := by
  induction vs generalizing m a with
  | nil => exact h
  | cons v rest ih =>
    rw [List.length_cons] at ha
    exact ih (Memory.cells_write_lt h (by omega)) (by omega)

theorem Memory.written_writeBytes (m : Memory) (a b : Nat) (vs : List Byte) :
    ((m.writeBytes a vs).written b).isSome =
      (decide (a ≤ b ∧ b < a + vs.length) || (m.written b).isSome) := by
  induction vs generalizing m a with
  | nil =>
    simp [Memory.writeBytes]
  | cons v rest ih =>
    simp only [Memory.writeBytes, ih, Memory.written_write, List.length_cons]
    by_cases h0 : b = a
    · subst h0
      simp
    · have : (a + 1 ≤ b ∧ b < a + 1 + rest.length) ↔ (a ≤ b ∧ b < a + (rest.length + 1)) := by omega
      rw [decide_eq_decide.2 this, if_neg h0]

/-- A match copy leaves every address outside its destination alone. -/
theorem Memory.copyBack_outside (m : Memory) (a d n b : Nat) (h : b < a ∨ a + n ≤ b) :
    (m.copyBack a d n).read b = m.read b := by
  induction n generalizing m a with
  | zero => rfl
  | succ n ih =>
    rw [Memory.copyBack, ih _ _ (by omega), Memory.read_write, if_neg (by omega)]

/-- Each byte of a match copy is the byte `d` below it in the result: later bytes read what earlier
bytes of the same copy wrote (20_memory.md R67). -/
theorem Memory.copyBack_inside (m : Memory) (a d n b : Nat) (hd : 1 ≤ d) (hb : a ≤ b)
    (hn : b < a + n) : (m.copyBack a d n).read b = (m.copyBack a d n).read (b - d) := by
  induction n generalizing m a with
  | zero => omega
  | succ n ih =>
    rw [Memory.copyBack]
    by_cases h0 : b = a
    · subst h0
      rw [Memory.copyBack_outside _ _ _ _ _ (.inl (by omega)), Memory.read_write, if_pos rfl]
      by_cases h1 : b = 0
      · subst h1
        rw [Memory.copyBack_outside _ _ _ _ _ (.inl (by omega)), Memory.read_write]
        simp
      · rw [Memory.copyBack_outside _ _ _ _ _ (.inl (by omega)), Memory.read_write,
          if_neg (by omega)]
    · exact ih _ _ (by omega) (by omega)

theorem Memory.wf_copyBack {m : Memory} (a d n : Nat) (h : m.wf) : (m.copyBack a d n).wf := by
  induction n generalizing m a with
  | zero => exact h
  | succ n ih => exact ih _ (Memory.wf_write a _ h)

theorem Memory.copyBack_draw (m : Memory) (a d n : Nat) : (m.copyBack a d n).draw = m.draw := by
  induction n generalizing m a with
  | zero => rfl
  | succ n ih => exact ih _ _

theorem Memory.cells_copyBack_lt {m : Memory} {a d n k : Nat} (h : ∀ c ∈ m.cells, c.1 < k)
    (ha : a + n ≤ k) : ∀ c ∈ (m.copyBack a d n).cells, c.1 < k := by
  induction n generalizing m a with
  | zero => exact h
  | succ n ih => exact ih (Memory.cells_write_lt h (by omega)) (by omega)

theorem Memory.written_copyBack (m : Memory) (a d n b : Nat) :
    ((m.copyBack a d n).written b).isSome =
      (decide (a ≤ b ∧ b < a + n) || (m.written b).isSome) := by
  induction n generalizing m a with
  | zero =>
    simp [Memory.copyBack]
  | succ n ih =>
    simp only [Memory.copyBack, ih, Memory.written_write]
    by_cases h0 : b = a
    · subst h0
      simp
    · have : (a + 1 ≤ b ∧ b < a + 1 + n) ↔ (a ≤ b ∧ b < a + (n + 1)) := by omega
      rw [decide_eq_decide.2 this, if_neg h0]

/-! ### Index tables -/

/-- Read after write, and a write leaves every other entry alone. -/
theorem Table.read_write {t : Table} (k j : Nat) (v : Option Word) (h : t.wf) :
    (t.write k v).read j = if j = k then v else t.read j := by
  obtain ⟨which, fill, cells⟩ := t
  by_cases hj : j = k
  · cases fill <;> cases v <;>
      simp [Table.write, Table.read, Table.unlisted, lookup_store, lookup_unlist _ _ h.1, hj]
  · cases fill <;> cases v <;>
      simp [Table.write, Table.read, Table.unlisted, lookup_store, lookup_unlist _ _ h.1, hj]

theorem Table.write_fill (t : Table) (k : Nat) (v : Option Word) : (t.write k v).fill = t.fill := by
  unfold Table.write
  split <;> rfl

theorem Table.wf_write {t : Table} (k : Nat) (v : Option Word) (h : t.wf) : (t.write k v).wf := by
  obtain ⟨which, fill, cells⟩ := t
  obtain ⟨h1, h2⟩ := h
  cases fill with
  | allNil =>
    cases v with
    | none => exact ⟨unlist_rising k h1, fun hf c hc => h2 hf c (mem_unlist hc)⟩
    | some p =>
      refine ⟨store_rising k _ h1, fun hf c hc => ?_⟩
      rcases mem_store hc with rfl | hc
      · simp
      · exact h2 hf c hc
  | unspecified draw => cases v <;> exact ⟨store_rising k _ h1, fun hf => by cases hf⟩

theorem Table.cells_write_lt {t : Table} {k n : Nat} {v : Option Word}
    (h : ∀ c ∈ t.cells, c.1 < n) (hk : k < n) : ∀ c ∈ (t.write k v).cells, c.1 < n := by
  obtain ⟨which, fill, cells⟩ := t
  intro c hc
  cases fill <;> cases v
  · exact h c (mem_unlist hc)
  all_goals
    rcases mem_store hc with rfl | hc
    · exact hk
    · exact h c hc

@[simp] theorem Table.allNil_read (t : IndexTable) (k : Nat) : (Table.allNil t).read k = none := rfl

theorem Table.wf_allNil (t : IndexTable) : (Table.allNil t).wf :=
  ⟨List.Pairwise.nil, fun _ c hc => by cases hc⟩

theorem Table.wf_unspecified (t : IndexTable) (k : Nat) : (Table.unspecified t k).wf :=
  ⟨List.Pairwise.nil, fun _ c hc => by cases hc⟩

/-- The memories and tables of the reset state are in canonical form. -/
theorem State.reset_canonical :
    State.reset.dec.bank.inMem.wf ∧ State.reset.dec.bank.outMem.wf ∧
      State.reset.enc.bank.inMem.wf ∧ State.reset.enc.bank.outMem.wf ∧
      State.reset.enc.head.wf ∧ State.reset.enc.prev.wf :=
  ⟨Memory.wf_unspecified _ _ _, Memory.wf_unspecified _ _ _, Memory.wf_unspecified _ _ _,
    Memory.wf_unspecified _ _ _, Table.wf_unspecified _ _, Table.wf_unspecified _ _⟩

end Sys2Proof.Machine
end

