-- ==== Sys2Proof/Laws/State.lean ====
section
/-! SUPPORT. One lemma per field per update of the state records. -/

namespace Sys2Proof.Machine

@[simp] theorem State.withDec_dec (s : State) (d : Dec) : (s.withDec d).dec = d := rfl
@[simp] theorem State.withDec_enc (s : State) (d : Dec) : (s.withDec d).enc = s.enc := rfl
@[simp] theorem State.withDec_sizes (s : State) (d : Dec) : (s.withDec d).sizes = s.sizes := rfl
@[simp] theorem State.withDec_inputs (s : State) (d : Dec) : (s.withDec d).inputs = s.inputs := rfl
@[simp] theorem State.withDec_turns (s : State) (d : Dec) : (s.withDec d).turns = s.turns := rfl
@[simp] theorem State.withDec_replies (s : State) (d : Dec) :
    (s.withDec d).replies = s.replies := rfl
@[simp] theorem State.withDec_self (s : State) : s.withDec s.dec = s := rfl

@[simp] theorem State.withEnc_dec (s : State) (e : Enc) : (s.withEnc e).dec = s.dec := rfl
@[simp] theorem State.withEnc_enc (s : State) (e : Enc) : (s.withEnc e).enc = e := rfl
@[simp] theorem State.withEnc_sizes (s : State) (e : Enc) : (s.withEnc e).sizes = s.sizes := rfl
@[simp] theorem State.withEnc_inputs (s : State) (e : Enc) : (s.withEnc e).inputs = s.inputs := rfl
@[simp] theorem State.withEnc_turns (s : State) (e : Enc) : (s.withEnc e).turns = s.turns := rfl
@[simp] theorem State.withEnc_replies (s : State) (e : Enc) :
    (s.withEnc e).replies = s.replies := rfl
@[simp] theorem State.withEnc_self (s : State) : s.withEnc s.enc = s := rfl

@[simp] theorem State.popTurn_dec (s : State) : s.popTurn.dec = s.dec := rfl
@[simp] theorem State.popTurn_enc (s : State) : s.popTurn.enc = s.enc := rfl
@[simp] theorem State.popTurn_sizes (s : State) : s.popTurn.sizes = s.sizes := rfl
@[simp] theorem State.popTurn_inputs (s : State) : s.popTurn.inputs = s.inputs := rfl
@[simp] theorem State.popTurn_turns (s : State) : s.popTurn.turns = s.turns.tail := rfl
@[simp] theorem State.popTurn_replies (s : State) : s.popTurn.replies = s.replies := rfl

@[simp] theorem State.popInput_dec (s : State) : s.popInput.dec = s.dec := rfl
@[simp] theorem State.popInput_enc (s : State) : s.popInput.enc = s.enc := rfl
@[simp] theorem State.popInput_sizes (s : State) : s.popInput.sizes = s.sizes := rfl
@[simp] theorem State.popInput_inputs (s : State) : s.popInput.inputs = s.inputs.tail := rfl
@[simp] theorem State.popInput_turns (s : State) : s.popInput.turns = s.turns := rfl
@[simp] theorem State.popInput_replies (s : State) : s.popInput.replies = s.replies := rfl

@[simp] theorem State.reply_dec (s : State) (r : Reply) : (s.reply r).dec = s.dec := rfl
@[simp] theorem State.reply_enc (s : State) (r : Reply) : (s.reply r).enc = s.enc := rfl
@[simp] theorem State.reply_sizes (s : State) (r : Reply) : (s.reply r).sizes = s.sizes := rfl
@[simp] theorem State.reply_inputs (s : State) (r : Reply) : (s.reply r).inputs = s.inputs := rfl
@[simp] theorem State.reply_turns (s : State) (r : Reply) : (s.reply r).turns = s.turns := rfl
@[simp] theorem State.reply_replies (s : State) (r : Reply) :
    (s.reply r).replies = r :: s.replies := rfl

@[simp] theorem State.resetBlock_dec (s : State) :
    s.resetBlock.dec = Dec.afterReset s.dec.bank.draws := rfl
@[simp] theorem State.resetBlock_enc (s : State) :
    s.resetBlock.enc = Enc.afterReset s.enc.bank.draws := rfl
@[simp] theorem State.resetBlock_sizes (s : State) : s.resetBlock.sizes = s.sizes := rfl
@[simp] theorem State.resetBlock_inputs (s : State) : s.resetBlock.inputs = s.inputs := rfl
@[simp] theorem State.resetBlock_turns (s : State) : s.resetBlock.turns = s.turns := rfl
@[simp] theorem State.resetBlock_replies (s : State) : s.resetBlock.replies = s.replies := rfl

@[simp] theorem State.bank_dec (s : State) : s.bank .dec = s.dec.bank := rfl
@[simp] theorem State.bank_enc (s : State) : s.bank .enc = s.enc.bank := rfl
@[simp] theorem State.withBank_dec (s : State) (b : Bank) :
    s.withBank .dec b = s.withDec (s.dec.withBank b) := rfl
@[simp] theorem State.withBank_enc (s : State) (b : Bank) :
    s.withBank .enc b = s.withEnc (s.enc.withBank b) := rfl

@[simp] theorem Dec.withBank_bank (d : Dec) (b : Bank) : (d.withBank b).bank = b := rfl
@[simp] theorem Dec.withBank_ip (d : Dec) (b : Bank) : (d.withBank b).ip = d.ip := rfl
@[simp] theorem Dec.withBank_op (d : Dec) (b : Bank) : (d.withBank b).op = d.op := rfl
@[simp] theorem Dec.withBank_phase (d : Dec) (b : Bank) : (d.withBank b).phase = d.phase := rfl
@[simp] theorem Dec.withBank_cnt (d : Dec) (b : Bank) : (d.withBank b).cnt = d.cnt := rfl
@[simp] theorem Dec.withBank_dist (d : Dec) (b : Bank) : (d.withBank b).dist = d.dist := rfl

@[simp] theorem Enc.withBank_bank (e : Enc) (b : Bank) : (e.withBank b).bank = b := rfl
@[simp] theorem Enc.withBank_i (e : Enc) (b : Bank) : (e.withBank b).i = e.i := rfl
@[simp] theorem Enc.withBank_ls (e : Enc) (b : Bank) : (e.withBank b).ls = e.ls := rfl
@[simp] theorem Enc.withBank_op (e : Enc) (b : Bank) : (e.withBank b).op = e.op := rfl
@[simp] theorem Enc.withBank_h (e : Enc) (b : Bank) : (e.withBank b).h = e.h := rfl
@[simp] theorem Enc.withBank_cand (e : Enc) (b : Bank) : (e.withBank b).cand = e.cand := rfl
@[simp] theorem Enc.withBank_depth (e : Enc) (b : Bank) : (e.withBank b).depth = e.depth := rfl
@[simp] theorem Enc.withBank_blen (e : Enc) (b : Bank) : (e.withBank b).blen = e.blen := rfl
@[simp] theorem Enc.withBank_bdist (e : Enc) (b : Bank) : (e.withBank b).bdist = e.bdist := rfl
@[simp] theorem Enc.withBank_head (e : Enc) (b : Bank) : (e.withBank b).head = e.head := rfl
@[simp] theorem Enc.withBank_prev (e : Enc) (b : Bank) : (e.withBank b).prev = e.prev := rfl

@[simp] theorem Bank.raise_status (g : Engine) (k : ErrKind) (b : Bank) :
    (b.raise g k).status = .fault k := rfl
@[simp] theorem Bank.raise_inLen (g : Engine) (k : ErrKind) (b : Bank) :
    (b.raise g k).inLen = b.inLen := rfl
@[simp] theorem Bank.raise_outCap (g : Engine) (k : ErrKind) (b : Bank) :
    (b.raise g k).outCap = b.outCap := rfl
@[simp] theorem Bank.raise_inMem (g : Engine) (k : ErrKind) (b : Bank) :
    (b.raise g k).inMem = b.inMem := rfl
@[simp] theorem Bank.raise_outMem (g : Engine) (k : ErrKind) (b : Bank) :
    (b.raise g k).outMem = Memory.unspecified g .output b.draws := rfl
@[simp] theorem Bank.raise_draws (g : Engine) (k : ErrKind) (b : Bank) :
    (b.raise g k).draws = b.draws + 1 := rfl

@[simp] theorem Bank.launch_status (b : Bank) : b.launch.status = .busy := rfl
@[simp] theorem Bank.launch_inLen (b : Bank) : b.launch.inLen = b.inLen := rfl
@[simp] theorem Bank.launch_outCap (b : Bank) : b.launch.outCap = b.outCap := rfl
@[simp] theorem Bank.launch_outLen (b : Bank) : b.launch.outLen = 0 := rfl
@[simp] theorem Bank.launch_inMem (b : Bank) : b.launch.inMem = b.inMem := rfl
@[simp] theorem Bank.launch_outMem (b : Bank) : b.launch.outMem = b.outMem := rfl
@[simp] theorem Bank.launch_draws (b : Bank) : b.launch.draws = b.draws := rfl

@[simp] theorem Bank.complete_status (b : Bank) (n : Word) : (b.complete n).status = .done := rfl
@[simp] theorem Bank.complete_inLen (b : Bank) (n : Word) : (b.complete n).inLen = b.inLen := rfl
@[simp] theorem Bank.complete_outCap (b : Bank) (n : Word) :
    (b.complete n).outCap = b.outCap := rfl
@[simp] theorem Bank.complete_outLen (b : Bank) (n : Word) : (b.complete n).outLen = n := rfl
@[simp] theorem Bank.complete_inMem (b : Bank) (n : Word) : (b.complete n).inMem = b.inMem := rfl
@[simp] theorem Bank.complete_outMem (b : Bank) (n : Word) :
    (b.complete n).outMem = b.outMem := rfl
@[simp] theorem Bank.complete_draws (b : Bank) (n : Word) : (b.complete n).draws = b.draws := rfl

@[simp] theorem Dec.raise_bank (k : ErrKind) (d : Dec) :
    (d.raise k).bank = d.bank.raise .dec k := rfl
@[simp] theorem Dec.raise_ip (k : ErrKind) (d : Dec) : (d.raise k).ip = d.ip := rfl
@[simp] theorem Dec.raise_op (k : ErrKind) (d : Dec) : (d.raise k).op = d.op := rfl
@[simp] theorem Dec.raise_phase (k : ErrKind) (d : Dec) : (d.raise k).phase = d.phase := rfl
@[simp] theorem Dec.raise_cnt (k : ErrKind) (d : Dec) : (d.raise k).cnt = d.cnt := rfl
@[simp] theorem Dec.raise_dist (k : ErrKind) (d : Dec) : (d.raise k).dist = d.dist := rfl

@[simp] theorem Enc.raise_bank (k : ErrKind) (e : Enc) :
    (e.raise k).bank = e.bank.raise .enc k := rfl
@[simp] theorem Enc.raise_i (k : ErrKind) (e : Enc) : (e.raise k).i = e.i := rfl
@[simp] theorem Enc.raise_ls (k : ErrKind) (e : Enc) : (e.raise k).ls = e.ls := rfl
@[simp] theorem Enc.raise_op (k : ErrKind) (e : Enc) : (e.raise k).op = e.op := rfl

@[simp] theorem Dec.parsedLit_bank (d : Dec) (k n : Nat) : (d.parsedLit k n).bank = d.bank := rfl
@[simp] theorem Dec.parsedLit_ip (d : Dec) (k n : Nat) :
    (d.parsedLit k n).ip = toWord (d.ip.toNat + k) := rfl
@[simp] theorem Dec.parsedLit_op (d : Dec) (k n : Nat) : (d.parsedLit k n).op = d.op := rfl
@[simp] theorem Dec.parsedLit_phase (d : Dec) (k n : Nat) : (d.parsedLit k n).phase = .cl := rfl
@[simp] theorem Dec.parsedLit_cnt (d : Dec) (k n : Nat) :
    (d.parsedLit k n).cnt = BitVec.ofNat 40 n := rfl
@[simp] theorem Dec.parsedLit_dist (d : Dec) (k n : Nat) : (d.parsedLit k n).dist = d.dist := rfl

@[simp] theorem Dec.parsedMatch_bank (d : Dec) (k n m : Nat) (p : Phase) :
    (d.parsedMatch k n m p).bank = d.bank := rfl
@[simp] theorem Dec.parsedMatch_ip (d : Dec) (k n m : Nat) (p : Phase) :
    (d.parsedMatch k n m p).ip = toWord (d.ip.toNat + k) := rfl
@[simp] theorem Dec.parsedMatch_op (d : Dec) (k n m : Nat) (p : Phase) :
    (d.parsedMatch k n m p).op = d.op := rfl
@[simp] theorem Dec.parsedMatch_phase (d : Dec) (k n m : Nat) (p : Phase) :
    (d.parsedMatch k n m p).phase = p := rfl
@[simp] theorem Dec.parsedMatch_cnt (d : Dec) (k n m : Nat) (p : Phase) :
    (d.parsedMatch k n m p).cnt = BitVec.ofNat 40 n := rfl
@[simp] theorem Dec.parsedMatch_dist (d : Dec) (k n m : Nat) (p : Phase) :
    (d.parsedMatch k n m p).dist = BitVec.ofNat 17 m := rfl

@[simp] theorem Dec.launch_bank (d : Dec) : d.launch.bank = d.bank.launch := rfl
@[simp] theorem Dec.launch_ip (d : Dec) : d.launch.ip = 0 := rfl
@[simp] theorem Dec.launch_op (d : Dec) : d.launch.op = 0 := rfl
@[simp] theorem Dec.launch_phase (d : Dec) : d.launch.phase = .rt := rfl
@[simp] theorem Dec.launch_cnt (d : Dec) : d.launch.cnt = d.cnt := rfl
@[simp] theorem Dec.launch_dist (d : Dec) : d.launch.dist = d.dist := rfl

@[simp] theorem Enc.launch_bank (e : Enc) : e.launch.bank = e.bank.launch := rfl
@[simp] theorem Enc.launch_i (e : Enc) : e.launch.i = 0 := rfl
@[simp] theorem Enc.launch_ls (e : Enc) : e.launch.ls = 0 := rfl
@[simp] theorem Enc.launch_op (e : Enc) : e.launch.op = 0 := rfl
@[simp] theorem Enc.launch_head (e : Enc) : e.launch.head = Table.allNil .head := rfl
@[simp] theorem Enc.launch_prev (e : Enc) : e.launch.prev = e.prev := rfl

end Sys2Proof.Machine
end

