-- ==== Sys2Proof/Laws/Engines.lean ====
section
/-! SUPPORT. Everything each shared operation can do, said once; provers cite these lemmas instead of
unfolding the operations. -/

namespace Sys2Proof.Machine

/-! ### DEC -/

/-- CopyLiteral raises at its first failing test, or copies. -/
theorem Dec.copyLiteral_cases (d : Dec) :
    (d.bank.inLen.toNat - d.ip.toNat < d.cnt.toNat ∧ d.copyLiteral = d.raise .inputOverrun) ∨
    (d.cnt.toNat ≤ d.bank.inLen.toNat - d.ip.toNat ∧
      d.bank.outCap.toNat - d.op.toNat < d.cnt.toNat ∧ d.copyLiteral = d.raise .outputOverrun) ∨
    (d.cnt.toNat ≤ d.bank.inLen.toNat - d.ip.toNat ∧
      d.cnt.toNat ≤ d.bank.outCap.toNat - d.op.toNat ∧
      d.copyLiteral = { d with
        bank := { d.bank with
          outMem := d.bank.outMem.writeBytes d.op.toNat
            (d.bank.inMem.readBytes d.ip.toNat d.cnt.toNat) }
        ip := toWord (d.ip.toNat + d.cnt.toNat)
        op := toWord (d.op.toNat + d.cnt.toNat)
        phase := .rt }) := by
  by_cases h1 : d.bank.inLen.toNat - d.ip.toNat < d.cnt.toNat
  · exact .inl ⟨h1, if_pos h1⟩
  · by_cases h2 : d.bank.outCap.toNat - d.op.toNat < d.cnt.toNat
    · exact .inr (.inl ⟨Nat.not_lt.1 h1, h2, (if_neg h1).trans (if_pos h2)⟩)
    · exact .inr (.inr ⟨Nat.not_lt.1 h1, Nat.not_lt.1 h2, (if_neg h1).trans (if_neg h2)⟩)

/-- CopyMatch raises at its first failing test, or copies. -/
theorem Dec.copyMatch_cases (d : Dec) :
    (d.op.toNat < d.dist.toNat ∧ d.copyMatch = d.raise .inputOverrun) ∨
    (d.dist.toNat ≤ d.op.toNat ∧ d.bank.outCap.toNat - d.op.toNat < d.cnt.toNat ∧
      d.copyMatch = d.raise .outputOverrun) ∨
    (d.dist.toNat ≤ d.op.toNat ∧ d.cnt.toNat ≤ d.bank.outCap.toNat - d.op.toNat ∧
      d.copyMatch = { d with
        bank := { d.bank with
          outMem := d.bank.outMem.copyBack d.op.toNat d.dist.toNat d.cnt.toNat }
        op := toWord (d.op.toNat + d.cnt.toNat)
        phase := .rt }) := by
  by_cases h1 : d.op.toNat < d.dist.toNat
  · exact .inl ⟨h1, if_pos h1⟩
  · by_cases h2 : d.bank.outCap.toNat - d.op.toNat < d.cnt.toNat
    · exact .inr (.inl ⟨Nat.not_lt.1 h1, h2, (if_neg h1).trans (if_pos h2)⟩)
    · exact .inr (.inr ⟨Nat.not_lt.1 h1, Nat.not_lt.1 h2, (if_neg h1).trans (if_neg h2)⟩)

/-- Finish completes the call when the stream is consumed, and raises otherwise. -/
theorem Dec.finish_cases (d : Dec) :
    (d.ip = d.bank.inLen ∧ d.finish = d.withBank (d.bank.complete d.op)) ∨
    (d.ip ≠ d.bank.inLen ∧ d.finish = d.raise .inputNotConsumed) := by
  by_cases h : d.ip = d.bank.inLen
  · exact .inl ⟨h, if_pos h⟩
  · exact .inr ⟨h, if_neg h⟩

/-- A token's effect on a DEC that is BUSY between tokens. -/
theorem State.token_of_busy {s : State} (f : Dec → Dec) (hb : s.dec.bank.status = .busy)
    (hp : s.dec.phase = .rt) : s.token f = s.withDec (f s.dec) := if_pos ⟨hb, hp⟩

/-- A token touches nothing but DEC. -/
theorem State.token_eq (s : State) (f : Dec → Dec) : s.token f = s.withDec (s.token f).dec := by
  unfold State.token
  split <;> rfl

/-- A cut header raises INPUT_OVERRUN; IP stands behind the last byte. -/
theorem Dec.headerCut_eq (d : Dec) (n : Option Nat) :
    ∃ c, d.headerCut n =
      { d with ip := toWord (d.ip.toNat + (d.bank.inLen.toNat - d.ip.toNat)), cnt := c
               bank := d.bank.raise .dec .inputOverrun } ∧
      (n = none → c = d.cnt) ∧ ∀ m, n = some m → c = BitVec.ofNat 40 m := by
  cases n with
  | none => exact ⟨d.cnt, rfl, fun _ => rfl, fun _ h => by cases h⟩
  | some m =>
    refine ⟨BitVec.ofNat 40 m, rfl, ?_, ?_⟩
    · intro h
      cases h
    · intro k h
      cases h
      rfl

/-! ### The host commands -/

/-- START is ignored, launches, or is refused. -/
theorem State.start_cases (s : State) (g : Engine) (launched : State) :
    ((s.bank g).status = .busy ∧ s.start g launched = .next s) ∨
    ((s.bank g).status ≠ .busy ∧ s.launchable g = true ∧ s.start g launched = .next launched) ∨
    ((s.bank g).status ≠ .busy ∧ s.launchable g = false ∧
      s.start g launched = .refused .launchPremise) := by
  unfold State.start
  by_cases h1 : (s.bank g).status = .busy
  · exact .inl ⟨h1, if_pos h1⟩
  · cases h2 : s.launchable g
    · exact .inr (.inr ⟨h1, rfl, by simp [h1]⟩)
    · exact .inr (.inl ⟨h1, rfl, by simp [h1]⟩)

theorem State.launchable_iff (s : State) (g : Engine) :
    s.launchable g = true ↔
      (s.bank g).inLen.toNat ≤ (s.inMemBytes g).toNat ∧
        (s.bank g).outCap.toNat ≤ (s.outMemBytes g).toNat := by
  simp [State.launchable]

/-! ### ENC -/

@[simp] theorem Emission.andThen_ok (e : Enc) (f : Enc → Emission) :
    Emission.andThen (.ok e) f = f e := rfl
@[simp] theorem Emission.andThen_error (e : Enc) (f : Enc → Emission) :
    Emission.andThen (.error e) f = .error e := rfl
@[simp] theorem Emission.engine_ok (e : Enc) : Emission.engine (.ok e) = e := rfl
@[simp] theorem Emission.engine_error (e : Enc) : Emission.engine (.error e) = e := rfl

/-- A sequence that completes has a first part that completes and a second that completes after it. -/
theorem Emission.andThen_eq_ok {r : Emission} {f : Enc → Emission} {e' : Enc}
    (h : r.andThen f = .ok e') : ∃ e, r = .ok e ∧ f e = .ok e' := by
  cases r with
  | ok e => exact ⟨e, rfl, h⟩
  | error e => cases h

/-- OutPut raises when OP has reached OUT_CAP, and otherwise writes one byte. -/
theorem Enc.outPut_cases (e : Enc) (v : Byte) :
    (e.bank.outCap.toNat ≤ e.op.toNat ∧ e.outPut v = .error (e.raise .outputOverrun)) ∨
    (e.op.toNat < e.bank.outCap.toNat ∧ e.outPut v = .ok { e with
      bank := { e.bank with outMem := e.bank.outMem.write e.op.toNat v }
      op := toWord (e.op.toNat + 1) }) := by
  by_cases h : e.bank.outCap.toNat ≤ e.op.toNat
  · exact .inl ⟨h, if_pos h⟩
  · exact .inr ⟨Nat.not_le.1 h, if_neg h⟩

/-- Bytes that fit are all put out, at OP and on. -/
theorem Enc.outPutAll_ok (e : Enc) (vs : List Byte)
    (h : e.op.toNat + vs.length ≤ e.bank.outCap.toNat) :
    e.outPutAll vs = .ok { e with
      bank := { e.bank with outMem := e.bank.outMem.writeBytes e.op.toNat vs }
      op := toWord (e.op.toNat + vs.length) } := by
  induction vs generalizing e with
  | nil => simp [Enc.outPutAll, Memory.writeBytes]
  | cons v rest ih =>
    rw [List.length_cons] at h
    have hlt := e.bank.outCap.isLt
    rcases e.outPut_cases v with ⟨h1, -⟩ | ⟨-, h1⟩
    · omega
    · have hop : (toWord (e.op.toNat + 1)).toNat = e.op.toNat + 1 := by
        rw [BitVec.toNat_ofNat]
        exact Nat.mod_eq_of_lt (by omega)
      have h2 : (toWord (e.op.toNat + 1)).toNat + rest.length ≤ e.bank.outCap.toNat := by omega
      rw [Enc.outPutAll, h1, Emission.andThen_ok, ih _ h2]
      simp only [hop, Memory.writeBytes, List.length_cons]
      simp only [show e.op.toNat + 1 + rest.length = e.op.toNat + (rest.length + 1) by omega]

/-- Bytes that do not fit raise OUTPUT_OVERRUN; IN, IN_LEN and OUT_CAP and the position registers are
as before. -/
theorem Enc.outPutAll_error (e : Enc) (vs : List Byte)
    (h : e.bank.outCap.toNat < e.op.toNat + vs.length) (hop : e.op.toNat ≤ e.bank.outCap.toNat) :
    ∃ e', e.outPutAll vs = .error e' ∧ e'.bank.status = .fault .outputOverrun ∧
      e'.bank.inMem = e.bank.inMem ∧ e'.bank.inLen = e.bank.inLen ∧
      e'.bank.outCap = e.bank.outCap ∧ e' = { e with bank := e'.bank, op := e'.op } := by
  induction vs generalizing e with
  | nil => simp only [List.length_nil] at h; omega
  | cons v rest ih =>
    rw [List.length_cons] at h
    have hlt := e.bank.outCap.isLt
    rcases e.outPut_cases v with ⟨-, h1⟩ | ⟨h0, h1⟩
    · exact ⟨e.raise .outputOverrun, by rw [Enc.outPutAll, h1]; rfl, rfl, rfl, rfl, rfl, rfl⟩
    · have hop' : (toWord (e.op.toNat + 1)).toNat = e.op.toNat + 1 := by
        rw [BitVec.toNat_ofNat]
        exact Nat.mod_eq_of_lt (by omega)
      obtain ⟨e', g1, g2, g3, g4, g5, g6⟩ :=
        ih { e with bank := { e.bank with outMem := e.bank.outMem.write e.op.toNat v }
                    op := toWord (e.op.toNat + 1) }
          (by show e.bank.outCap.toNat < (toWord (e.op.toNat + 1)).toNat + rest.length; omega)
          (by show (toWord (e.op.toNat + 1)).toNat ≤ e.bank.outCap.toNat; omega)
      exact ⟨e', by rw [Enc.outPutAll, h1]; exact g1, g2, g3, g4, g5, g6⟩

/-- EncStep ends the call, passes a position without a match, or takes a match. -/
theorem Enc.encStep_cases (e : Enc) :
    (e.i = e.bank.inLen ∧ e.encStep = e.stepEnd.engine) ∨
    (e.i ≠ e.bank.inLen ∧ e.search.blen = 0#32 ∧ e.encStep = e.search.stepLiteral) ∨
    (e.i ≠ e.bank.inLen ∧ e.search.blen ≠ 0#32 ∧ e.encStep = e.search.stepMatch.engine) := by
  unfold Enc.encStep
  by_cases h1 : e.i = e.bank.inLen
  · exact .inl ⟨h1, if_pos h1⟩
  · by_cases h2 : e.search.blen = 0#32
    · exact .inr (.inl ⟨h1, h2, (if_neg h1).trans (if_pos h2)⟩)
    · exact .inr (.inr ⟨h1, h2, (if_neg h1).trans (if_neg h2)⟩)

/-- Insert leaves all of ENC but the two tables as it was. -/
theorem Enc.insert_eq (e : Enc) (p : Nat) :
    e.insert p = { e with
      prev := e.prev.write (prevSlot p) (e.head.read (e.hash3 p).toNat)
      head := e.head.write (e.hash3 p).toNat (some (toWord p)) } := rfl

/-- The chain walk writes scratch registers only. -/
theorem Enc.walk_frame (fuel : Nat) (e : Enc) :
    (Enc.walk fuel e).bank = e.bank ∧ (Enc.walk fuel e).i = e.i ∧ (Enc.walk fuel e).ls = e.ls ∧
      (Enc.walk fuel e).op = e.op ∧ (Enc.walk fuel e).h = e.h ∧
      (Enc.walk fuel e).head = e.head ∧ (Enc.walk fuel e).prev = e.prev := by
  induction fuel generalizing e with
  | zero => exact ⟨rfl, rfl, rfl, rfl, rfl, rfl, rfl⟩
  | succ n ih =>
    unfold Enc.walk
    split
    · exact ⟨rfl, rfl, rfl, rfl, rfl, rfl, rfl⟩
    · rename_i c _
      split
      · obtain ⟨g1, g2, g3, g4, g5, g6, g7⟩ := ih (e.examine c)
        rw [g1, g2, g3, g4, g5, g6, g7]
        unfold Enc.examine
        dsimp only
        split <;> exact ⟨rfl, rfl, rfl, rfl, rfl, rfl, rfl⟩
      · exact ⟨rfl, rfl, rfl, rfl, rfl, rfl, rfl⟩

/-- An agreement is no longer than its bound. -/
theorem Enc.agree_le (e : Enc) (c i n : Nat) : e.agree c i n ≤ n := by
  induction n generalizing c i with
  | zero => exact Nat.le_refl 0
  | succ n ih =>
    unfold Enc.agree
    split
    · exact Nat.succ_le_succ (ih _ _)
    · exact Nat.zero_le _

/-! ### Steps -/

/-- The step is the mover's turn. -/
theorem step_dec {s : State} (h : s.mover = .dec) :
    step s = match s.popTurn.decTurn with
      | .run i s' => exec i s'
      | .answer o => o := by
  simp only [step, State.nextAction, h] <;> rfl

theorem step_enc {s : State} (h : s.mover = .enc) :
    step s = .next (s.popTurn.withEnc s.enc.turn) := by
  simp [step, State.nextAction, h]

theorem step_outside {s : State} (h : s.mover = .outside) :
    step s = match s.popTurn.outsideTurn with
      | .run i s' => exec i s'
      | .answer o => o := by
  simp only [step, State.nextAction, h] <;> rfl

end Sys2Proof.Machine
end

