-- ==== Sys2Proof/Laws/HostPort.lean ====
section
/-! SUPPORT. Everything a host access can do when it is accepted, said once; provers cite these lemmas
instead of unfolding the accesses. -/

namespace Sys2Proof.Machine

/-- What is accepted only while an engine is not BUSY gives a next state then alone. -/
theorem State.unlessBusy_eq_next {s t : State} {g : Engine}
    {o : Host.Outcome State Fault Refusal} (h : s.unlessBusy g o = .next t) :
    (s.bank g).status ≠ .busy ∧ o = .next t := by
  unfold State.unlessBusy at h
  split at h
  · cases h
  · exact ⟨‹_›, h⟩

/-- What is accepted in a listed direction only gives a next state there alone. -/
theorem directed_eq_next {t : State} {allowed : Bool} {o : Host.Outcome State Fault Refusal}
    (h : directed allowed o = .next t) : allowed = true ∧ o = .next t := by
  unfold directed at h
  split at h
  · exact ⟨‹_›, h⟩
  · cases h

/-- What needs an address that exists gives a next state there alone. -/
theorem State.inMemory_eq_next {s t : State} {g : Engine} {b : Buffer} {a : Nat}
    {o : Host.Outcome State Fault Refusal} (h : s.inMemory g b a o = .next t) :
    a < (s.memBytes g b).toNat ∧ o = .next t := by
  unfold State.inMemory at h
  split at h
  · exact ⟨‹_›, h⟩
  · cases h

/-- The host reads OUT alone, after a call has ended. -/
theorem Status.hostReads_iff (st : Status) (b : Buffer) :
    st.hostReads b = true ↔ b = .output ∧ st ≠ .idle ∧ st ≠ .busy := by
  cases b <;> cases st <;> simp [Status.hostReads]

/-- The host writes IN alone. -/
theorem hostWrites_iff (b : Buffer) : hostWrites b = true ↔ b = .input := by
  cases b <;> simp [hostWrites]

/-- An accepted read of a byte is of OUT, after a call has ended, and adds its reply only. -/
theorem State.memRead_eq_next {s t : State} {g : Engine} {b : Buffer} {a : Nat}
    (h : s.memRead g b a = .next t) :
    b = .output ∧ (s.bank g).status ≠ .idle ∧ (s.bank g).status ≠ .busy ∧
      a < (s.outMemBytes g).toNat ∧ t = s.reply (.byte ((s.bank g).outMem.read a)) := by
  obtain ⟨-, h⟩ := State.unlessBusy_eq_next h
  obtain ⟨hd, h⟩ := directed_eq_next h
  obtain ⟨rfl, h1, h2⟩ := (Status.hostReads_iff _ _).1 hd
  obtain ⟨ha, h⟩ := State.inMemory_eq_next h
  cases h
  exact ⟨rfl, h1, h2, ha, rfl⟩

/-- An accepted write of a byte is of IN, while the engine is not BUSY, and writes that byte only. -/
theorem State.memWrite_eq_next {s t : State} {g : Engine} {b : Buffer} {a : Nat} {v : Byte}
    (h : s.memWrite g b a v = .next t) :
    b = .input ∧ (s.bank g).status ≠ .busy ∧ a < (s.inMemBytes g).toNat ∧
      t = s.withBank g { s.bank g with inMem := (s.bank g).inMem.write a v } := by
  obtain ⟨hb, h⟩ := State.unlessBusy_eq_next h
  obtain ⟨hd, h⟩ := directed_eq_next h
  obtain rfl := (hostWrites_iff _).1 hd
  obtain ⟨ha, h⟩ := State.inMemory_eq_next h
  cases h
  exact ⟨rfl, hb, ha, rfl⟩

/-- An accepted register read adds a reply and changes nothing else. -/
theorem State.regRead_eq_next {s t : State} {g : Engine} {n : Nat} (h : s.regRead g n = .next t) :
    ∃ v, t = s.reply (.word v) := by
  unfold State.regRead at h
  split at h
  · cases h; exact ⟨_, rfl⟩
  · cases h; exact ⟨_, rfl⟩
  · obtain ⟨-, h⟩ := State.unlessBusy_eq_next h; cases h; exact ⟨_, rfl⟩
  · obtain ⟨-, h⟩ := State.unlessBusy_eq_next h; cases h; exact ⟨_, rfl⟩
  · obtain ⟨-, h⟩ := State.unlessBusy_eq_next h; cases h; exact ⟨_, rfl⟩
  · cases h

end Sys2Proof.Machine
end

