-- ==== Sys2Proof/Laws/PerInstr.lean ====
section
/-! SUPPORT. A statement about every instruction: its header has as many bytes as its fields say
(30_encoding.md R99). -/

namespace Sys2Proof

theorem encodeExt_length (e : Nat) : (encodeExt e).length = extLen e := by
  simp [encodeExt, extLen]

/-- The number of header bytes of an instruction is `headerLen` (30_encoding.md R99). -/
def Laws.HeaderLength.Statement (i : Instr) : Prop := (headerBytes i).length = headerLen i

theorem Laws.HeaderLength.litX (e : Nat) : Laws.HeaderLength.Statement (.litX e) := by
  simp [Laws.HeaderLength.Statement, headerBytes, headerLen, encodeExt_length, Nat.add_comm]

theorem Laws.HeaderLength.litI (v : BitVec 6) : Laws.HeaderLength.Statement (.litI v) := rfl

theorem Laws.HeaderLength.endTok (v : BitVec 6) (e : Nat) :
    Laws.HeaderLength.Statement (.endTok v e) := by
  by_cases h : v = 0#6
  · simp [Laws.HeaderLength.Statement, headerBytes, headerLen, encodeExt_length, h]
    omega
  · simp [Laws.HeaderLength.Statement, headerBytes, headerLen, h]

theorem Laws.HeaderLength.mfX (e : Nat) (f : BitVec 16) :
    Laws.HeaderLength.Statement (.mfX e f) := by
  simp [Laws.HeaderLength.Statement, headerBytes, headerLen, encodeExt_length]
  omega

theorem Laws.HeaderLength.mfI (v : BitVec 6) (f : BitVec 16) :
    Laws.HeaderLength.Statement (.mfI v f) := rfl

theorem Laws.HeaderLength.msX (e : Nat) (f : BitVec 11) :
    Laws.HeaderLength.Statement (.msX e f) := by
  simp [Laws.HeaderLength.Statement, headerBytes, headerLen, encodeExt_length]
  omega

theorem Laws.HeaderLength.msI (v : BitVec 4) (f : BitVec 11) :
    Laws.HeaderLength.Statement (.msI v f) := rfl

theorem Laws.HeaderLength.decStart (x : BitVec 31) : Laws.HeaderLength.Statement (.decStart x) := rfl

theorem Laws.HeaderLength.encStart (x : BitVec 31) : Laws.HeaderLength.Statement (.encStart x) := rfl

end Sys2Proof
end

