-- ==== Sys2Proof/Tests/Slice0.lean ====
section
/-! SUPPORT. The model's own tests: well-formedness, decoding of words written out from the spec's
encodings, single steps with results from 95_test_vectors.md or worked by hand from the rules, and a
witness for the hypotheses of every statement that has some. -/

namespace Sys2Proof.Tests

open Sys2Proof Sys2Proof.Machine

/-! ### Well-formedness: each check refuses an ill-formed term (30_encoding.md R92, R96, R98) -/

theorem test_wf_refuses_litI_zero : (Instr.litI 0).wf = false := by decide
theorem test_wf_refuses_msI_zero : (Instr.msI 0 5).wf = false := by decide
theorem test_wf_refuses_mfI_zero : (Instr.mfI 0 5).wf = false := by decide
theorem test_wf_refuses_mfI_end_field : (Instr.mfI 1 0xFFFF).wf = false := by decide
theorem test_wf_refuses_mfX_end_field : (Instr.mfX 0 0xFFFF).wf = false := by decide
theorem test_wf_refuses_end_inline_with_extension : (Instr.endTok 1 1).wf = false := by decide
theorem test_wf_admits : (Instr.litX 0).wf ∧ (Instr.msX 0 0).wf ∧ (Instr.endTok 0 7).wf ∧
    (Instr.decStart 3).wf ∧ (Instr.encStart 3).wf := by decide

/-! ### Decoding: words written out bit by bit (30_encoding.md R94 to R97, examples there) -/

/-- `LIT 3`: 00 000011. -/
theorem test_decode_litI : decodeHeader [0b00000011#8, 0x61#8] = .ok (.litI 3, [0x61#8]) := by decide
/-- `LIT 319`: 00 000000, then e = 255 as FF 00. -/
theorem test_decode_litX : decodeHeader [0b00000000#8, 0xFF#8, 0x00#8] = .ok (.litX 255, []) := by
  decide
/-- `MS 6, 3`: 1 0100 010, dh = 0, f = 2. -/
theorem test_decode_msI : decodeHeader [0b10100010#8, 0x00#8] = .ok (.msI 4 2, []) := by decide
/-- `MS 3, 9`: 1 0001 000, dh = 1, f = 8: the low bits wrap into dh. -/
theorem test_decode_msI_high : decodeHeader [0b10001000#8, 0x01#8] = .ok (.msI 1 8, []) := by decide
/-- `MS 300, 300`: 1 0000 011, e = 282 as FF 1B, dh = 25. -/
theorem test_decode_msX :
    decodeHeader [0b10000011#8, 0xFF#8, 0x1B#8, 0x25#8] = .ok (.msX 282 299, []) := by decide
/-- `MF 66, 3000`: 01 111111, f = 0x0BB7 low byte first. -/
theorem test_decode_mfI :
    decodeHeader [0b01111111#8, 0xB7#8, 0x0B#8] = .ok (.mfI 63 2999, []) := by decide
/-- `MF 100, 3000`: 01 000000, e = 33, f = 0x0BB7. -/
theorem test_decode_mfX :
    decodeHeader [0b01000000#8, 0x21#8, 0xB7#8, 0x0B#8] = .ok (.mfX 33 2999, []) := by decide
/-- Canonical `END`: 41 FF FF. -/
theorem test_decode_end : decodeHeader [0b01000001#8, 0xFF#8, 0xFF#8] = .ok (.endTok 1 0, []) := by
  decide
/-- `END.x 255`: 40 FF 00 FF FF. -/
theorem test_decode_end_extended :
    decodeHeader [0b01000000#8, 0xFF#8, 0x00#8, 0xFF#8, 0xFF#8] = .ok (.endTok 0 255, []) := by decide
/-- `41 FE FF` is a match at distance 65535, not `END`. -/
theorem test_decode_not_end :
    decodeHeader [0x41#8, 0xFE#8, 0xFF#8] = .ok (.mfI 1 0xFFFE, []) := by decide
theorem test_decode_dec_start : decodeCtrl .dec 0x00000001#32 = .ok (.decStart 0) := by decide
theorem test_decode_enc_start : decodeCtrl .enc 0x00000003#32 = .ok (.encStart 1) := by decide
/-- 95_test_vectors.md V-H5: bit 0 is 0. -/
theorem test_decode_no_start : decodeCtrl .dec 0xFFFFFFFE#32 = .error .noStart := by decide
/-- 95_test_vectors.md section 6, header truncations. -/
theorem test_decode_cut : decodeHeader [0x41#8, 0xFF#8] = .error (.headerCut (some 4)) ∧
    decodeHeader [0x00#8, 0xFF#8] = .error (.headerCut none) ∧
    decodeHeader [0x40#8, 0xFF#8, 0xFF#8, 0xFF#8] = .error (.headerCut none) ∧
    decodeHeader [] = .error (.headerCut none) := by decide
theorem test_encode : headerBytes (.msX 282 299) = [0x83#8, 0xFF#8, 0x1B#8, 0x25#8] ∧
    headerBytes (.mfI 17 65534) = [0x51#8, 0xFE#8, 0xFF#8] ∧
    headerBytes canonicalEnd = [0x41#8, 0xFF#8, 0xFF#8] ∧
    headerBytes (.litX 510) = [0x00#8, 0xFF#8, 0xFF#8, 0x00#8] ∧
    encode (.decStart 5) = .ctrl .dec 11 := by decide
theorem test_table_words : decodeTableWord 8 0x00 = some (.litX 0) ∧
    decodeTableWord 8 0x01 = some (.litI 1) ∧ decodeTableWord 24 0xFFFF41 = some (.endTok 1 0) ∧
    decodeTableWord 8 0x40 = some (.mfX 0 0) ∧ decodeTableWord 8 0x41 = some (.mfI 1 0) ∧
    decodeTableWord 8 0x80 = some (.msX 0 0) ∧ decodeTableWord 8 0x88 = some (.msI 1 0) ∧
    decodeTableWord 32 0x00000001 = some (.decStart 0) := by decide

/-! ### Small states -/

/-- Bytes at addresses from `a` on. -/
def cellsFrom : Nat → List Byte → List Host.Cell
  | _, [] => []
  | a, v :: rest => (a, v) :: cellsFrom (a + 1) rest

/-- A memory that holds the bytes. -/
def memoryOf (g : Engine) (b : Buffer) (bytes : List Byte) : Memory :=
  { engine := g, buffer := b, draw := 0, cells := cellsFrom 0 bytes }

/-- A bank of a BUSY engine. -/
def busyBank (g : Engine) (input output : List Byte) (cap : Nat) : Bank :=
  { status := .busy, inLen := toWord input.length, outCap := toWord cap, outLen := 0
    inMem := memoryOf g .input input, outMem := memoryOf g .output output, draws := 1 }

/-- DEC BUSY between tokens at the start of a stream, with some output behind it. -/
def decAt (stream output : List Byte) (cap : Nat) : Dec :=
  { bank := busyBank .dec stream output cap, ip := 0, op := toWord output.length, phase := .rt
    cnt := 0, dist := 0 }

/-- ENC right after START. -/
def encAt (input : List Byte) (cap : Nat) : Enc :=
  { Enc.afterReset 0 with bank := busyBank .enc input [] cap, head := Table.allNil .head }

/-- The machine with this DEC, whose turn it is. -/
def decState (d : Dec) : State := { State.reset with dec := d, turns := [.dec] }

/-- The machine with this ENC, whose turn it is. -/
def encState (e : Enc) : State := { State.reset with enc := e, turns := [.enc] }

/-- The machine after reset with one event pending. -/
def inputState (x : Input) : State := { State.reset with inputs := [x] }

/-- A test on the next state; false where there is none. -/
def nextHas (o : Host.Outcome State Fault Refusal) (p : State → Bool) : Bool :=
  match o with
  | .next s => p s
  | .fault _ => false
  | .refused _ => false

/-- Whether the model refuses for this reason. -/
def refusedFor (o : Host.Outcome State Fault Refusal) (r : Refusal) : Bool :=
  match o with
  | .next _ => false
  | .fault _ => false
  | .refused r' => r' == r

/-! ### Tokens, one step each -/

/-- 43_decoder_copy_engine.md R220, example: IP 4, OP 3 after `03 61 62 63`. -/
theorem test_litI : nextHas (step (decState
    (decAt [0x03#8, 0x61#8, 0x62#8, 0x63#8, 0x41#8, 0xFF#8, 0xFF#8] [] 3))) (fun s =>
    s.dec.ip == 4 && s.dec.op == 3 && s.dec.cnt == 3 &&
      s.dec.bank.outputBytes 3 == [0x61#8, 0x62#8, 0x63#8]) = true := by decide
/-- 95_test_vectors.md V-C8: a payload cut short wins over the capacity. -/
theorem test_litI_cut : nextHas (step (decState (decAt [0x03#8, 0x61#8] [] 0))) (fun s =>
    s.dec.bank.status.word == 0x23) = true := by decide
/-- 95_test_vectors.md V-C26: `00 00` and 64 bytes. -/
theorem test_litX : nextHas (step (decState
    (decAt ([0x00#8, 0x00#8] ++ List.replicate 64 0x7A#8) [] 64))) (fun s =>
    s.dec.ip == 66 && s.dec.op == 64 && s.dec.bank.outMem.read 63 == 0x7A#8) = true := by decide
/-- 95_test_vectors.md V-C17: `MS 7, 3` after "xyz". -/
theorem test_msI : nextHas (step (decState
    (decAt [0xAA#8, 0x00#8] [0x78#8, 0x79#8, 0x7A#8] 10))) (fun s =>
    s.dec.op == 10 && s.dec.ip == 2 && s.dec.bank.outputBytes 10 ==
      [0x78#8, 0x79#8, 0x7A#8, 0x78#8, 0x79#8, 0x7A#8, 0x78#8, 0x79#8, 0x7A#8, 0x78#8]) = true := by
  decide
/-- 95_test_vectors.md V-C11: the distance test comes before the capacity test. -/
theorem test_msI_distance_first : nextHas (step (decState (decAt [0x88#8, 0x00#8] [] 0))) (fun s =>
    s.dec.bank.status.word == 0x23) = true := by decide
/-- `MS 18, 1` = `80 00 00` after "a" (30_encoding.md R95): 18 more bytes 61. -/
theorem test_msX : nextHas (step (decState (decAt [0x80#8, 0x00#8, 0x00#8] [0x61#8] 19))) (fun s =>
    s.dec.op == 19 && s.dec.bank.outputBytes 19 == List.replicate 19 0x61#8) = true := by decide
/-- 95_test_vectors.md V-C18: `41 03 00` after "abcd". -/
theorem test_mfI : nextHas (step (decState
    (decAt [0x41#8, 0x03#8, 0x00#8] [0x61#8, 0x62#8, 0x63#8, 0x64#8] 8))) (fun s =>
    s.dec.bank.outputBytes 8 ==
      [0x61#8, 0x62#8, 0x63#8, 0x64#8, 0x61#8, 0x62#8, 0x63#8, 0x64#8]) = true := by decide
/-- `MF 67, 1` = `40 00 00 00` after "a" (30_encoding.md R96), one byte short of room. -/
theorem test_mfX_overrun : nextHas (step (decState
    (decAt [0x40#8, 0x00#8, 0x00#8, 0x00#8] [0x61#8] 67))) (fun s =>
    s.dec.bank.status.word == 0x13 && s.dec.cnt == 67 && s.dec.dist == 1) = true := by decide
theorem test_mfX : nextHas (step (decState
    (decAt [0x40#8, 0x00#8, 0x00#8, 0x00#8] [0x61#8] 68))) (fun s =>
    s.dec.op == 68 && s.dec.bank.outMem.read 67 == 0x61#8) = true := by decide
/-- 95_test_vectors.md V-C3: `40 05 FF FF` is END. -/
theorem test_end : nextHas (step (decState (decAt [0x40#8, 0x05#8, 0xFF#8, 0xFF#8] [] 0))) (fun s =>
    s.dec.bank.status.word == 0x02 && s.dec.bank.outLen == 0 && s.dec.dist == 65536) = true := by
  decide
/-- 95_test_vectors.md V-C24: a second stream is trailing garbage. -/
theorem test_end_trailing : nextHas (step (decState
    (decAt [0x41#8, 0xFF#8, 0xFF#8, 0x41#8, 0xFF#8, 0xFF#8] [] 0))) (fun s =>
    s.dec.bank.status.word == 0x33) = true := by decide
/-- 95_test_vectors.md section 6: a header cut short. -/
theorem test_header_cut : nextHas (step (decState (decAt [0x80#8, 0xFF#8] [0x61#8] 9))) (fun s =>
    s.dec.bank.status.word == 0x23 && s.dec.ip == 2 && s.dec.cnt == 0) = true := by decide

/-! ### Host commands and accesses -/

/-- 44_host_commands.md R250. -/
theorem test_dec_start : nextHas (step (inputState (.regWrite .dec 0 1))) (fun s =>
    s.dec.bank.status.word == 0x01 && s.enc.bank.status.word == 0x00) = true := by decide
/-- 44_host_commands.md R251. -/
theorem test_enc_start : nextHas (step (inputState (.regWrite .enc 0 1))) (fun s =>
    s.enc.bank.status.word == 0x01 && s.enc.head.read 4095 == none) = true := by decide
/-- 95_test_vectors.md V-H2: DEC launched with nothing written ends in 0x23. -/
theorem test_empty_stream : nextHas (step (decState (Dec.launch (Dec.afterReset 0)))) (fun s =>
    s.dec.bank.status.word == 0x23) = true := by decide
/-- 95_test_vectors.md V-H3: ENC launched with nothing written ends in 0x13. -/
theorem test_no_room : nextHas (step (encState (Enc.launch (Enc.afterReset 0)))) (fun s =>
    s.enc.bank.status.word == 0x13) = true := by decide
/-- 95_test_vectors.md V-H6: a write of OUT_LEN is ignored. -/
theorem test_outLen_write_ignored : nextHas (step (inputState (.regWrite .dec 4 7))) (fun s =>
    s.dec.bank.outLen == 0) = true := by decide
/-- 95_test_vectors.md V-H7: a write of IN_LEN of a BUSY engine is refused. -/
theorem test_busy_write_refused : refusedFor (step
    { decState (decAt [] [] 0) with turns := [.outside], inputs := [.regWrite .dec 2 1] })
    .busyAccess = true := by decide
/-- 20_memory.md R60: the host has no path to write OUT, and reads OUT after DONE. -/
theorem test_directions :
    refusedFor (step (inputState (.memWrite .dec .output 0 7))) .accessDirection = true ∧
    refusedFor (step (inputState (.memRead .dec .input 0))) .accessDirection = true ∧
    refusedFor (step (inputState (.memRead .dec .output 0))) .accessDirection = true ∧
    nextHas (step (inputState (.memWrite .dec .input 0 7)))
      (fun s => s.dec.bank.inMem.read 0 == 7#8) = true := by decide
/-- 44_host_commands.md R257: OUT read back after DONE. -/
theorem test_read_result : nextHas (step
    { inputState (.memRead .dec .output 0) with
      dec := (decAt [] [0x61#8] 1).withBank ((decAt [] [0x61#8] 1).bank.complete 1) })
    (fun s => s.replies == [.byte 0x61#8]) = true := by decide
/-- 10_state.md R21: register number 5 does not exist. -/
theorem test_no_register_five : refusedFor (step (inputState (.regRead .enc 5))) .noSuchRegister =
    true := by decide
/-- 10_state.md R23: STATUS 0x33 is FAULT with INPUT_NOT_CONSUMED. -/
theorem test_status_word : (Status.fault .inputNotConsumed).word = 0x33#32 := by decide

/-! ### ENC -/

/-- 95_test_vectors.md 4.1. -/
theorem test_hash : hashKey 0x61#8 0x62#8 0x63#8 = 0x743#12 ∧
    hashKey 0x38#8 0x61#8 0x62#8 = 0xE72#12 ∧ hashKey 0xFF#8 0xFF#8 0xFF#8 = 0x00F#12 := by decide
/-- 95_test_vectors.md 4.2. -/
theorem test_valid : validMatch 3 2048 = true ∧ validMatch 3 2049 = false ∧
    validMatch 4 65535 = true ∧ validMatch 4 65536 = false ∧ validMatch 2 1 = false := by decide
/-- 41_encoder_token_emission.md R165, R166, examples. -/
theorem test_emit : emitMatchBytes 300 300 = [0x83#8, 0xFF#8, 0x1B#8, 0x25#8] ∧
    emitMatchBytes 20 65535 = [0x51#8, 0xFE#8, 0xFF#8] ∧ emitExtBytes 255 = [0xFF#8, 0x00#8] ∧
    emitLitHeader 318 = [0x00#8, 0xFE#8] ∧ emitMatchBytes 5 72 = [0x9F#8, 0x08#8] := by decide
/-- "aaaa" at I = 1, where position 0 is indexed (95_test_vectors.md P5, V-E5): the step puts out
`01 61 88 00` and covers the rest. -/
theorem test_enc_match : ((encAt [0x61#8, 0x61#8, 0x61#8, 0x61#8] 8).turn.turn.bank.outputBytes 4 ==
      [0x01#8, 0x61#8, 0x88#8, 0x00#8] &&
    (encAt [0x61#8, 0x61#8, 0x61#8, 0x61#8] 8).turn.turn.ls == 4) = true := by decide
/-- 95_test_vectors.md V-E1: empty input. -/
theorem test_enc_empty : ((encAt [] 3).turn.bank.status.word == 0x02 &&
    (encAt [] 3).turn.bank.outputBytes 3 == [0x41#8, 0xFF#8, 0xFF#8]) = true := by decide
/-- 95_test_vectors.md L1-1: the stream of "abcabcabc". -/
theorem test_decompress : decompress
    [0x03#8, 0x61#8, 0x62#8, 0x63#8, 0xA2#8, 0x00#8, 0x41#8, 0xFF#8, 0xFF#8] 9 =
    .ok [0x61#8, 0x62#8, 0x63#8, 0x61#8, 0x62#8, 0x63#8, 0x61#8, 0x62#8, 0x63#8] := by decide

/-! ### The row's two interface functions -/

theorem test_withFetchWord_token : nextHas (step (State.reset.withFetchWord 8 0x05)) (fun s =>
    s.dec.cnt == 5 && s.dec.bank.inLen == 6 && s.dec.bank.status.word == 0x13) = true := by decide
theorem test_withFetchWord_command : nextHas (step (State.reset.withFetchWord 32 1)) (fun s =>
    s.dec.bank.status.word == 0x01) = true := by decide

/-! ### Witnesses: states and operands that meet the hypotheses of each statement, at the boundary of
each clause -/

theorem witness_EncodedInstructionDecodesBack : (Instr.endTok 0 7).wf = true ∧
    encode (.endTok 0 7) = .stream [0x40#8, 0x07#8, 0xFF#8, 0xFF#8] := by decide
theorem witness_DecodedHeaderIsItsEncoding :
    decodeHeader [0x7F#8, 0xFF#8, 0xFF#8, 0x00#8] = .ok (.endTok 63 0, [0x00#8]) := by decide
theorem witness_ExtensionCodingIsOneToOne : (0xFE#8 ≠ 0xFF#8) ∧
    decodeExt [0xFF#8, 0xFE#8] = some (509, []) := by decide
/-- Both ends of every row of the control-byte map. -/
theorem witness_ControlByteMapHasNoGap : (0x00#8).toNat = 0x00 ∧
    (0x01 ≤ (0x01#8).toNat ∧ (0x3F#8).toNat ≤ 0x3F) ∧ (0x40#8).toNat = 0x40 ∧
    (0x41 ≤ (0x41#8).toNat ∧ (0x7F#8).toNat ≤ 0x7F) ∧
    (0x80 ≤ (0x80#8).toNat ∧ (0x87#8).toNat ≤ 0x87) ∧ 0x88 ≤ (0x88#8).toNat ∧
    0x88 ≤ (0xFF#8).toNat := by decide

/-- DEC at `03 61 62 63`. -/
def litState : State := decState (decAt [0x03#8, 0x61#8, 0x62#8, 0x63#8] [] 3)

theorem witness_StepRunsTheDecodedToken : litState.mover = .dec ∧
    litState.dec.bank.status = .busy ∧ litState.dec.phase = .rt ∧
    decodeHeader litState.dec.unread = .ok (.litI 3, [0x61#8, 0x62#8, 0x63#8]) := by decide
/-- Both engines, a word that starts and one that does not. -/
theorem witness_StepRunsTheStartCommand :
    NextInput (inputState (.regWrite .dec 0 1)) (.regWrite .dec 0 1) [] ∧
    NextInput (inputState (.regWrite .dec 0 2)) (.regWrite .dec 0 2) [] ∧
    NextInput (inputState (.regWrite .enc 0 1)) (.regWrite .enc 0 1) [] ∧
    NextInput (inputState (.regWrite .enc 0 2)) (.regWrite .enc 0 2) [] :=
  ⟨⟨rfl, rfl⟩, ⟨rfl, rfl⟩, ⟨rfl, rfl⟩, ⟨rfl, rfl⟩⟩

/-- DEC at `41 FF`. -/
def cutState : State := decState (decAt [0x41#8, 0xFF#8] [] 3)

theorem witness_CutHeaderRaisesInputOverrun : cutState.mover = .dec ∧
    cutState.dec.bank.status = .busy ∧ cutState.dec.phase = .rt ∧
    cutState.dec.ip.toNat ≤ cutState.dec.bank.inLen.toNat ∧
    decodeHeader cutState.dec.unread = .error (.headerCut (some 4)) := by decide

/-- DEC at `00 00` and 64 bytes, with room for exactly 64. -/
def longState : State := decState (decAt ([0x00#8, 0x00#8] ++ List.replicate 64 0x7A#8) [] 64)

/-- The payload ends the stream and fills the capacity, in both forms. -/
theorem witness_LiteralTokensCopyTheirPayload :
    ((3#6 ≠ 0#6) ∧ AtToken litState 1 ∧
      litState.dec.ip.toNat + 1 + (3#6).toNat ≤ litState.dec.bank.inLen.toNat ∧
      litState.dec.op.toNat + (3#6).toNat ≤ litState.dec.bank.outCap.toNat) ∧
    AtToken longState (1 + extLen 0) ∧
      longState.dec.ip.toNat + (1 + extLen 0) + (64 + 0) ≤ longState.dec.bank.inLen.toNat ∧
      longState.dec.op.toNat + (64 + 0) ≤ longState.dec.bank.outCap.toNat :=
  ⟨⟨by decide, ⟨rfl, rfl, by decide⟩, by decide, by decide⟩, ⟨rfl, rfl, by decide⟩, by decide,
    by decide⟩
/-- One byte too few in the stream, and one byte too few in the capacity, in both forms. -/
theorem witness_LiteralTokensRaiseInOrder :
    (AtToken litState 1 ∧
      litState.dec.bank.inLen.toNat < litState.dec.ip.toNat + 1 + (4#6).toNat) ∧
    (AtToken (decState (decAt [0x02#8, 0x61#8, 0x62#8] [] 1)) 1 ∧
      (toWord 1).toNat < 0 + (2#6).toNat) ∧
    (AtToken longState (1 + extLen 1) ∧ longState.dec.bank.inLen.toNat <
      longState.dec.ip.toNat + (1 + extLen 1) + (64 + 1)) ∧
    AtToken (decState (decAt ([0x00#8, 0x00#8] ++ List.replicate 64 0x7A#8) [] 63))
      (1 + extLen 0) ∧ (toWord 63).toNat < 0 + (64 + 0) :=
  ⟨⟨⟨rfl, rfl, by decide⟩, by decide⟩, ⟨⟨rfl, rfl, by decide⟩, by decide⟩,
    ⟨⟨rfl, rfl, by decide⟩, by decide⟩, ⟨rfl, rfl, by decide⟩, by decide⟩

/-- DEC with one byte of output at a stream of four bytes. -/
def matchState (cap : Nat) : State :=
  decState (decAt [0x88#8, 0x00#8, 0x00#8, 0x00#8] [0x61#8] cap)

/-- `dist = OP` and `OP + len = OUT_CAP`, in the four forms. -/
theorem witness_MatchTokensRepeatTheOutput :
    (AtToken (matchState 4) 2 ∧ (0#11).toNat + 1 ≤ (matchState 4).dec.op.toNat ∧
      (matchState 4).dec.op.toNat + ((1#4).toNat + 2) ≤ (matchState 4).dec.bank.outCap.toNat) ∧
    (AtToken (matchState 19) (2 + extLen 0) ∧ (0#11).toNat + 1 ≤ (matchState 19).dec.op.toNat ∧
      (matchState 19).dec.op.toNat + (18 + 0) ≤ (matchState 19).dec.bank.outCap.toNat) ∧
    (AtToken (matchState 5) 3 ∧ (0#16).toNat + 1 ≤ (matchState 5).dec.op.toNat ∧
      (0#16 ≠ 0xFFFF#16) ∧
      (matchState 5).dec.op.toNat + ((1#6).toNat + 3) ≤ (matchState 5).dec.bank.outCap.toNat) ∧
    AtToken (matchState 68) (3 + extLen 0) ∧ (0#16).toNat + 1 ≤ (matchState 68).dec.op.toNat ∧
      (matchState 68).dec.op.toNat + (67 + 0) ≤ (matchState 68).dec.bank.outCap.toNat :=
  ⟨⟨⟨rfl, rfl, by decide⟩, by decide, by decide⟩, ⟨⟨rfl, rfl, by decide⟩, by decide, by decide⟩,
    ⟨⟨rfl, rfl, by decide⟩, by decide, by decide, by decide⟩, ⟨rfl, rfl, by decide⟩, by decide,
    by decide⟩
/-- `dist = OP + 1`, and `OP + len = OUT_CAP + 1`. -/
theorem witness_MatchTokensRaiseInOrder :
    ((Instr.msI 1 1).wf = true ∧ tokenWork (.msI 1 1) = .backref 3 2 ∧
      AtToken (matchState 9) (headerLen (.msI 1 1)) ∧ (matchState 9).dec.op.toNat < 2) ∧
    (Instr.mfX 0 0).wf = true ∧ tokenWork (.mfX 0 0) = .backref 67 1 ∧
      AtToken (matchState 67) (headerLen (.mfX 0 0)) ∧ 1 ≤ (matchState 67).dec.op.toNat ∧
      (matchState 67).dec.bank.outCap.toNat < (matchState 67).dec.op.toNat + 67 :=
  ⟨⟨by decide, by decide, ⟨rfl, rfl, by decide⟩, by decide⟩, by decide, by decide,
    ⟨rfl, rfl, by decide⟩, by decide, by decide⟩

/-- DEC at an end marker and `x`. -/
def endState (x : List Byte) : State := decState (decAt ([0x41#8, 0xFF#8, 0xFF#8] ++ x) [] 0)

/-- Nothing behind the end marker, and one byte behind it. -/
theorem witness_EndTokenEndsTheCall : (Instr.endTok 1 0).wf = true ∧
    (AtToken (endState []) (headerLen (.endTok 1 0)) ∧ (endState []).dec.ip.toNat +
      headerLen (.endTok 1 0) = (endState []).dec.bank.inLen.toNat) ∧
    AtToken (endState [0#8]) (headerLen (.endTok 1 0)) ∧ (endState [0#8]).dec.ip.toNat +
      headerLen (.endTok 1 0) < (endState [0#8]).dec.bank.inLen.toNat :=
  ⟨by decide, ⟨⟨rfl, rfl, by decide⟩, by decide⟩, ⟨rfl, rfl, by decide⟩, by decide⟩

/-- The reset state; IN_LEN and OUT_CAP at the sizes' upper bound. -/
theorem witness_DecStartLaunchesACall : State.reset.dec.bank.status ≠ .busy ∧
    State.reset.dec.bank.premises State.reset.sizes.decIn State.reset.sizes.decOut ∧
    ({ State.reset.dec.bank with inLen := 0xFFFFFFFF, outCap := 0xFFFFFFFF } : Bank).premises
      State.reset.sizes.decIn State.reset.sizes.decOut := by decide
theorem witness_EncStartLaunchesACall : State.reset.enc.bank.status ≠ .busy ∧
    State.reset.enc.bank.premises State.reset.sizes.encIn State.reset.sizes.encOut := by decide

/-- A machine with memories of 2 bytes and IN_LEN = 3 in both engines. -/
def smallState : State :=
  { State.reset with
    sizes := { decIn := 2, decOut := 2, encIn := 2, encOut := 2 }
    dec := (Dec.afterReset 0).withBank { Bank.afterReset .dec 0 with inLen := 3 }
    enc := (Enc.afterReset 0).withBank { Bank.afterReset .enc 0 with inLen := 3 } }

theorem witness_StartIsIgnoredOrRefused :
    (decState (decAt [] [] 0)).dec.bank.status = .busy ∧
    (encState (encAt [] 0)).enc.bank.status = .busy ∧
    (smallState.dec.bank.status ≠ .busy ∧
      ¬ smallState.dec.bank.premises smallState.sizes.decIn smallState.sizes.decOut) ∧
    smallState.enc.bank.status ≠ .busy ∧
      ¬ smallState.enc.bank.premises smallState.sizes.encIn smallState.sizes.encOut := by decide

theorem witness_FusedTokenIsTwoPhases : litState.mover = .dec ∧
    litState.dec.bank.status = .busy ∧ litState.dec.phase = .rt := by decide
theorem witness_ReadTokenIsTotal : litState.dec.phase = .rt ∧ cutState.dec.phase = .rt := by decide
/-- DEC in phase CM with the largest distance, whose step stays BUSY. -/
theorem witness_PhaseStepKeepsTheDecoderBounds : litState.dec.bank.status = .busy ∧
    litState.dec.callOk ∧ litState.dec.decStep.bank.status = .busy ∧
    litState.dec.decStep.callOk ∧ litState.dec.decStep.decStep.bank.status = .busy := by decide
theorem witness_DecCallComputesDecompress : litState.dec.started := ⟨rfl, rfl, rfl, rfl⟩
/-- `d = base` and `d < len`. -/
theorem witness_OverlappingCopyRepeatsWithPeriod : 1 ≤ 1 ∧ 1 ≤ 1 ∧ 1 < 3 ∧
    ((memoryOf .dec .output [0x61#8]).copyBack 1 1 3).readBytes 0 4 =
      [0x61#8, 0x61#8, 0x61#8, 0x61#8] := by decide
theorem witness_PhaseStepsComputeDecompress : litState.dec.started := ⟨rfl, rfl, rfl, rfl⟩
theorem witness_WellFormedStreamFailsAsTheLawsSay :
    WellFormedStream [0x01#8, 0x61#8, 0x41#8, 0xFF#8, 0xFF#8] [0x61#8] ∧ 0 < [0x61#8].length ∧
      [0x00#8] ≠ [] :=
  ⟨⟨[.lit [0x61#8]], .endV 1, by decide, by decide, by decide⟩, by decide, by decide⟩
/-- A success and an error other than OUTPUT_OVERRUN, at capacities 0 and 1. -/
theorem witness_LargerCapacityKeepsTheResult : 0 ≤ 1 ∧
    decompress [0x41#8, 0xFF#8, 0xFF#8] 0 = .ok [] ∧
    decompress [0x41#8] 0 = .err .inputOverrun ∧ ErrKind.inputOverrun ≠ .outputOverrun := by decide

/-- ENC right after START on "aaaa". -/
def encFour : Enc := encAt [0x61#8, 0x61#8, 0x61#8, 0x61#8] 8

theorem encFour_started : encFour.started := ⟨rfl, rfl, rfl, rfl, rfl⟩
theorem encFour_indexOk : encFour.indexOk :=
  ⟨fun _ => rfl, fun p h => absurd h (Nat.not_lt_zero p)⟩
theorem encFour_prefixOk : encFour.prefixOk := ⟨[], rfl, rfl⟩

theorem witness_InsertLinksThePosition : encFour.tablesOk := by decide
theorem witness_MatchLenIsTheLongestAgreement : 0 < 1 ∧ 1 < encFour.bank.inLen.toNat := by decide
/-- Four bytes are left at I = 0 and exactly three at I = 1. -/
theorem witness_FindMatchTakesTheLongestThenNearest : encFour.callOk ∧ encFour.indexOk ∧
    3 ≤ encFour.bank.inLen.toNat - encFour.i.toNat ∧ encFour.turn.callOk ∧
    3 ≤ encFour.turn.bank.inLen.toNat - encFour.turn.i.toNat :=
  ⟨by decide, encFour_indexOk, by decide, by decide, by decide⟩
theorem witness_EncoderEmitsTheFormatsTokens : 1 ≤ 1 ∧
    (1 ≤ 2048 ∧ validMatch 3 2048 = true) ∧ 1 ≤ 65535 ∧ validMatch 4 65535 = true := by decide
/-- OP at the capacity, and one below it. -/
theorem witness_OutPutChecksTheCapacity :
    (encAt [] 0).bank.outCap.toNat ≤ (encAt [] 0).op.toNat ∧
    (encAt [] 1).op.toNat < (encAt [] 1).bank.outCap.toNat := by decide
/-- An empty run, and the whole input with room for exactly its token. -/
theorem witness_FlushPutsOutFullRunsFirst :
    (encFour.ls.toNat ≤ 0 ∧ 0 ≤ encFour.bank.inLen.toNat) ∧
    (encAt [0x61#8] 2).ls.toNat ≤ 1 ∧ 1 ≤ (encAt [0x61#8] 2).bank.inLen.toNat ∧
    (encAt [0x61#8] 2).op.toNat + (assemble (asmLits ((encAt [0x61#8] 2).bank.inMem.readBytes
      (encAt [0x61#8] 2).ls.toNat (1 - (encAt [0x61#8] 2).ls.toNat)))).length ≤
        (encAt [0x61#8] 2).bank.outCap.toNat := by decide
theorem witness_PositionWithoutMatchAdvancesByOne : encFour.bank.status = .busy ∧
    encFour.i.toNat < encFour.bank.inLen.toNat ∧ encFour.search.blen = 0#32 := by decide
theorem witness_PositionWithMatchAdvancesByItsLength : encFour.turn.bank.status = .busy ∧
    encFour.turn.callOk ∧ encFour.turn.i.toNat < encFour.turn.bank.inLen.toNat ∧
    encFour.turn.search.blen ≠ 0#32 := by decide
theorem witness_EmptyInputGivesTheEndMarker : (encAt [] 3).started ∧
    (encAt [] 3).bank.inLen = 0 ∧ 3 ≤ (encAt [] 3).bank.outCap.toNat :=
  ⟨⟨rfl, rfl, rfl, rfl, rfl⟩, rfl, by decide⟩
theorem witness_EncoderOverrunsOrAdvances : encFour.bank.status = .busy ∧ encFour.callOk := by decide
theorem witness_EncoderIndexStaysExact : encFour.started ∧ encFour.bank.status = .busy ∧
    encFour.callOk ∧ encFour.tablesOk ∧ encFour.indexOk ∧ encFour.turn.bank.status = .busy :=
  ⟨encFour_started, rfl, by decide, by decide, encFour_indexOk, by decide⟩
theorem witness_EncoderOutputDecodesToItsInput : encFour.bank.status = .busy ∧ encFour.callOk ∧
    encFour.tablesOk ∧ encFour.indexOk ∧ encFour.prefixOk ∧ encFour.turn.bank.status = .busy :=
  ⟨rfl, by decide, by decide, encFour_indexOk, encFour_prefixOk, by decide⟩
/-- The clause for DONE: empty input, which ends in its first step. -/
theorem witness_EncoderOutputDecodesToItsInput_done : (encAt [] 3).bank.status = .busy ∧
    (encAt [] 3).callOk ∧ (encAt [] 3).tablesOk ∧ (encAt [] 3).indexOk ∧ (encAt [] 3).prefixOk ∧
    (encAt [] 3).turn.bank.status = .done :=
  ⟨rfl, by decide, by decide, ⟨fun _ => rfl, fun p h => absurd h (Nat.not_lt_zero p)⟩,
    ⟨[], rfl, rfl⟩, by decide⟩
/-- OUT_CAP is exactly EncBound(4) = 8. -/
theorem witness_EncBoundIsNeverExceeded : encFour.bank.status = .busy ∧ encFour.callOk ∧
    encFour.op.toNat ≤ encFour.ls.toNat + encFour.ls.toNat / 32 ∧
    encBound encFour.bank.inLen.toNat ≤ encFour.bank.outCap.toNat := by decide
theorem witness_CompressedInputDecompressesToItself : (encState encFour).enc.started ∧
    (encState encFour).enc.tablesOk ∧ encBound (encState encFour).enc.bank.inLen.toNat ≤
      (encState encFour).enc.bank.outCap.toNat :=
  ⟨encFour_started, by decide, by decide⟩

/-- `encFour` with other scratch registers and another OUT. -/
def encFourAgain : Enc :=
  { encFour with
    blen := 9
    prev := Table.allNil .prev
    bank := { encFour.bank with outMem := memoryOf .enc .output [0x33#8] } }

theorem witness_EncCallDependsOnItsArgumentsAlone : (encState encFour).enc.started ∧
    (encState encFourAgain).enc.started ∧ encFour.tablesOk ∧ encFourAgain.tablesOk ∧
    encFourAgain.bank.inLen = encFour.bank.inLen ∧
    encFourAgain.bank.outCap = encFour.bank.outCap ∧
    encFourAgain.bank.inputBytes = encFour.bank.inputBytes ∧ encFourAgain ≠ encFour :=
  ⟨encFour_started, ⟨rfl, rfl, rfl, rfl, rfl⟩, by decide, by decide, rfl, rfl, rfl, by decide⟩

/-- A BUSY DEC with one event pending and the outside's turn. -/
def busyInput (x : Input) : State :=
  { decState (decAt [] [] 0) with turns := [.outside], inputs := [x] }

/-- Every register number's clause, not BUSY and BUSY. -/
theorem witness_RegisterReads : (∀ n, NextInput (inputState (.regRead .dec n)) (.regRead .dec n) []) ∧
    (∀ n, NextInput (busyInput (.regRead .dec n)) (.regRead .dec n) []) ∧
    ((inputState (.regRead .dec 2)).bank .dec).status ≠ .busy ∧
    ((busyInput (.regRead .dec 4)).bank .dec).status = .busy :=
  ⟨fun _ => ⟨rfl, rfl⟩, fun _ => ⟨rfl, rfl⟩, by decide, rfl⟩
theorem witness_RegisterWrites :
    (∀ n, NextInput (inputState (.regWrite .enc n 7)) (.regWrite .enc n 7) []) ∧
    (∀ n, NextInput (busyInput (.regWrite .dec n 7)) (.regWrite .dec n 7) []) ∧
    ((inputState (.regWrite .enc 2 7)).bank .enc).status ≠ .busy ∧
    ((busyInput (.regWrite .dec 3 7)).bank .dec).status = .busy :=
  ⟨fun _ => ⟨rfl, rfl⟩, fun _ => ⟨rfl, rfl⟩, by decide, rfl⟩
/-- DEC in DONE with one byte of output, and one event pending. -/
def doneInput (x : Input) : State :=
  { inputState x with
    dec := (decAt [] [0x61#8] 1).withBank ((decAt [] [0x61#8] 1).bank.complete 1) }

/-- The last address of a memory and the first past it; IDLE, BUSY and DONE; both memories. -/
theorem witness_MemoryAccesses :
    (∀ b a, NextInput (inputState (.memRead .dec b a)) (.memRead .dec b a) []) ∧
    (∀ b a, NextInput (busyInput (.memRead .dec b a)) (.memRead .dec b a) []) ∧
    (∀ b a, NextInput (doneInput (.memRead .dec b a)) (.memRead .dec b a) []) ∧
    (∀ b a, NextInput (inputState (.memWrite .dec b a 1)) (.memWrite .dec b a 1) []) ∧
    (∀ b a, NextInput (busyInput (.memWrite .dec b a 1)) (.memWrite .dec b a 1) []) ∧
    ((inputState (.memRead .dec .input 0)).bank .dec).status = .idle ∧
    ((busyInput (.memRead .dec .input 0)).bank .dec).status = .busy ∧
    ((doneInput (.memRead .dec .output 0)).bank .dec).status = .done ∧
    0xFFFFFFFE < ((doneInput (.memRead .dec .output 0)).outMemBytes .dec).toNat ∧
    0xFFFFFFFE < ((inputState (.memWrite .dec .input 0 1)).inMemBytes .dec).toNat ∧
    ((inputState (.memWrite .dec .input 0 1)).inMemBytes .dec).toNat ≤ 0xFFFFFFFF :=
  ⟨fun _ _ => ⟨rfl, rfl⟩, fun _ _ => ⟨rfl, rfl⟩, fun _ _ => ⟨rfl, rfl⟩, fun _ _ => ⟨rfl, rfl⟩,
    fun _ _ => ⟨rfl, rfl⟩, rfl, rfl, rfl, by decide, by decide, by decide⟩
/-- Reset of a BUSY machine. -/
theorem witness_ResetEventClearsBothEngines : NextInput (busyInput .reset) .reset [] := ⟨rfl, rfl⟩

theorem witness_EveryStepKeepsTheInvariant : litState.Inv ∧
    nextHas (step litState) (fun s => s.dec.op == 3) = true :=
  ⟨⟨by decide, by decide, by decide, by decide, by decide⟩, by decide⟩
theorem witness_EngineTurnsStayInTheirEngine : litState.mover = .dec ∧
    (encState encFour).mover = .enc := by decide
theorem witness_EngineThatIsNotBusyDoesNothing :
    (decState (Dec.afterReset 0)).mover = .dec ∧
    (decState (Dec.afterReset 0)).dec.bank.status ≠ .busy ∧
    (encState (Enc.afterReset 0)).mover = .enc ∧
    (encState (Enc.afterReset 0)).enc.bank.status ≠ .busy := by decide
theorem witness_AccessLeavesTheOtherEngine :
    NextInput (inputState (.regWrite .enc 0 1)) (.regWrite .enc 0 1) [] ∧
    nextHas (step (inputState (.regWrite .enc 0 1))) (fun s => s.enc.bank.outLen == 0) = true ∧
    Input.touches .dec (.regWrite .enc 0 1) = false ∧
    NextInput (inputState (.regWrite .dec 0 1)) (.regWrite .dec 0 1) [] ∧
    nextHas (step (inputState (.regWrite .dec 0 1))) (fun s => s.dec.op == 0) = true ∧
    Input.touches .enc (.regWrite .dec 0 1) = false :=
  ⟨⟨rfl, rfl⟩, by decide, rfl, ⟨rfl, rfl⟩, by decide, rfl⟩

/-- A DEC in FAULT, and the host about to start it. -/
def faultState : State :=
  { inputState (.regWrite .dec 0 1) with
    dec := (decAt [] [] 0).raise .inputOverrun }

theorem witness_FaultPersistsUntilStartOrReset :
    (faultState.bank .dec).status = .fault .inputOverrun ∧
    nextHas (step faultState) (fun s => decide (s.dec.bank.status = .busy)) = true := by decide

/-- A DEC in DONE that stays there while the host reads a byte of its OUT, one in FAULT and one in IDLE. -/
theorem witness_ResultHoldsUntilStartOrReset :
    ((doneInput (.memRead .dec .output 0)).bank .dec).status ≠ .busy ∧
    nextHas (step (doneInput (.memRead .dec .output 0)))
      (fun s => decide (s.dec.bank.status = .done)) = true ∧
    (faultState.bank .dec).status ≠ .busy ∧
    nextHas (step { faultState with inputs := [] })
      (fun s => decide (s.dec.bank.status = .fault .inputOverrun)) = true ∧
    (State.reset.bank .dec).status ≠ .busy ∧
    nextHas (step State.reset) (fun s => decide (s.dec.bank.status = .idle)) = true := by decide

end Sys2Proof.Tests
end

section
/-! Only the stream's tokens come out of `decodeHeader` (30_encoding.md R91): a DEC that fetches
never runs a host command. -/

namespace Sys2Proof

/-- The instructions that stand in a stream: all but the two host commands. -/
def Instr.IsToken : Instr → Prop
  | .decStart _ => False
  | .encStart _ => False
  | _ => True

theorem decodeLit_isToken {c : Byte} {bytes rest : List Byte} {i : Instr}
    (h : decodeLit c bytes = .ok (i, rest)) : i.IsToken := by
  unfold decodeLit at h
  dsimp only at h
  split at h
  · split at h
    · cases h
    · cases h; trivial
  · cases h; trivial

theorem decodeMs_isToken {c : Byte} {bytes rest : List Byte} {i : Instr}
    (h : decodeMs c bytes = .ok (i, rest)) : i.IsToken := by
  unfold decodeMs at h
  dsimp only at h
  split at h
  · split at h
    · cases h
    · cases h
    · cases h; trivial
  · split at h
    · cases h
    · cases h; trivial

theorem decodeMf_isToken {c : Byte} {bytes rest : List Byte} {i : Instr}
    (h : decodeMf c bytes = .ok (i, rest)) : i.IsToken := by
  unfold decodeMf at h
  dsimp only at h
  split at h
  · split at h
    · cases h
    · cases h; split <;> trivial
    · cases h
  · split at h
    · cases h; split <;> trivial
    · cases h

theorem decodeHeader_isToken {bytes rest : List Byte} {i : Instr}
    (h : decodeHeader bytes = .ok (i, rest)) : i.IsToken := by
  unfold decodeHeader at h
  split at h
  · cases h
  · split at h
    · exact decodeLit_isToken h
    · split at h
      · exact decodeMf_isToken h
      · exact decodeMs_isToken h

end Sys2Proof
end

section
/-! The two engines and the host keep out of each other's state (00_scope.md R2): what the
operations of an engine leave of its bank, and what a turn or an access leaves of the rest of the
machine. -/

namespace Sys2Proof.Machine

/-! ### The arguments of a call

No operation of an engine writes IN, IN_LEN or OUT_CAP (10_state.md R24, R25, R33). -/

@[refl] theorem SameArguments.refl (b : Bank) : SameArguments b b := ⟨rfl, rfl, rfl⟩

@[trans] theorem SameArguments.trans {b c d : Bank} (h : SameArguments b c)
    (h' : SameArguments c d) : SameArguments b d := by
  obtain ⟨hmem, hlen, hcap⟩ := h
  obtain ⟨hmem', hlen', hcap'⟩ := h'
  exact ⟨hmem'.trans hmem, hlen'.trans hlen, hcap'.trans hcap⟩

theorem SameArguments.of_eq {b b' : Bank} (h : b' = b) : SameArguments b b' := by
  rw [h]

theorem Bank.raise_sameArguments (b : Bank) (g : Engine) (k : ErrKind) :
    SameArguments b (b.raise g k) := ⟨rfl, rfl, rfl⟩

theorem Bank.complete_sameArguments (b : Bank) (n : Word) : SameArguments b (b.complete n) :=
  ⟨rfl, rfl, rfl⟩

/-! ### DEC's operations -/

theorem Dec.copyLiteral_sameArguments (d : Dec) : SameArguments d.bank d.copyLiteral.bank := by
  obtain ⟨-, h⟩ | ⟨-, -, h⟩ | ⟨-, -, h⟩ := d.copyLiteral_cases <;> rw [h]
  · exact d.bank.raise_sameArguments _ _
  · exact d.bank.raise_sameArguments _ _
  · exact ⟨rfl, rfl, rfl⟩

theorem Dec.copyMatch_sameArguments (d : Dec) : SameArguments d.bank d.copyMatch.bank := by
  obtain ⟨-, h⟩ | ⟨-, -, h⟩ | ⟨-, -, h⟩ := d.copyMatch_cases <;> rw [h]
  · exact d.bank.raise_sameArguments _ _
  · exact d.bank.raise_sameArguments _ _
  · exact ⟨rfl, rfl, rfl⟩

theorem Dec.finish_sameArguments (d : Dec) : SameArguments d.bank d.finish.bank := by
  obtain ⟨-, h⟩ | ⟨-, h⟩ := d.finish_cases <;> rw [h]
  · exact d.bank.complete_sameArguments _
  · exact d.bank.raise_sameArguments _ _

theorem Dec.headerCut_sameArguments (d : Dec) (n : Option Nat) :
    SameArguments d.bank (d.headerCut n).bank := by
  obtain ⟨c, h, -, -⟩ := d.headerCut_eq n
  rw [h]
  exact d.bank.raise_sameArguments _ _

theorem State.token_sameArguments (s : State) {f : Dec → Dec}
    (hf : ∀ d, SameArguments d.bank (f d).bank) :
    SameArguments s.dec.bank (s.token f).dec.bank := by
  unfold State.token
  split
  · exact hf s.dec
  · rfl

/-- A stream token is an effect on DEC, one that leaves the arguments of the call as they are. -/
theorem exec_token {i : Instr} (h : i.IsToken) :
    ∃ f : Dec → Dec, (∀ d, SameArguments d.bank (f d).bank) ∧
      ∀ s, exec i s = .next (s.token f) := by
  cases i with
  | litX | litI =>
    refine ⟨_, ?_, fun _ => rfl⟩
    exact fun d => (d.parsedLit _ _).copyLiteral_sameArguments
  | endTok =>
    refine ⟨_, ?_, fun _ => rfl⟩
    exact fun d => (d.parsedMatch _ _ _ _).finish_sameArguments
  | mfX | mfI | msX | msI =>
    refine ⟨_, ?_, fun _ => rfl⟩
    exact fun d => (d.parsedMatch _ _ _ _).copyMatch_sameArguments
  | decStart | encStart => exact h.elim

/-! ### ENC's operations -/

theorem Emission.andThen_sameArguments {b : Bank} {r : Emission} {f : Enc → Emission}
    (hr : SameArguments b r.engine.bank)
    (hf : ∀ e, SameArguments e.bank (f e).engine.bank) :
    SameArguments b (r.andThen f).engine.bank := by
  cases r with
  | ok e => exact hr.trans (hf e)
  | error e => exact hr

theorem Enc.outPut_sameArguments (e : Enc) (v : Byte) :
    SameArguments e.bank (e.outPut v).engine.bank := by
  obtain ⟨-, h⟩ | ⟨-, h⟩ := e.outPut_cases v <;> rw [h]
  · exact e.bank.raise_sameArguments _ _
  · exact ⟨rfl, rfl, rfl⟩

theorem Enc.outPutAll_sameArguments (e : Enc) (vs : List Byte) :
    SameArguments e.bank (e.outPutAll vs).engine.bank := by
  induction vs generalizing e with
  | nil => rfl
  | cons v rest ih => exact Emission.andThen_sameArguments (e.outPut_sameArguments v) ih

theorem Enc.emitLit_sameArguments (e : Enc) (start n : Nat) :
    SameArguments e.bank (e.emitLit start n).engine.bank :=
  Emission.andThen_sameArguments (e.outPutAll_sameArguments _) fun e' =>
    e'.outPutAll_sameArguments _

theorem Enc.flushLoop_sameArguments (upto fuel : Nat) (e : Enc) :
    SameArguments e.bank (Enc.flushLoop upto fuel e).engine.bank := by
  induction fuel generalizing e with
  | zero => rfl
  | succ fuel ih =>
    unfold Enc.flushLoop
    split
    · exact Emission.andThen_sameArguments (e.emitLit_sameArguments _ _) fun e' =>
        ih { e' with ls := _ }
    · rfl

theorem Enc.flushLiterals_sameArguments (e : Enc) (upto : Nat) :
    SameArguments e.bank (e.flushLiterals upto).engine.bank :=
  Enc.flushLoop_sameArguments _ _ e

theorem Enc.insertRange_bank (e : Enc) (p n : Nat) : (e.insertRange p n).bank = e.bank := by
  induction n generalizing e p with
  | zero => rfl
  | succ n ih =>
    unfold Enc.insertRange
    rw [ih]
    split <;> rfl

theorem Enc.cover_bank (e : Enc) : e.cover.bank = e.bank := e.insertRange_bank _ _

theorem Enc.findMatch_bank (e : Enc) : e.findMatch.bank = e.bank := (Enc.walk_frame _ _).1

theorem Enc.search_bank (e : Enc) : e.search.bank = e.bank := by
  unfold Enc.search
  split
  · exact e.findMatch_bank
  · rfl

theorem Enc.stepEnd_sameArguments (e : Enc) : SameArguments e.bank e.stepEnd.engine.bank :=
  Emission.andThen_sameArguments
    (Emission.andThen_sameArguments (e.flushLiterals_sameArguments _) fun e' =>
      e'.outPutAll_sameArguments _)
    fun e' => e'.bank.complete_sameArguments _

theorem Enc.stepMatch_sameArguments (e : Enc) : SameArguments e.bank e.stepMatch.engine.bank :=
  Emission.andThen_sameArguments
    (Emission.andThen_sameArguments (e.flushLiterals_sameArguments _) fun e' =>
      e'.outPutAll_sameArguments _)
    fun e' => .of_eq e'.cover_bank

theorem Enc.encStep_sameArguments (e : Enc) : SameArguments e.bank e.encStep.bank := by
  obtain ⟨-, h⟩ | ⟨-, -, h⟩ | ⟨-, -, h⟩ := e.encStep_cases <;> rw [h]
  · exact e.stepEnd_sameArguments
  · exact .of_eq e.search_bank
  · exact (SameArguments.of_eq e.search_bank).trans e.search.stepMatch_sameArguments

theorem Enc.turn_sameArguments (e : Enc) : SameArguments e.bank e.turn.bank := by
  unfold Enc.turn
  split
  · exact e.encStep_sameArguments
  · rfl

/-! ### Turns of the engines -/

/-- What a turn gives: the step after its agent is chosen. -/
def Action.outcome : Action → Host.Outcome State Fault Refusal
  | .run i s => exec i s
  | .answer o => o

theorem step_eq_outcome (s : State) : step s = s.nextAction.outcome := rfl

@[simp] theorem Action.outcome_run (i : Instr) (s : State) : (Action.run i s).outcome = exec i s :=
  rfl

@[simp] theorem Action.outcome_answer (o : Host.Outcome State Fault Refusal) :
    (Action.answer o).outcome = o := rfl

/-- Only DEC differs between `s` and the answer, and it keeps the arguments of its call. -/
def DecTurnOf (s : State) (o : Host.Outcome State Fault Refusal) : Prop :=
  ∃ d, o = .next (s.withDec d) ∧ SameArguments s.dec.bank d.bank

theorem exec_token_decTurnOf {i : Instr} (h : i.IsToken) (s : State) : DecTurnOf s (exec i s) := by
  obtain ⟨f, hf, hexec⟩ := exec_token h
  exact ⟨(s.token f).dec, by rw [hexec, ← s.token_eq f], s.token_sameArguments hf⟩

theorem State.busyDecTurn_decTurnOf (s : State) : DecTurnOf s s.busyDecTurn.outcome := by
  unfold State.busyDecTurn
  split
  · split
    · exact exec_token_decTurnOf (decodeHeader_isToken ‹_›) s
    · exact ⟨_, rfl, s.dec.headerCut_sameArguments _⟩
    · exact ⟨s.dec, rfl, .refl _⟩
  · exact ⟨_, rfl, s.dec.copyLiteral_sameArguments⟩
  · exact ⟨_, rfl, s.dec.copyMatch_sameArguments⟩
  · exact ⟨_, rfl, s.dec.finish_sameArguments⟩

theorem State.decTurn_decTurnOf (s : State) : DecTurnOf s s.decTurn.outcome := by
  unfold State.decTurn
  split
  · exact s.busyDecTurn_decTurnOf
  · exact ⟨s.dec, rfl, .refl _⟩

theorem nextAction_dec {s : State} (h : s.mover = .dec) : s.nextAction = s.popTurn.decTurn := by
  simp [State.nextAction, h]

/-- Settles O50: DEC's turn is one on DEC alone in each of its phases, ENC's by its definition, and
no operation of either writes the arguments of the call. -/
theorem engineTurnsStayInTheirEngine : Obligations.EngineTurnsStayInTheirEngine := by
  unfold Obligations.EngineTurnsStayInTheirEngine
  refine fun s => ⟨fun h => ?_, fun h => ?_⟩
  · obtain ⟨d, hturn, hargs⟩ := s.popTurn.decTurn_decTurnOf
    refine ⟨s.popTurn.withDec d, ?_, ⟨rfl, rfl, rfl, rfl, rfl⟩, hargs⟩
    rw [step_eq_outcome, nextAction_dec h, hturn]
  · exact ⟨_, step_enc h, ⟨rfl, rfl, rfl, rfl, rfl⟩, s.enc.turn_sameArguments⟩

/-! ### Accesses of the host -/

/-- A state with engine `g` as its START leaves it (44_host_commands.md R250, R251). -/
def State.launched (s : State) : Engine → State
  | .dec => s.withDec s.dec.launch
  | .enc => s.withEnc s.enc.launch

/-- A CTRL word decodes to the START of the engine it is written to, when bit 0 is 1. -/
theorem exec_decodeCtrl {g : Engine} {w : Word} {i : Instr} (h : decodeCtrl g w = .ok i)
    (s : State) :
    w.extractLsb' 0 1 = 1#1 ∧ exec i s = s.start g (s.launched g) := by
  unfold decodeCtrl at h
  split at h
  · refine ⟨‹_›, ?_⟩
    cases g <;> cases h <;> rfl
  · cases h

/-- An accepted register write is ignored, launches the engine, or sets IN_LEN or OUT_CAP; the last
three happen only while the engine is not BUSY. -/
theorem State.regWrite_outcome_eq_next {s t : State} {g : Engine} {n : Nat} {w : Word}
    (h : (s.regWrite g n w).outcome = .next t) :
    t = s ∨ ((s.bank g).status ≠ .busy ∧
      ((n = 0 ∧ w.extractLsb' 0 1 = 1#1 ∧ s.launchable g = true ∧ t = s.launched g) ∨
        (n = 2 ∧ t = s.withBank g { s.bank g with inLen := w }) ∨
        (n = 3 ∧ t = s.withBank g { s.bank g with outCap := w }))) := by
  unfold State.regWrite at h
  split at h
  · split at h
    next i hi =>
      obtain ⟨hbit, hexec⟩ := exec_decodeCtrl hi s
      rw [Action.outcome_run, hexec] at h
      obtain ⟨-, hs⟩ | ⟨hb, hl, hs⟩ | ⟨-, -, hs⟩ := s.start_cases g (s.launched g) <;>
        rw [hs] at h <;> cases h
      · exact .inl rfl
      · exact .inr ⟨hb, .inl ⟨rfl, hbit, hl, rfl⟩⟩
    next => cases h; exact .inl rfl
  · cases h; exact .inl rfl
  · obtain ⟨hb, h⟩ := State.unlessBusy_eq_next h
    cases h
    exact .inr ⟨hb, .inr (.inl ⟨rfl, rfl⟩)⟩
  · obtain ⟨hb, h⟩ := State.unlessBusy_eq_next h
    cases h
    exact .inr ⟨hb, .inr (.inr ⟨rfl, rfl⟩)⟩
  · cases h; exact .inl rfl
  · cases h

/-- Engine `g` is the same in both states. -/
def SameEngine (g : Engine) (s t : State) : Prop :=
  match g with
  | .dec => t.dec = s.dec
  | .enc => t.enc = s.enc

@[refl] theorem SameEngine.refl (g : Engine) (s : State) : SameEngine g s s := by cases g <;> rfl

theorem SameEngine.reply (g : Engine) (s : State) (r : Reply) : SameEngine g s (s.reply r) := by
  cases g <;> rfl

theorem SameEngine.withBank {g g' : Engine} (hne : g' ≠ g) (s : State) (b : Bank) :
    SameEngine g s (s.withBank g' b) := by
  cases g <;> cases g'
  case dec.enc | enc.dec => rfl
  case dec.dec | enc.enc => exact absurd rfl hne

theorem SameEngine.launched {g g' : Engine} (hne : g' ≠ g) (s : State) :
    SameEngine g s (s.launched g') := by
  cases g <;> cases g'
  case dec.enc | enc.dec => rfl
  case dec.dec | enc.enc => exact absurd rfl hne

theorem State.regWrite_sameEngine {s t : State} {g g' : Engine} {n : Nat} {w : Word} (hne : g' ≠ g)
    (h : (s.regWrite g' n w).outcome = .next t) : SameEngine g s t := by
  obtain rfl | ⟨-, ⟨-, -, -, rfl⟩ | ⟨-, rfl⟩ | ⟨-, rfl⟩⟩ := State.regWrite_outcome_eq_next h
  · rfl
  · exact .launched hne s
  · exact .withBank hne s _
  · exact .withBank hne s _

/-- An event that does not touch engine `g` leaves it as it was. -/
theorem State.perform_sameEngine {s t : State} {x : Input} {g : Engine} (hx : x.touches g = false)
    (h : (s.perform x).outcome = .next t) : SameEngine g s t := by
  cases x with
  | regRead g' n =>
    obtain ⟨v, rfl⟩ := State.regRead_eq_next h
    exact .reply g s _
  | regWrite g' n w => exact State.regWrite_sameEngine (beq_eq_false_iff_ne.1 hx) h
  | memRead g' b a =>
    obtain ⟨-, -, -, -, rfl⟩ := State.memRead_eq_next h
    exact .reply g s _
  | memWrite g' b a v =>
    obtain ⟨-, -, -, rfl⟩ := State.memWrite_eq_next h
    exact .withBank (beq_eq_false_iff_ne.1 hx) s _
  | reset => cases hx

theorem step_nextInput {s : State} {x : Input} {rest : List Input} (h : NextInput s x rest) :
    step s = (s.popTurn.popInput.perform x).outcome := by
  obtain ⟨hmover, hinputs⟩ := h
  simp [step_eq_outcome, State.nextAction, hmover, State.outsideTurn, hinputs]

/-- Settles O53, by the kinds of access: a read adds a reply, a write or START is on the engine it
names. -/
theorem accessLeavesTheOtherEngine : Obligations.AccessLeavesTheOtherEngine := by
  unfold Obligations.AccessLeavesTheOtherEngine
  intro s t x rest hnext hstep
  rw [step_nextInput hnext] at hstep
  have hsame (g : Engine) (hx : x.touches g = false) : SameEngine g s.popTurn.popInput t :=
    State.perform_sameEngine hx hstep
  exact ⟨hsame .dec, hsame .enc⟩

end Sys2Proof.Machine
end

section
/-! What ENC's emissions do, said once in two halves: where the bytes fit the capacity they are put
out and nothing else happens, and where they do not, OUTPUT_OVERRUN is raised
(41_encoder_token_emission.md R160 to R169). -/

namespace Sys2Proof.Machine

theorem toWord_toNat_of_lt {n : Nat} (h : n < 4294967296) : (toWord n).toNat = n := by
  rw [BitVec.toNat_ofNat]
  exact Nat.mod_eq_of_lt h

/-! ### Fitting bytes and raised overruns -/

/-- `bytes` put out now stay within OUT_CAP (41_encoder_token_emission.md R160). -/
def Enc.fits (e : Enc) (bytes : List Byte) : Prop :=
  e.op.toNat + bytes.length ≤ e.bank.outCap.toNat

/-- `r` puts out `bytes` from `e` and goes on with `next`, or raises OUTPUT_OVERRUN because they do
not fit. -/
def Emits (e : Enc) (bytes : List Byte) (next : Enc) (r : Emission) : Prop :=
  (e.fits bytes → r = .ok next) ∧
    (¬ e.fits bytes → ∃ e', r = .error e' ∧ e'.bank.status = .fault .outputOverrun)

/-- ENC after `bytes` have been put out: they stand in OUT from OP on, and OP is behind them. -/
def Enc.afterOutput (e : Enc) (bytes : List Byte) : Enc :=
  { e with
    bank := { e.bank with outMem := e.bank.outMem.writeBytes e.op.toNat bytes }
    op := toWord (e.op.toNat + bytes.length) }

/-- ENC with the pending run beginning at `n`. -/
def Enc.withLs (e : Enc) (n : Nat) : Enc := { e with ls := toWord n }

@[simp] theorem Enc.afterOutput_i (e : Enc) (vs : List Byte) : (e.afterOutput vs).i = e.i := rfl
@[simp] theorem Enc.afterOutput_blen (e : Enc) (vs : List Byte) :
    (e.afterOutput vs).blen = e.blen := rfl
@[simp] theorem Enc.afterOutput_inMem (e : Enc) (vs : List Byte) :
    (e.afterOutput vs).bank.inMem = e.bank.inMem := rfl
@[simp] theorem Enc.afterOutput_inLen (e : Enc) (vs : List Byte) :
    (e.afterOutput vs).bank.inLen = e.bank.inLen := rfl
@[simp] theorem Enc.afterOutput_outCap (e : Enc) (vs : List Byte) :
    (e.afterOutput vs).bank.outCap = e.bank.outCap := rfl
@[simp] theorem Enc.afterOutput_status (e : Enc) (vs : List Byte) :
    (e.afterOutput vs).bank.status = e.bank.status := rfl
@[simp] theorem Enc.afterOutput_outMem (e : Enc) (vs : List Byte) :
    (e.afterOutput vs).bank.outMem = e.bank.outMem.writeBytes e.op.toNat vs := rfl

@[simp] theorem Enc.withLs_ls (e : Enc) (n : Nat) : (e.withLs n).ls = toWord n := rfl
@[simp] theorem Enc.withLs_i (e : Enc) (n : Nat) : (e.withLs n).i = e.i := rfl
@[simp] theorem Enc.withLs_op (e : Enc) (n : Nat) : (e.withLs n).op = e.op := rfl
@[simp] theorem Enc.withLs_blen (e : Enc) (n : Nat) : (e.withLs n).blen = e.blen := rfl
@[simp] theorem Enc.withLs_bank (e : Enc) (n : Nat) : (e.withLs n).bank = e.bank := rfl

theorem Enc.withLs_self (e : Enc) : e.withLs e.ls.toNat = e := by
  simp [Enc.withLs]

/-- OP counts the bytes put out, without wrapping (10_state.md R37). -/
theorem Enc.afterOutput_op {e : Enc} {vs : List Byte} (h : e.fits vs) :
    (e.afterOutput vs).op.toNat = e.op.toNat + vs.length :=
  toWord_toNat_of_lt (Nat.lt_of_le_of_lt h e.bank.outCap.isLt)

theorem Enc.afterOutput_op_le {e : Enc} {vs : List Byte} (h : e.fits vs) :
    (e.afterOutput vs).op.toNat ≤ (e.afterOutput vs).bank.outCap.toNat := by
  rw [Enc.afterOutput_op h]
  exact h

theorem Memory.writeBytes_append (m : Memory) (a : Nat) (xs ys : List Byte) :
    m.writeBytes a (xs ++ ys) = (m.writeBytes a xs).writeBytes (a + xs.length) ys := by
  induction xs generalizing m a with
  | nil => rfl
  | cons x xs ih =>
    simp only [List.cons_append, Memory.writeBytes, ih, List.length_cons]
    rw [Nat.add_right_comm, Nat.add_assoc]

theorem Enc.afterOutput_append {e : Enc} {xs : List Byte} (ys : List Byte) (h : e.fits xs) :
    e.afterOutput (xs ++ ys) = (e.afterOutput xs).afterOutput ys := by
  have hop := Enc.afterOutput_op h
  simp only [Enc.afterOutput] at hop ⊢
  simp only [hop, Memory.writeBytes_append, List.length_append, Nat.add_assoc]

theorem Enc.fits_nil {e : Enc} (h : e.op.toNat ≤ e.bank.outCap.toNat) : e.fits [] := h

theorem Enc.fits_append {e : Enc} {xs ys : List Byte} :
    e.fits (xs ++ ys) ↔ e.fits xs ∧ (e.afterOutput xs).fits ys := by
  unfold Enc.fits
  rw [List.length_append, Enc.afterOutput_outCap]
  constructor
  · intro h
    have hxs : e.fits xs := by unfold Enc.fits; omega
    rw [Enc.afterOutput_op hxs]
    omega
  · rintro ⟨hxs, hys⟩
    rw [Enc.afterOutput_op hxs] at hys
    omega

/-- Two emissions one after the other put out the bytes of both. -/
theorem Emits.andThen {e mid next : Enc} {xs ys : List Byte} {r : Emission} {f : Enc → Emission}
    (hr : Emits e xs mid r) (hop : mid.op = (e.afterOutput xs).op)
    (hcap : mid.bank.outCap = e.bank.outCap) (hf : e.fits xs → Emits mid ys next (f mid)) :
    Emits e (xs ++ ys) next (r.andThen f) := by
  obtain ⟨hok, hover⟩ := hr
  have hmid : mid.fits ys ↔ (e.afterOutput xs).fits ys := by simp [Enc.fits, hop, hcap]
  refine ⟨fun h => ?_, fun h => ?_⟩
  · obtain ⟨hxs, hys⟩ := Enc.fits_append.1 h
    rw [hok hxs]
    exact (hf hxs).1 (hmid.2 hys)
  · by_cases hxs : e.fits xs
    · rw [hok hxs]
      exact (hf hxs).2 fun hys => h (Enc.fits_append.2 ⟨hxs, hmid.1 hys⟩)
    · obtain ⟨e', hr, hst⟩ := hover hxs
      exact ⟨e', by rw [hr]; rfl, hst⟩

/-- The engine an emission goes on with matters only where its bytes fit. -/
theorem Emits.congr {e next next' : Enc} {bytes : List Byte} {r : Emission}
    (h : Emits e bytes next r) (hnext : e.fits bytes → next = next') : Emits e bytes next' r :=
  ⟨fun hfit => hnext hfit ▸ h.1 hfit, h.2⟩

theorem Enc.afterOutput_nil (e : Enc) : e.afterOutput [] = e := by
  simp [Enc.afterOutput, Memory.writeBytes]

theorem Emits.done {e : Enc} (hop : e.op.toNat ≤ e.bank.outCap.toNat) :
    Emits e [] e (.ok e) :=
  ⟨fun _ => rfl, fun h => absurd (Enc.fits_nil hop) h⟩

theorem Enc.outPutAll_emits {e : Enc} (vs : List Byte)
    (hop : e.op.toNat ≤ e.bank.outCap.toNat) : Emits e vs (e.afterOutput vs) (e.outPutAll vs) := by
  refine ⟨e.outPutAll_ok vs, fun h => ?_⟩
  obtain ⟨e', herr, hst, -⟩ := e.outPutAll_error vs (Nat.not_le.1 h) hop
  exact ⟨e', herr, hst⟩

/-- Bytes put out after an emission that has moved LS as well. -/
theorem Emits.andThen_outPutAll {e : Enc} {n : Nat} {xs ys : List Byte} {r : Emission}
    {f : Enc → Emission} (hr : Emits e xs ((e.afterOutput xs).withLs n) r)
    (hf : f ((e.afterOutput xs).withLs n) = ((e.afterOutput xs).withLs n).outPutAll ys) :
    Emits e (xs ++ ys) ((e.afterOutput (xs ++ ys)).withLs n) (r.andThen f) := by
  refine (hr.andThen (next := ((e.afterOutput xs).withLs n).afterOutput ys) rfl rfl
    fun hfit => ?_).congr fun h => ?_
  · rw [hf]
    exact Enc.outPutAll_emits _ (Enc.afterOutput_op_le hfit)
  · rw [Enc.afterOutput_append _ (Enc.fits_append.1 h).1]
    rfl

/-- What follows an emission and raises nothing changes only the engine it goes on with. -/
theorem Emits.andThen_ok {e mid : Enc} {xs : List Byte} {r : Emission} {g : Enc → Enc}
    (hr : Emits e xs mid r) : Emits e xs (g mid) (r.andThen fun e' => .ok (g e')) := by
  obtain ⟨hok, hover⟩ := hr
  refine ⟨fun h => by rw [hok h]; rfl, fun h => ?_⟩
  obtain ⟨e', hr, hst⟩ := hover h
  exact ⟨e', by rw [hr]; rfl, hst⟩

/-! ### The operations -/

theorem emitExtLoop_eq (fuel n : Nat) (h : n / 255 ≤ fuel) : emitExtLoop fuel n = encodeExt n := by
  induction fuel generalizing n with
  | zero =>
    have hlt : n < 255 := by omega
    simp [emitExtLoop, encodeExt, Nat.div_eq_of_lt hlt, Nat.mod_eq_of_lt hlt]
  | succ fuel ih =>
    unfold emitExtLoop
    split
    next hge =>
      have hdiv : n / 255 = (n - 255) / 255 + 1 := by omega
      have hmod : n % 255 = (n - 255) % 255 := by omega
      rw [ih (n - 255) (by omega)]
      simp [encodeExt, hdiv, hmod, List.replicate_succ]
    next hlt =>
      have hlt : n < 255 := by omega
      simp [encodeExt, Nat.div_eq_of_lt hlt, Nat.mod_eq_of_lt hlt]

/-- `EmitExt` puts out the extension of the format (41_encoder_token_emission.md R161). -/
theorem emitExtBytes_eq (n : Nat) : emitExtBytes n = encodeExt n :=
  emitExtLoop_eq _ _ (Nat.le_refl _)

theorem inline_literal_header {n : Nat} (h : n ≤ 63) : toByte n = 0b00#2 ++ BitVec.ofNat 6 n := by
  apply BitVec.eq_of_toNat_eq
  rw [BitVec.toNat_append, BitVec.toNat_ofNat, BitVec.toNat_ofNat]
  simp
  omega

/-- `EmitLit`'s header is that of the token (41_encoder_token_emission.md R162). -/
theorem emitLitHeader_eq (vs : List Byte) :
    emitLitHeader vs.length = headerBytes (AsmToken.lit vs).instr := by
  unfold emitLitHeader AsmToken.instr
  by_cases h : vs.length ≤ 63
  · simp [h, headerBytes, inline_literal_header h]
  · simp [h, headerBytes, emitExtBytes_eq]

/-- `EmitLit` puts out a literal token (41_encoder_token_emission.md R162). -/
theorem Enc.emitLit_emits {e : Enc} (start n : Nat) (hop : e.op.toNat ≤ e.bank.outCap.toNat) :
    Emits e (AsmToken.lit (e.bank.inMem.readBytes start n)).bytes
      (e.afterOutput (AsmToken.lit (e.bank.inMem.readBytes start n)).bytes)
      (e.emitLit start n) := by
  have hhead : emitLitHeader n
      = headerBytes (AsmToken.lit (e.bank.inMem.readBytes start n)).instr := by
    rw [← emitLitHeader_eq, Memory.readBytes_length]
  unfold Enc.emitLit AsmToken.bytes
  rw [hhead]
  refine ((Enc.outPutAll_emits _ hop).andThen rfl rfl fun hfit => ?_).congr fun h =>
    (Enc.afterOutput_append _ (Enc.fits_append.1 h).1).symm
  exact Enc.outPutAll_emits _ (Enc.afterOutput_op_le hfit)

theorem Memory.take_readBytes (m : Memory) (a n k : Nat) :
    (m.readBytes a n).take k = m.readBytes a (min n k) := by
  induction n generalizing a k with
  | zero => simp [Memory.readBytes]
  | succ n ih =>
    cases k with
    | zero => rfl
    | succ k => simp [Memory.readBytes, ih, Nat.add_min_add_right]

theorem Memory.drop_readBytes (m : Memory) (a n k : Nat) :
    (m.readBytes a n).drop k = m.readBytes (a + k) (n - k) := by
  induction n generalizing a k with
  | zero => simp [Memory.readBytes]
  | succ n ih =>
    cases k with
    | zero => rfl
    | succ k => simp [Memory.readBytes, ih, Nat.add_assoc, Nat.add_comm 1 k]

/-- A run that is not empty loses a full token at its front, or the whole of it. -/
theorem asmLitsLoop_readBytes (m : Memory) (a : Nat) {n : Nat} (fuel : Nat) (h : 0 < n) :
    asmLitsLoop (fuel + 1) (m.readBytes a n) =
      .lit (m.readBytes a (min n 318)) ::
        asmLitsLoop fuel (m.readBytes (a + min n 318) (n - min n 318)) := by
  have hne : m.readBytes a n ≠ [] := by
    rwa [← List.length_pos_iff, Memory.readBytes_length]
  have hrest : m.readBytes (a + 318) (n - 318)
      = m.readBytes (a + min n 318) (n - min n 318) := by
    by_cases h318 : 318 ≤ n
    · rw [Nat.min_eq_right h318]
    · rw [Nat.min_eq_left (by omega), Nat.sub_self, Nat.sub_eq_zero_of_le (by omega)]
      rfl
  rw [asmLitsLoop, if_neg hne, Memory.take_readBytes, Memory.drop_readBytes, hrest]

/-- The bytes `FlushLiterals(upto)` puts out: the tokens of the pseudo-token `LITS` over the pending
run (41_encoder_token_emission.md R163, 30_encoding.md R106). -/
def Enc.flushBytes (e : Enc) (upto : Nat) : List Byte :=
  assemble (asmLits (e.bank.inMem.readBytes e.ls.toNat (upto - e.ls.toNat)))

theorem Enc.flushLoop_emits {e : Enc} {upto : Nat} (fuel : Nat) (hls : e.ls.toNat ≤ upto)
    (hupto : upto < 4294967296) (hfuel : upto - e.ls.toNat ≤ fuel)
    (hop : e.op.toNat ≤ e.bank.outCap.toNat) :
    let bytes :=
      assemble (asmLitsLoop fuel (e.bank.inMem.readBytes e.ls.toNat (upto - e.ls.toNat)))
    Emits e bytes ((e.afterOutput bytes).withLs upto) (Enc.flushLoop upto fuel e) := by
  induction fuel generalizing e with
  | zero =>
    obtain rfl : upto = e.ls.toNat := by omega
    simpa [asmLitsLoop, assemble, Enc.flushLoop, Enc.afterOutput_nil, Enc.withLs_self] using
      Emits.done hop
  | succ fuel ih =>
    unfold Enc.flushLoop
    by_cases hlt : e.ls.toNat < upto
    · set k := min (upto - e.ls.toNat) 318 with hk
      have hls' : (toWord (e.ls.toNat + k)).toNat = e.ls.toNat + k := toWord_toNat_of_lt (by omega)
      have htail (vs : List Byte) (hfit : e.fits vs) :=
        ih (e := (e.afterOutput vs).withLs (e.ls.toNat + k)) (by rw [Enc.withLs_ls]; omega)
          (by rw [Enc.withLs_ls]; omega) (Enc.afterOutput_op_le hfit)
      simp only [Enc.withLs_ls, hls', Enc.withLs_bank, Enc.afterOutput_inMem] at htail
      rw [if_pos hlt, asmLitsLoop_readBytes _ _ _ (by omega), assemble, Nat.sub_sub]
      refine ((Enc.emitLit_emits _ _ hop).andThen rfl rfl (htail _)).congr fun h => ?_
      rw [Enc.afterOutput_append _ (Enc.fits_append.1 h).1]
      rfl
    · obtain rfl : upto = e.ls.toNat := by omega
      simpa [asmLitsLoop, assemble, Memory.readBytes, Enc.afterOutput_nil, Enc.withLs_self] using
        Emits.done hop

theorem Enc.flushLiterals_emits {e : Enc} {upto : Nat} (hls : e.ls.toNat ≤ upto)
    (hupto : upto < 4294967296) (hop : e.op.toNat ≤ e.bank.outCap.toNat) :
    Emits e (e.flushBytes upto) ((e.afterOutput (e.flushBytes upto)).withLs upto)
      (e.flushLiterals upto) := by
  have h := Enc.flushLoop_emits (upto - e.ls.toNat) hls hupto (Nat.le_refl _) hop
  unfold Enc.flushBytes asmLits
  rw [Memory.readBytes_length]
  exact h

/-! ### The step

What a turn of a BUSY ENC puts out and what engine it leaves (40_encoder_match_finder.md R130, R139
to R141). -/

/-- The call has ended: STATUS is DONE and OUT_LEN is OP (41_encoder_token_emission.md R169). -/
def Enc.complete (e : Enc) : Enc := e.withBank (e.bank.complete e.op)

theorem Enc.stepEnd_emits {e : Enc} (hc : e.callOk) :
    let n := e.bank.inLen.toNat
    let bytes := e.flushBytes n ++ headerBytes canonicalEnd
    Emits e bytes ((e.afterOutput bytes).withLs n).complete e.stepEnd := by
  obtain ⟨hls, hi, hop⟩ := hc
  have hflush := Enc.flushLiterals_emits (Nat.le_trans hls hi) e.bank.inLen.isLt hop
  exact (hflush.andThen_outPutAll rfl).andThen_ok (g := Enc.complete)

theorem Enc.stepMatch_emits {e : Enc} (hc : e.callOk) :
    let n := e.i.toNat
    let bytes := e.flushBytes n ++ emitMatchBytes e.blen.toNat e.bdist.toNat
    Emits e bytes ((e.afterOutput bytes).withLs n).cover e.stepMatch := by
  obtain ⟨hls, -, hop⟩ := hc
  have hflush := Enc.flushLiterals_emits hls e.i.isLt hop
  exact (hflush.andThen_outPutAll rfl).andThen_ok (g := Enc.cover)

/-- A turn puts out `bytes` and leaves `next`, or ends in FAULT with OUTPUT_OVERRUN because they do
not fit. -/
def Enc.TurnGives (e : Enc) (bytes : List Byte) (next : Enc) : Prop :=
  (e.fits bytes → e.turn = next) ∧
    (¬ e.fits bytes → e.turn.bank.status = .fault .outputOverrun)

/-- A turn that raises nothing has put all its bytes out. -/
theorem Enc.TurnGives.of_no_overrun {e next : Enc} {bytes : List Byte}
    (h : e.TurnGives bytes next) (hst : e.turn.bank.status ≠ .fault .outputOverrun) :
    e.fits bytes ∧ e.turn = next := by
  obtain ⟨hok, hover⟩ := h
  have hfit : e.fits bytes := Classical.byContradiction fun hc => hst (hover hc)
  exact ⟨hfit, hok hfit⟩

theorem Emits.turnGives {e e₀ next : Enc} {bytes : List Byte} {r : Emission}
    (h : Emits e bytes next r) (hturn : e₀.turn = r.engine) (hfits : e₀.fits bytes ↔ e.fits bytes) :
    e₀.TurnGives bytes next := by
  obtain ⟨hok, hover⟩ := h
  refine ⟨fun hfit => ?_, fun hfit => ?_⟩
  · rw [hturn, hok (hfits.1 hfit), Emission.engine_ok]
  · obtain ⟨e', herr, hst⟩ := hover fun hc => hfit (hfits.2 hc)
    rw [hturn, herr, Emission.engine_error]
    exact hst

theorem Enc.turn_of_busy {e : Enc} (hb : e.bank.status = .busy) : e.turn = e.encStep := if_pos hb

theorem Enc.turn_of_not_busy {e : Enc} (hb : e.bank.status ≠ .busy) : e.turn = e := if_neg hb

/-- The engine in which the chain walk of `FindMatch` begins (40_encoder_match_finder.md R136). -/
def Enc.walkStart (e : Enc) : Enc :=
  { e with h := e.hash3 e.i.toNat, cand := e.head.read (e.hash3 e.i.toNat).toNat, depth := 0
           blen := 0, bdist := 0 }

/-- The search leaves the position registers (40_encoder_match_finder.md R130, R136). -/
theorem Enc.search_frame (e : Enc) :
    e.search.i = e.i ∧ e.search.ls = e.ls ∧ e.search.op = e.op := by
  unfold Enc.search
  split
  · obtain ⟨-, hi, hls, hop, -⟩ := Enc.walk_frame Config.maxChain e.walkStart
    exact ⟨hi, hls, hop⟩
  · exact ⟨rfl, rfl, rfl⟩

@[simp] theorem Enc.search_i (e : Enc) : e.search.i = e.i := by
  obtain ⟨hi, -, -⟩ := e.search_frame
  exact hi

@[simp] theorem Enc.search_ls (e : Enc) : e.search.ls = e.ls := by
  obtain ⟨-, hls, -⟩ := e.search_frame
  exact hls

@[simp] theorem Enc.search_op (e : Enc) : e.search.op = e.op := by
  obtain ⟨-, -, hop⟩ := e.search_frame
  exact hop

theorem Enc.search_flushBytes (e : Enc) (n : Nat) : e.search.flushBytes n = e.flushBytes n := by
  simp [Enc.flushBytes, Enc.search_bank]

/-- The turn of a BUSY ENC ends the call, passes a position without a match, or takes a match. -/
theorem Enc.turn_cases {e : Enc} (hb : e.bank.status = .busy) (hc : e.callOk) :
    (e.i = e.bank.inLen ∧
      let bytes := e.flushBytes e.bank.inLen.toNat ++ headerBytes canonicalEnd
      e.TurnGives bytes ((e.afterOutput bytes).withLs e.bank.inLen.toNat).complete) ∨
    (e.i.toNat < e.bank.inLen.toNat ∧ e.search.blen = 0#32 ∧ e.turn = e.search.stepLiteral) ∨
    (e.i.toNat < e.bank.inLen.toNat ∧ e.search.blen ≠ 0#32 ∧
      let bytes := e.flushBytes e.i.toNat ++
        emitMatchBytes e.search.blen.toNat e.search.bdist.toNat
      e.TurnGives bytes ((e.search.afterOutput bytes).withLs e.i.toNat).cover) := by
  have ⟨_, hle, _⟩ := hc
  have hlt (hne : e.i ≠ e.bank.inLen) : e.i.toNat < e.bank.inLen.toNat :=
    Nat.lt_of_le_of_ne hle fun h => hne (BitVec.eq_of_toNat_eq h)
  have hsearch : e.search.callOk := by
    unfold Enc.callOk at hc ⊢
    simpa [Enc.search_bank] using hc
  rw [Enc.turn_of_busy hb]
  obtain ⟨hi, h⟩ | ⟨hi, hlen, h⟩ | ⟨hi, hlen, h⟩ := e.encStep_cases
  · exact .inl ⟨hi, (Enc.stepEnd_emits hc).turnGives (by rw [Enc.turn_of_busy hb, h]) Iff.rfl⟩
  · exact .inr (.inl ⟨hlt hi, hlen, h⟩)
  · refine .inr (.inr ⟨hlt hi, hlen, ?_⟩)
    have hmatch := (Enc.stepMatch_emits hsearch).turnGives (e₀ := e)
      (by rw [Enc.turn_of_busy hb, h]) (by simp [Enc.fits, Enc.search_bank])
    simpa only [Enc.search_flushBytes, Enc.search_i] using hmatch

end Sys2Proof.Machine
end

section
/-! The index of ENC (10_state.md R31, R32, 40_encoder_match_finder.md R143): each insertion carries
it one position further, so it is exact after every step. -/

namespace Sys2Proof.Machine

/-! ### The index before a position -/

/-- The input is all that the index is about: IN and IN_LEN (40_encoder_match_finder.md R131,
R132). -/
theorem Enc.lastInserted_congr {e e' : Enc} (h : BitVec 12) {n : Nat}
    (hlen : e'.bank.inLen = e.bank.inLen)
    (hhash : ∀ p, e.hasKey p = true → e'.hash3 p = e.hash3 p) :
    e'.lastInserted h n = e.lastInserted h n := by
  have hkey (p : Nat) : e'.hasKey p = e.hasKey p := by unfold Enc.hasKey; rw [hlen]
  induction n with
  | zero => rfl
  | succ n ih =>
    unfold Enc.lastInserted
    rw [ih, hkey]
    by_cases hk : e.hasKey n = true
    · rw [hhash n hk]
    · simp [hk]

/-- An entry of the index is a position before `n` that has the key it is listed for. -/
theorem Enc.lastInserted_eq_some {e : Enc} {h : BitVec 12} {n : Nat} {c : Word}
    (hn : n ≤ 4294967296) (hc : e.lastInserted h n = some c) :
    c.toNat < n ∧ e.hasKey c.toNat = true ∧ e.hash3 c.toNat = h := by
  induction n with
  | zero => cases hc
  | succ n ih =>
    unfold Enc.lastInserted at hc
    split at hc
    next hkey =>
      obtain rfl := Option.some.inj hc
      rw [toWord_toNat_of_lt (by omega)]
      exact ⟨Nat.lt_succ_self n, hkey⟩
    next =>
      obtain ⟨hlt, hkey⟩ := ih (by omega) hc
      exact ⟨Nat.lt_succ_of_lt hlt, hkey⟩

/-- HEAD and PREV are exactly the index of the positions before `n`. -/
def Enc.indexBefore (e : Enc) (n : Nat) : Prop :=
  (∀ h : BitVec 12, e.head.read h.toNat = e.lastInserted h n) ∧
    ∀ p, p < n → e.hasKey p = true → n ≤ p + 65536 →
      e.prev.read (prevSlot p) = e.lastInserted (e.hash3 p) p

theorem Enc.indexOk_iff (e : Enc) : e.indexOk ↔ e.indexBefore e.i.toNat := Iff.rfl

/-- The index is in the tables and the input alone. -/
theorem Enc.indexBefore_congr {e e' : Enc} {n : Nat} (hidx : e.indexBefore n)
    (hmem : e'.bank.inMem = e.bank.inMem) (hlen : e'.bank.inLen = e.bank.inLen)
    (hhead : e'.head = e.head) (hprev : e'.prev = e.prev) : e'.indexBefore n := by
  have hhash (p : Nat) : e'.hash3 p = e.hash3 p := by simp [Enc.hash3, hmem]
  have hlast (h : BitVec 12) (k : Nat) : e'.lastInserted h k = e.lastInserted h k :=
    Enc.lastInserted_congr h hlen fun p _ => hhash p
  have hkey (p : Nat) : e'.hasKey p = e.hasKey p := by unfold Enc.hasKey; rw [hlen]
  simpa only [Enc.indexBefore, hlast, hhash, hhead, hprev, hkey] using hidx

/-! ### Insertion -/

/-- An insertion keeps the form of the tables and the entries they have (20_memory.md R65). -/
theorem Enc.insert_tablesOk {e : Enc} (p : Nat) (ht : e.tablesOk) : (e.insert p).tablesOk := by
  obtain ⟨hhead, hprev, hheadlt, hprevlt⟩ := ht
  exact ⟨Table.wf_write _ _ hhead, Table.wf_write _ _ hprev,
    Table.cells_write_lt hheadlt (e.hash3 p).isLt,
    Table.cells_write_lt hprevlt (Nat.mod_lt p (by decide))⟩

/-- `Insert(n)` carries the index past a position that has a key. The one slot of PREV it takes over
belonged to a position that leaves the window (40_encoder_match_finder.md R133, R143). -/
theorem Enc.insert_indexBefore {e : Enc} {n : Nat} (ht : e.tablesOk) (hk : e.hasKey n = true)
    (hidx : e.indexBefore n) : (e.insert n).indexBefore (n + 1) := by
  obtain ⟨hhead, hprev, -, -⟩ := ht
  obtain ⟨hheads, hprevs⟩ := hidx
  have hlast (h : BitVec 12) (k : Nat) : (e.insert n).lastInserted h k = e.lastInserted h k :=
    Enc.lastInserted_congr h rfl fun _ _ => rfl
  refine ⟨fun h => ?_, fun p hp hkp hwin => ?_⟩
  · rw [hlast, Enc.insert_eq, Table.read_write _ _ _ hhead, Enc.lastInserted]
    by_cases heq : e.hash3 n = h
    · simp [heq, hk]
    · have hne : h.toNat ≠ (e.hash3 n).toNat := fun hc => heq (BitVec.eq_of_toNat_eq hc).symm
      simp [heq, hne, hheads]
  · rw [hlast, Enc.insert_eq, Table.read_write _ _ _ hprev]
    show (if prevSlot p = prevSlot n then _ else _) = e.lastInserted (e.hash3 p) p
    by_cases hpn : p = n
    · rw [hpn, if_pos rfl, hheads]
    · have hslot : prevSlot p ≠ prevSlot n := by
        simp only [prevSlot, Config.prevEntries]
        omega
      rw [if_neg hslot]
      exact hprevs p (by omega) hkp (by omega)

/-- A position that has no key is no part of the index. -/
theorem Enc.indexBefore_succ_of_no_key {e : Enc} {n : Nat} (hk : e.hasKey n = false)
    (hidx : e.indexBefore n) : e.indexBefore (n + 1) := by
  obtain ⟨hheads, hprevs⟩ := hidx
  refine ⟨fun h => by simp [Enc.lastInserted, hk, hheads], fun p hp hkp hwin => ?_⟩
  have hpn : p ≠ n := fun hc => by simp [hc, hk] at hkp
  exact hprevs p (by omega) hkp (by omega)

theorem Enc.insertRange_op (e : Enc) (p n : Nat) : (e.insertRange p n).op = e.op := by
  induction n generalizing e p with
  | zero => rfl
  | succ n ih =>
    unfold Enc.insertRange
    rw [ih]
    split <;> rfl

theorem Enc.insertRange_tablesOk {e : Enc} (p n : Nat) (ht : e.tablesOk) :
    (e.insertRange p n).tablesOk := by
  induction n generalizing e p with
  | zero => exact ht
  | succ n ih =>
    unfold Enc.insertRange
    split
    · exact ih _ (Enc.insert_tablesOk p ht)
    · exact ih _ ht

theorem Enc.insertRange_indexBefore {e : Enc} {p : Nat} (n : Nat) (ht : e.tablesOk)
    (hidx : e.indexBefore p) : (e.insertRange p n).indexBefore (p + n) := by
  induction n generalizing e p with
  | zero => exact hidx
  | succ n ih =>
    unfold Enc.insertRange
    rw [← Nat.add_assoc, Nat.add_right_comm]
    split
    next hk => exact ih (Enc.insert_tablesOk p ht) (Enc.insert_indexBefore ht hk hidx)
    next hk => exact ih ht (Enc.indexBefore_succ_of_no_key (by simpa using hk) hidx)

/-! ### The search and the step -/

/-- FindMatch leaves the index as it is. -/
theorem Enc.findMatch_tables (e : Enc) : e.findMatch.head = e.head ∧ e.findMatch.prev = e.prev := by
  obtain ⟨-, -, -, -, -, hhead, hprev⟩ := Enc.walk_frame Config.maxChain e.walkStart
  exact ⟨hhead, hprev⟩

theorem Enc.hasKey_iff (e : Enc) (p : Nat) : e.hasKey p = true ↔ p + 3 ≤ e.bank.inLen.toNat :=
  decide_eq_true_iff

/-- The search inserts its position where it has a key (40_encoder_match_finder.md R130, R138). -/
theorem Enc.search_cases {e : Enc} (hi : e.i.toNat < e.bank.inLen.toNat) :
    (e.hasKey e.i.toNat = true ∧ e.search = e.findMatch.insert e.i.toNat) ∨
    (e.hasKey e.i.toNat = false ∧ e.search = { e with blen := 0 }) := by
  unfold Enc.search
  by_cases h : 3 ≤ e.bank.inLen.toNat - e.i.toNat
  · exact .inl ⟨(e.hasKey_iff _).2 (by omega), if_pos h⟩
  · exact .inr ⟨by rw [← Bool.not_eq_true, e.hasKey_iff]; omega, if_neg h⟩

theorem Enc.findMatch_tablesOk {e : Enc} (ht : e.tablesOk) : e.findMatch.tablesOk := by
  obtain ⟨hhead, hprev⟩ := e.findMatch_tables
  unfold Enc.tablesOk
  rw [hhead, hprev]
  exact ht

theorem Enc.search_tablesOk {e : Enc} (ht : e.tablesOk) : e.search.tablesOk := by
  unfold Enc.search
  split
  · exact Enc.insert_tablesOk _ (Enc.findMatch_tablesOk ht)
  · exact ht

/-- The search carries the index past its position. -/
theorem Enc.search_indexBefore {e : Enc} (hi : e.i.toNat < e.bank.inLen.toNat) (ht : e.tablesOk)
    (hidx : e.indexOk) : e.search.indexBefore (e.i.toNat + 1) := by
  obtain ⟨hhead, hprev⟩ := e.findMatch_tables
  have hbank := e.findMatch_bank
  obtain ⟨hk, h⟩ | ⟨hk, h⟩ := Enc.search_cases hi <;> rw [h]
  · refine Enc.insert_indexBefore (Enc.findMatch_tablesOk ht) ?_ ?_
    · rwa [Enc.hasKey_iff, hbank, ← Enc.hasKey_iff]
    · exact Enc.indexBefore_congr hidx (by rw [hbank]) (by rw [hbank]) hhead hprev
  · exact Enc.indexBefore_succ_of_no_key hk (Enc.indexBefore_congr hidx rfl rfl rfl rfl)

/-- No candidate is kept whose length passes the end of the input (40_encoder_match_finder.md
R134). -/
theorem Enc.examine_blen_le {e : Enc} (c : Word)
    (h : e.blen.toNat ≤ e.bank.inLen.toNat - e.i.toNat) :
    (e.examine c).blen.toNat ≤ e.bank.inLen.toNat - e.i.toNat := by
  have hle : e.matchLen c.toNat e.i.toNat ≤ e.bank.inLen.toNat - e.i.toNat := e.agree_le _ _ _
  have hlt := e.bank.inLen.isLt
  unfold Enc.examine
  dsimp only
  split
  · rw [toWord_toNat_of_lt (by omega)]
    exact hle
  · exact h

theorem Enc.examine_frame (e : Enc) (c : Word) :
    (e.examine c).bank = e.bank ∧ (e.examine c).i = e.i ∧ (e.examine c).head = e.head ∧
      (e.examine c).prev = e.prev := by
  unfold Enc.examine
  dsimp only
  split <;> exact ⟨rfl, rfl, rfl, rfl⟩

theorem Enc.examine_indexOk {e : Enc} (c : Word) (hidx : e.indexOk) : (e.examine c).indexOk := by
  obtain ⟨hbank, hi, hhead, hprev⟩ := e.examine_frame c
  rw [Enc.indexOk_iff, hi]
  exact Enc.indexBefore_congr hidx (by rw [hbank]) (by rw [hbank]) hhead hprev

theorem Enc.walk_blen_le {e : Enc} (fuel : Nat)
    (h : e.blen.toNat ≤ e.bank.inLen.toNat - e.i.toNat) :
    (Enc.walk fuel e).blen.toNat ≤ e.bank.inLen.toNat - e.i.toNat := by
  induction fuel generalizing e with
  | zero => exact h
  | succ fuel ih =>
    unfold Enc.walk
    split
    · exact h
    · split
      next c _ _ =>
        obtain ⟨hbank, hi, -, -⟩ := e.examine_frame c
        have := ih (e := e.examine c) (by rw [hbank, hi]; exact Enc.examine_blen_le c h)
        rwa [hbank, hi] at this
      next => exact h

/-- A match found at I stays within the input. -/
theorem Enc.search_blen_le (e : Enc) : e.search.blen.toNat ≤ e.bank.inLen.toNat - e.i.toNat := by
  unfold Enc.search
  split
  · exact Enc.walk_blen_le (e := e.walkStart) Config.maxChain (Nat.zero_le _)
  · exact Nat.zero_le _

@[simp] theorem Enc.stepLiteral_bank (e : Enc) : e.stepLiteral.bank = e.bank := rfl
@[simp] theorem Enc.stepLiteral_ls (e : Enc) : e.stepLiteral.ls = e.ls := rfl
@[simp] theorem Enc.stepLiteral_op (e : Enc) : e.stepLiteral.op = e.op := rfl

theorem Enc.stepLiteral_i {e : Enc} (h : e.i.toNat < e.bank.inLen.toNat) :
    e.stepLiteral.i.toNat = e.i.toNat + 1 := by
  have hlt := e.bank.inLen.isLt
  exact toWord_toNat_of_lt (by omega)

theorem Enc.cover_i {e : Enc} (h : e.i.toNat + e.blen.toNat ≤ e.bank.inLen.toNat) :
    e.cover.i.toNat = e.i.toNat + e.blen.toNat :=
  toWord_toNat_of_lt (Nat.lt_of_le_of_lt h e.bank.inLen.isLt)

theorem Enc.cover_ls (e : Enc) : e.cover.ls = e.cover.i := rfl

theorem Enc.cover_op (e : Enc) : e.cover.op = e.op := e.insertRange_op _ _

/-- The positions a match covers enter the index with it (40_encoder_match_finder.md R140). -/
theorem Enc.cover_indexOk {e : Enc} (ht : e.tablesOk) (hidx : e.indexBefore (e.i.toNat + 1))
    (hpos : 0 < e.blen.toNat) (hle : e.i.toNat + e.blen.toNat ≤ e.bank.inLen.toNat) :
    e.cover.indexOk := by
  have h := Enc.insertRange_indexBefore (e.blen.toNat - 1) ht hidx
  rw [show e.i.toNat + 1 + (e.blen.toNat - 1) = e.cover.i.toNat by
    rw [Enc.cover_i hle]; omega] at h
  exact Enc.indexBefore_congr h rfl rfl rfl rfl

theorem Enc.started_indexOk {e : Enc} (hs : e.started) : e.indexOk := by
  obtain ⟨-, hi, -, -, hhead⟩ := hs
  simp [Enc.indexOk, hi, hhead, Enc.lastInserted]

theorem blen_pos {b : Word} (h : b ≠ 0#32) : 0 < b.toNat :=
  Nat.pos_of_ne_zero fun hc => h (BitVec.eq_of_toNat_eq hc)

theorem Enc.turn_indexOk {e : Enc} (hb : e.bank.status = .busy) (hc : e.callOk) (ht : e.tablesOk)
    (hidx : e.indexOk) (hb' : e.turn.bank.status = .busy) : e.turn.indexOk := by
  have hst : e.turn.bank.status ≠ .fault .outputOverrun := by simp [hb']
  obtain ⟨-, h⟩ | ⟨hi, -, h⟩ | ⟨hi, hne, h⟩ := Enc.turn_cases hb hc
  · obtain ⟨-, hturn⟩ := h.of_no_overrun hst
    rw [hturn] at hb'
    cases hb'
  · rw [h, Enc.indexOk_iff, Enc.stepLiteral_i (by simpa [Enc.search_bank] using hi), Enc.search_i]
    exact Enc.indexBefore_congr (Enc.search_indexBefore hi ht hidx) rfl rfl rfl rfl
  · obtain ⟨-, hturn⟩ := h.of_no_overrun hst
    have hlen := e.search_blen_le
    have hsearch := Enc.search_indexBefore hi ht hidx
    rw [hturn]
    refine Enc.cover_indexOk (Enc.search_tablesOk ht) ?_ (blen_pos hne) ?_
    · exact Enc.indexBefore_congr (e := e.search) (by simpa using hsearch) rfl rfl rfl rfl
    · simp [Enc.search_bank]
      omega

/-- Settles O37: START begins with an empty index, the search and the insertions after a match carry
it past each position in turn, and an emission does not touch it. -/
theorem encoderIndexStaysExact : Obligations.EncoderIndexStaysExact := by
  unfold Obligations.EncoderIndexStaysExact
  exact ⟨fun _ hs => Enc.started_indexOk hs, fun _ hb hc ht hidx hb' =>
    Enc.turn_indexOk hb hc ht hidx hb'⟩

end Sys2Proof.Machine
end

section
/-! What ENC puts out, as tokens of format F1 (30_encoding.md R94 to R98, R106), and what tokens
expand to (R103). -/

namespace Sys2Proof.Machine

/-! ### The bytes of a match token -/

theorem inline_ms_control (v : BitVec 4) (lo : BitVec 3) :
    0x80#8 ||| (v.setWidth 8 <<< 3) ||| lo.setWidth 8 = 0b1#1 ++ v ++ lo := by
  revert v lo
  decide

theorem escaped_ms_control (lo : BitVec 3) : 0x80#8 ||| lo.setWidth 8 = 0b10000#5 ++ lo := by
  revert lo
  decide

theorem inline_mf_control (v : BitVec 6) : 0x40#8 ||| v.setWidth 8 = 0b01#2 ++ v := by
  revert v
  decide

/-- A byte that is taken from `n` is the field of the same bits (30_encoding.md R95, R96). -/
theorem toByte_eq_setWidth {w n : Nat} (h : n < 2 ^ w) :
    toByte n = (BitVec.ofNat w n).setWidth 8 := by
  apply BitVec.eq_of_toNat_eq
  rw [BitVec.toNat_setWidth, BitVec.toNat_ofNat, BitVec.toNat_ofNat, Nat.mod_eq_of_lt h]

theorem extractLsb'_ofNat {w f : Nat} (start len : Nat) (hf : f < 2 ^ w) :
    (BitVec.ofNat w f).extractLsb' start len = BitVec.ofNat len (f / 2 ^ start) := by
  apply BitVec.eq_of_toNat_eq
  rw [BitVec.extractLsb'_toNat, BitVec.toNat_ofNat, BitVec.toNat_ofNat, Nat.mod_eq_of_lt hf,
    Nat.shiftRight_eq_div_pow]

/-- The low distance bits of an `MS` control byte (30_encoding.md R95). -/
theorem toByte_mod_eight {f : Nat} (hf : f < 2 ^ 11) :
    toByte (f % 8) = ((BitVec.ofNat 11 f).extractLsb' 0 3).setWidth 8 := by
  rw [extractLsb'_ofNat 0 3 hf, toByte_eq_setWidth (w := 3) (by omega)]
  congr 1
  apply BitVec.eq_of_toNat_eq
  simp

/-- `EmitMS` puts out an `MS` token (41_encoder_token_emission.md R165). -/
theorem emitMsBytes_eq {len dist : Nat} (hlen : 3 ≤ len) (hdist : dist ≤ 2048) (hpos : 1 ≤ dist) :
    emitMsBytes len dist = headerBytes (AsmToken.ms len dist).instr := by
  have hf : dist - 1 < 2 ^ 11 := by omega
  unfold emitMsBytes AsmToken.instr
  dsimp only
  rw [toByte_mod_eight hf]
  split
  · rw [toByte_eq_setWidth (w := 4) (by omega), inline_ms_control]
    simp [headerBytes, extractLsb'_ofNat 3 8 hf]
  · rw [escaped_ms_control, emitExtBytes_eq]
    simp [headerBytes, extractLsb'_ofNat 3 8 hf]

/-- `EmitMF` puts out an `MF` token (41_encoder_token_emission.md R166). -/
theorem emitMfBytes_eq {len dist : Nat} (hlen : 4 ≤ len) (hdist : dist ≤ 65535) :
    emitMfBytes len dist = headerBytes (AsmToken.mf len dist).instr := by
  have hf : dist - 1 < 2 ^ 16 := by omega
  have hlow : toByte ((dist - 1) % 256) = toByte (dist - 1) := by
    apply BitVec.eq_of_toNat_eq
    simp
  unfold emitMfBytes AsmToken.instr
  dsimp only
  split
  · rw [toByte_eq_setWidth (w := 6) (by omega), inline_mf_control, hlow]
    simp [headerBytes, extractLsb'_ofNat _ 8 hf]
  · rw [hlow, emitExtBytes_eq]
    simp [headerBytes, extractLsb'_ofNat _ 8 hf]

theorem validMatch_iff (len dist : Nat) :
    validMatch len dist = true ↔ (3 ≤ len ∧ dist ≤ 2048) ∨ (4 ≤ len ∧ dist ≤ 65535) := by
  simp only [validMatch, Bool.or_eq_true, Bool.and_eq_true, decide_eq_true_iff]
  rfl

/-- A valid match is put out as the token of its class, which is legal (41_encoder_token_emission.md
R164, 40_encoder_match_finder.md R135). -/
theorem emitMatchBytes_eq {len dist : Nat} (hv : validMatch len dist = true) (hpos : 1 ≤ dist) :
    emitMatchBytes len dist = (asmMatch len dist).bytes ∧ (asmMatch len dist).legal = true := by
  have hv := (validMatch_iff len dist).1 hv
  unfold emitMatchBytes asmMatch
  by_cases hnear : dist ≤ 2048
  · have hlen : 3 ≤ len := by omega
    simp [hnear, AsmToken.bytes, AsmToken.payload, AsmToken.legal, hlen, hpos,
      emitMsBytes_eq hlen hnear hpos]
  · have hlen : 4 ≤ len := by omega
    have hfar : dist ≤ 65535 := by omega
    simp [hnear, AsmToken.bytes, AsmToken.payload, AsmToken.legal, hlen, hpos, hfar,
      emitMfBytes_eq hlen hfar]

/-! ### What tokens expand to -/

theorem assemble_append (ts us : List AsmToken) :
    assemble (ts ++ us) = assemble ts ++ assemble us := by
  induction ts with
  | nil => rfl
  | cons t ts ih => simp [assemble, ih]

theorem expandTokens_append {out out' : List Byte} {ts : List AsmToken} (us : List AsmToken)
    (h : expandTokens out ts = some out') : expandTokens out (ts ++ us) = expandTokens out' us := by
  induction ts generalizing out with
  | nil => rw [Option.some.inj h]; rfl
  | cons t ts ih =>
    rw [expandTokens] at h
    split at h
    next hlegal => rw [List.cons_append, expandTokens, if_pos hlegal, ih h]
    next => cases h

/-- The tokens of `LITS` append the run (30_encoding.md R106). -/
theorem expandTokens_asmLitsLoop {fuel : Nat} {run : List Byte} (out : List Byte)
    (h : run.length ≤ fuel) : expandTokens out (asmLitsLoop fuel run) = some (out ++ run) := by
  induction fuel generalizing run out with
  | zero =>
    obtain rfl := List.length_eq_zero_iff.1 (Nat.le_zero.1 h)
    simp [asmLitsLoop, expandTokens]
  | succ fuel ih =>
    unfold asmLitsLoop
    split
    next hnil => simp [hnil, expandTokens]
    next hne =>
      have hpos : 0 < run.length := List.length_pos_iff.2 hne
      have hlegal : (AsmToken.lit (run.take 318)).legal = true := by
        simp [AsmToken.legal]
        omega
      have hdrop : (run.drop 318).length ≤ fuel := by
        rw [List.length_drop]
        omega
      rw [expandTokens, if_pos ⟨hlegal, Nat.zero_le _⟩, ih _ hdrop, AsmToken.expand,
        List.append_assoc, List.take_append_drop]

theorem expandTokens_asmLits (out run : List Byte) :
    expandTokens out (asmLits run) = some (out ++ run) :=
  expandTokens_asmLitsLoop out (Nat.le_refl _)

theorem expandTokens_asmMatch {out : List Byte} {len dist : Nat}
    (hlegal : (asmMatch len dist).legal = true) (hdist : dist ≤ out.length) :
    expandTokens out [asmMatch len dist] = some (repeatBack dist len out) := by
  have hd : (asmMatch len dist).dist = dist := by
    unfold asmMatch
    split <;> rfl
  have hexp : (asmMatch len dist).expand out = repeatBack dist len out := by
    unfold asmMatch
    split <;> rfl
  rw [expandTokens, if_pos ⟨hlegal, hd.symm ▸ hdist⟩, hexp]
  rfl

/-- Bytes that repeat the ones `d` before them are what a match token produces. -/
theorem repeatBack_readBytes (m : Memory) {d i n : Nat} (hpos : 1 ≤ d) (hd : d ≤ i)
    (h : ∀ j, j < n → m.read (i + j) = m.read (i + j - d)) :
    repeatBack d n (m.readBytes 0 i) = m.readBytes 0 (i + n) := by
  induction n generalizing i with
  | zero => rfl
  | succ n ih =>
    have hnext : m.readBytes 0 (i + 1) = m.readBytes 0 i ++ [m.read (i - d)] := by
      have h0 := h 0 (Nat.succ_pos n)
      rw [Nat.add_zero] at h0
      rw [Memory.readBytes_append, Nat.zero_add, ← h0]
      rfl
    rw [repeatBack, Memory.readBytes_length, Memory.readBytes_getD _ _ _ _ _ (by omega),
      Nat.zero_add, ← hnext, ih (by omega), Nat.add_right_comm, Nat.add_assoc]
    intro j hj
    rw [Nat.add_right_comm, Nat.add_assoc]
    exact h (j + 1) (by omega)

end Sys2Proof.Machine
end

section
/-! What the search leaves is a match of the input (40_encoder_match_finder.md R134 to R137), so
what ENC puts out decodes to the input (R145). -/

namespace Sys2Proof.Machine

/-! ### The match found -/

/-- At `i` the input goes on for `len` bytes as it did `dist` bytes before, and a valid match says
so (40_encoder_match_finder.md R134, R135). -/
def Enc.MatchAt (e : Enc) (i len dist : Nat) : Prop :=
  1 ≤ dist ∧ dist ≤ i ∧ validMatch len dist = true ∧ i + len ≤ e.bank.inLen.toNat ∧
    ∀ j, j < len → e.bank.inMem.read (i + j) = e.bank.inMem.read (i + j - dist)

/-- What the walk has kept so far is nothing or a match at I. -/
def Enc.bestOk (e : Enc) : Prop :=
  e.blen = 0#32 ∨ e.MatchAt e.i.toNat e.blen.toNat e.bdist.toNat

/-- The next candidate of the walk is a position before I that is in the index. -/
def Enc.candOk (e : Enc) : Prop :=
  ∀ c, e.cand = some c → c.toNat < e.i.toNat ∧ e.hasKey c.toNat = true

theorem Enc.MatchAt.congr {e e' : Enc} {i len dist : Nat} (h : e.MatchAt i len dist)
    (hbank : e'.bank = e.bank) : e'.MatchAt i len dist := by
  unfold Enc.MatchAt
  rwa [hbank]

theorem Enc.read_agree (e : Enc) {c i n j : Nat} (h : j < e.agree c i n) :
    e.bank.inMem.read (c + j) = e.bank.inMem.read (i + j) := by
  induction n generalizing c i j with
  | zero => cases h
  | succ n ih =>
    unfold Enc.agree at h
    split at h
    next heq =>
      cases j with
      | zero => exact heq
      | succ j =>
        have := ih (c := c + 1) (i := i + 1) (j := j) (by omega)
        rwa [Nat.add_right_comm, Nat.add_right_comm i] at this
    next => cases h

/-- A candidate in the window with a valid length is a match at `i`. -/
theorem Enc.matchAt_of_candidate {e : Enc} {c i : Nat} (hc : c < i) (hi : i < e.bank.inLen.toNat)
    (hv : validMatch (e.matchLen c i) (i - c) = true) :
    e.MatchAt i (e.matchLen c i) (i - c) := by
  have hle : e.matchLen c i ≤ e.bank.inLen.toNat - i := e.agree_le _ _ _
  refine ⟨by omega, by omega, hv, by omega, fun j hj => ?_⟩
  rw [show i + j - (i - c) = c + j by omega]
  exact (e.read_agree hj).symm

theorem Enc.examine_bestOk {e : Enc} {c : Word} (hc : c.toNat < e.i.toNat)
    (hi : e.i.toNat < e.bank.inLen.toNat) (hwin : e.i.toNat - c.toNat ≤ 65535)
    (hbest : e.bestOk) : (e.examine c).bestOk := by
  have hle : e.matchLen c.toNat e.i.toNat ≤ e.bank.inLen.toNat - e.i.toNat := e.agree_le _ _ _
  have hlt := e.bank.inLen.isLt
  unfold Enc.examine
  dsimp only
  split
  next h =>
    have hm := Enc.matchAt_of_candidate hc hi h.1
    refine .inr ?_
    show e.MatchAt e.i.toNat (toWord (e.matchLen c.toNat e.i.toNat)).toNat
      (BitVec.ofNat 16 (e.i.toNat - c.toNat)).toNat
    rwa [toWord_toNat_of_lt (by omega), BitVec.toNat_ofNat, Nat.mod_eq_of_lt (by omega)]
  next => exact hbest

/-- Behind a candidate in the window the chain goes on in the index (40_encoder_match_finder.md
R143). -/
theorem Enc.examine_candOk {e : Enc} {c : Word} (hidx : e.indexOk) (hc : c.toNat < e.i.toNat)
    (hk : e.hasKey c.toNat = true) (hwin : e.i.toNat - c.toNat ≤ 65535) :
    (e.examine c).candOk := by
  obtain ⟨-, hprevs⟩ := hidx
  obtain ⟨hbank, hi, -, -⟩ := e.examine_frame c
  intro c' hc'
  have hnext : (e.examine c).cand = e.prev.read (prevSlot c.toNat) := rfl
  rw [hnext, hprevs c.toNat hc hk (by omega)] at hc'
  obtain ⟨hlt, hkey, -⟩ := Enc.lastInserted_eq_some (Nat.le_of_lt c.isLt) hc'
  rw [hi, Enc.hasKey_iff, hbank, ← Enc.hasKey_iff]
  exact ⟨Nat.lt_trans hlt hc, hkey⟩

theorem Enc.walk_bestOk {e : Enc} (fuel : Nat) (hi : e.i.toNat < e.bank.inLen.toNat)
    (hidx : e.indexOk) (hcand : e.candOk) (hbest : e.bestOk) : (Enc.walk fuel e).bestOk := by
  induction fuel generalizing e with
  | zero => exact hbest
  | succ fuel ih =>
    unfold Enc.walk
    split
    · exact hbest
    next c hce =>
      obtain ⟨hc, hk⟩ := hcand c hce
      obtain ⟨hbank, hexi, -, -⟩ := e.examine_frame c
      split
      next h =>
        obtain ⟨hwin, -⟩ := h
        exact ih (by rwa [hexi, hbank]) (Enc.examine_indexOk c hidx)
          (Enc.examine_candOk hidx hc hk hwin) (Enc.examine_bestOk hc hi hwin hbest)
      next => exact hbest

theorem Enc.walkStart_candOk {e : Enc} (hidx : e.indexOk) : e.walkStart.candOk := by
  obtain ⟨hheads, -⟩ := hidx
  intro c hc
  have hstart : e.walkStart.cand = e.head.read (e.hash3 e.i.toNat).toNat := rfl
  rw [hstart, hheads] at hc
  obtain ⟨hlt, hk, -⟩ := Enc.lastInserted_eq_some (Nat.le_of_lt e.i.isLt) hc
  exact ⟨hlt, hk⟩

/-- A match that the search leaves is a match of the input at I. -/
theorem Enc.search_matchAt {e : Enc} (hi : e.i.toNat < e.bank.inLen.toNat) (hidx : e.indexOk)
    (hne : e.search.blen ≠ 0#32) :
    e.MatchAt e.i.toNat e.search.blen.toNat e.search.bdist.toNat := by
  obtain ⟨-, h⟩ | ⟨-, h⟩ := Enc.search_cases hi <;> rw [h] at hne ⊢
  · have hidx' : e.walkStart.indexOk := Enc.indexBefore_congr hidx rfl rfl rfl rfl
    have hbest : e.findMatch.bestOk :=
      Enc.walk_bestOk (e := e.walkStart) Config.maxChain hi hidx' (Enc.walkStart_candOk hidx)
        (.inl rfl)
    obtain ⟨-, hfi, -⟩ := Enc.walk_frame Config.maxChain e.walkStart
    have hm : e.findMatch.MatchAt e.walkStart.i.toNat _ _ := hfi ▸ hbest.resolve_left hne
    exact hm.congr e.findMatch_bank.symm
  · exact absurd rfl hne

/-! ### The output so far -/

theorem Memory.readBytes_writeBytes (m : Memory) (n : Nat) (vs : List Byte) :
    (m.writeBytes n vs).readBytes 0 (n + vs.length) = m.readBytes 0 n ++ vs := by
  rw [Memory.readBytes_append]
  congr 1
  · refine Memory.readBytes_congr fun j hj => ?_
    rw [Memory.read_writeBytes, if_neg (by omega)]
  · refine List.ext_getElem (by simp) fun j hj hj' => ?_
    rw [← List.getD_eq_getElem _ 0 hj, ← List.getD_eq_getElem _ 0 hj',
      Memory.readBytes_getD _ _ _ _ _ hj', Memory.read_writeBytes,
      if_pos (by omega)]
    congr 1
    omega

/-- Tokens that expand the decoded input further, put out behind the ones before them. -/
theorem Enc.prefixOk_extend {e e' : Enc} {us : List AsmToken} (hp : e.prefixOk)
    (hfit : e.fits (assemble us)) (hop : e'.op = (e.afterOutput (assemble us)).op)
    (hout : e'.bank.outMem = (e.afterOutput (assemble us)).bank.outMem)
    (hin : e'.bank.inMem = e.bank.inMem)
    (hus : expandTokens (e.bank.inMem.readBytes 0 e.ls.toNat) us
      = some (e.bank.inMem.readBytes 0 e'.ls.toNat)) : e'.prefixOk := by
  obtain ⟨ts, hbytes, hts⟩ := hp
  refine ⟨ts ++ us, ?_, by rw [expandTokens_append us hts, hin, hus]⟩
  rw [Bank.outputBytes, hout, hop, Enc.afterOutput_op hfit, Enc.afterOutput_outMem,
    Memory.readBytes_writeBytes, assemble_append, ← hbytes]
  rfl

/-- The pending run as literals decodes to the input up to its end. -/
theorem Enc.expand_flush (e : Enc) {n : Nat} (h : e.ls.toNat ≤ n) :
    expandTokens (e.bank.inMem.readBytes 0 e.ls.toNat)
      (asmLits (e.bank.inMem.readBytes e.ls.toNat (n - e.ls.toNat)))
      = some (e.bank.inMem.readBytes 0 n) := by
  have hsplit := e.bank.inMem.readBytes_append 0 e.ls.toNat (n - e.ls.toNat)
  rw [Nat.zero_add, Nat.add_sub_of_le h] at hsplit
  rw [expandTokens_asmLits, hsplit]

/-- The pending run and the match behind it decode to the input up to the end of the match. -/
theorem Enc.expand_match {e : Enc} {i len dist : Nat} (h : e.ls.toNat ≤ i)
    (hm : e.MatchAt i len dist) :
    expandTokens (e.bank.inMem.readBytes 0 e.ls.toNat)
      (asmLits (e.bank.inMem.readBytes e.ls.toNat (i - e.ls.toNat)) ++ [asmMatch len dist])
      = some (e.bank.inMem.readBytes 0 (i + len)) := by
  obtain ⟨hpos, hdist, hv, -, hrep⟩ := hm
  obtain ⟨-, hlegal⟩ := emitMatchBytes_eq hv hpos
  rw [expandTokens_append _ (e.expand_flush h), expandTokens_asmMatch hlegal (by simpa using hdist),
    repeatBack_readBytes _ hpos hdist hrep]

theorem Enc.flushBytes_match {e : Enc} {i len dist : Nat} (hm : e.MatchAt i len dist) :
    e.flushBytes i ++ emitMatchBytes len dist
      = assemble (asmLits (e.bank.inMem.readBytes e.ls.toNat (i - e.ls.toNat)) ++
          [asmMatch len dist]) := by
  obtain ⟨hpos, -, hv, -, -⟩ := hm
  obtain ⟨hbytes, -⟩ := emitMatchBytes_eq hv hpos
  rw [assemble_append, hbytes, Enc.flushBytes]
  simp [assemble]

/-- A turn that goes on keeps the output a token sequence that decodes to the input before the
pending run. -/
theorem Enc.turn_prefixOk {e : Enc} (hb : e.bank.status = .busy) (hc : e.callOk) (hidx : e.indexOk)
    (hp : e.prefixOk) (hb' : e.turn.bank.status = .busy) : e.turn.prefixOk := by
  have hst : e.turn.bank.status ≠ .fault .outputOverrun := by simp [hb']
  obtain ⟨-, h⟩ | ⟨hi, -, h⟩ | ⟨hi, hne, h⟩ := Enc.turn_cases hb hc
  · obtain ⟨-, hturn⟩ := h.of_no_overrun hst
    rw [hturn] at hb'
    cases hb'
  · rw [h]
    unfold Enc.prefixOk at hp ⊢
    simpa [Enc.search_bank] using hp
  · obtain ⟨hfit, hturn⟩ := h.of_no_overrun hst
    obtain ⟨hls, -, -⟩ := hc
    have hm := Enc.search_matchAt hi hidx hne
    have hlen := e.search_blen_le
    rw [Enc.flushBytes_match hm] at hfit hturn
    rw [hturn]
    refine Enc.prefixOk_extend hp hfit ?_ ?_ ?_ ?_
    · simp [Enc.cover_op, Enc.afterOutput]
    · simp [Enc.cover_bank, Enc.search_bank]
    · simp [Enc.cover_bank, Enc.search_bank]
    · rw [Enc.expand_match hls hm, Enc.cover_ls, Enc.cover_i]
      · simp
      · simp [Enc.search_bank]
        omega

/-- A call that ends in DONE has put out a well-formed stream of the whole input. -/
theorem Enc.turn_wellFormed {e : Enc} (hb : e.bank.status = .busy) (hc : e.callOk)
    (hp : e.prefixOk) (hd : e.turn.bank.status = .done) :
    WellFormedStream (e.turn.bank.outputBytes e.turn.bank.outLen.toNat) e.bank.inputBytes := by
  have hst : e.turn.bank.status ≠ .fault .outputOverrun := by simp [hd]
  obtain ⟨-, h⟩ | ⟨hi, -, h⟩ | ⟨hi, hne, h⟩ := Enc.turn_cases hb hc
  · obtain ⟨hfit, hturn⟩ := h.of_no_overrun hst
    obtain ⟨hls, hi, -⟩ := hc
    obtain ⟨ts, hbytes, hts⟩ := hp
    refine ⟨ts ++ asmLits (e.bank.inMem.readBytes e.ls.toNat (e.bank.inLen.toNat - e.ls.toNat)),
      .endV 1#6, ?_, rfl, ?_⟩
    · have hop := Enc.afterOutput_op hfit
      rw [hturn]
      show (e.afterOutput _).bank.outMem.readBytes 0 (e.afterOutput _).op.toNat = _
      rw [hop, Enc.afterOutput_outMem, Memory.readBytes_writeBytes, assembleStream, assemble_append,
        ← hbytes, List.append_assoc]
      rfl
    · rw [expandTokens_append _ hts, e.expand_flush (Nat.le_trans hls hi)]
      rfl
  · rw [h] at hd
    simp [Enc.search_bank, hb] at hd
  · obtain ⟨-, hturn⟩ := h.of_no_overrun hst
    rw [hturn] at hd
    simp [Enc.cover_bank, Enc.search_bank, hb] at hd

theorem Enc.started_prefixOk {e : Enc} (hs : e.started) : e.prefixOk := by
  obtain ⟨-, -, hls, hop, -⟩ := hs
  exact ⟨[], by rw [hop]; rfl, by rw [hls]; rfl⟩

/-- Settles O38: at START nothing is put out; a turn puts out the pending run as literals and a
match that the input repeats, or the end marker behind the rest of the input. -/
theorem encoderOutputDecodesToItsInput : Obligations.EncoderOutputDecodesToItsInput := by
  unfold Obligations.EncoderOutputDecodesToItsInput
  exact ⟨fun _ hs => Enc.started_prefixOk hs, fun _ hb hc _ hidx hp =>
    ⟨Enc.turn_prefixOk hb hc hidx hp, Enc.turn_wellFormed hb hc hp⟩⟩

end Sys2Proof.Machine
end

section
/-! DEC's bounds (10_state.md R37, the DEC lines): what a parse leaves of the cursors and of CNT,
and what a copy leaves of them. -/

namespace Sys2Proof.Machine

/-! ### The parse -/

/-- An operation of DEC's parser answers what `P` says of it, or has raised INPUT_OVERRUN
(42_decoder_token_parser.md R191). -/
def Parses {α : Type} (r : Except Dec α) (P : α → Prop) : Prop :=
  (∃ a, r = .ok a ∧ P a) ∨ ∃ d', r = .error d' ∧ d'.bank.status = .fault .inputOverrun

/-- From `d` to `d'` only bytes of the stream have been taken: IP has moved forward within IN_LEN.
-/
def Dec.Advances (d d' : Dec) : Prop :=
  d'.bank = d.bank ∧ d'.op = d.op ∧ d.ip.toNat ≤ d'.ip.toNat ∧
    d'.ip.toNat ≤ d.bank.inLen.toNat

theorem Dec.Advances.trans {d d' d'' : Dec} (h : d.Advances d') (h' : d'.Advances d'') :
    d.Advances d'' := by
  obtain ⟨hbank, hop, hle, -⟩ := h
  obtain ⟨hbank', hop', hle', hlen⟩ := h'
  exact ⟨hbank'.trans hbank, hop'.trans hop, Nat.le_trans hle hle', by rwa [hbank] at hlen⟩

theorem Dec.nextByte_parses (d : Dec) :
    Parses d.nextByte fun (_, d') =>
      d.Advances d' ∧ d'.ip.toNat = d.ip.toNat + 1 ∧ d'.cnt = d.cnt := by
  unfold Dec.nextByte
  by_cases h : d.bank.inLen.toNat ≤ d.ip.toNat
  · exact .inr ⟨d.raise .inputOverrun, if_pos h, rfl⟩
  · have hlt := d.bank.inLen.isLt
    have hip : (toWord (d.ip.toNat + 1)).toNat = d.ip.toNat + 1 := toWord_toNat_of_lt (by omega)
    refine .inl ⟨_, if_neg h, ⟨rfl, rfl, ?_, ?_⟩, hip, rfl⟩
    · show _ ≤ (toWord (d.ip.toNat + 1)).toNat
      omega
    · show (toWord (d.ip.toNat + 1)).toNat ≤ _
      omega

/-- Each continuation byte adds at most 255 to the sum (42_decoder_token_parser.md R192). -/
theorem Dec.readExtLoop_parses (fuel sum : Nat) (d : Dec) :
    Parses (Dec.readExtLoop fuel sum d) fun (e, d') =>
      d.Advances d' ∧ e ≤ sum + 255 * (d'.ip.toNat - d.ip.toNat) := by
  induction fuel generalizing sum d with
  | zero => exact .inr ⟨_, rfl, rfl⟩
  | succ fuel ih =>
    unfold Dec.readExtLoop
    obtain ⟨⟨g, d'⟩, hbyte, hadv, hip, -⟩ | ⟨d', hbyte, hst⟩ := d.nextByte_parses
    · have hg : g.toNat ≤ 255 := Nat.le_of_lt_succ g.isLt
      rw [hbyte]
      dsimp only
      split
      · obtain ⟨⟨e, d''⟩, hloop, hadv', he⟩ | herr := ih (sum + g.toNat) d'
        · have ⟨_, _, hle, _⟩ := hadv'
          exact .inl ⟨_, hloop, hadv.trans hadv', by dsimp only at *; omega⟩
        · exact .inr herr
      · exact .inl ⟨_, rfl, hadv, by dsimp only at *; omega⟩
    · exact .inr ⟨d', by rw [hbyte], hst⟩

/-- CNT after a class's count has been read: a base and at most 255 for each byte taken. -/
theorem Dec.readCount_parses (d : Dec) (escaped : Bool) {inline base : Nat} (h : inline ≤ base)
    (hip : d.ip.toNat ≤ d.bank.inLen.toNat) :
    Parses (d.readCount escaped inline base) fun d' =>
      d.Advances d' ∧ d'.cnt.toNat ≤ base + 255 * (d'.ip.toNat - d.ip.toNat) := by
  have hcnt (n : Nat) : (BitVec.ofNat 40 n).toNat ≤ n := Nat.mod_le _ _
  unfold Dec.readCount Dec.readExt
  split
  · obtain ⟨⟨e, d'⟩, hext, hadv, he⟩ | ⟨d', hext, hst⟩ :=
      Dec.readExtLoop_parses (d.bank.inLen.toNat - d.ip.toNat + 1) 0 d
    all_goals rw [hext]
    · refine .inl ⟨_, rfl, hadv, Nat.le_trans (hcnt _) ?_⟩
      dsimp only at he ⊢
      omega
    · exact .inr ⟨d', rfl, hst⟩
  · exact .inl ⟨_, rfl, ⟨rfl, rfl, Nat.le_refl _, hip⟩, Nat.le_trans (hcnt _) (by omega)⟩

/-- What a parse that has read `d'` from `d` leaves (10_state.md R37). -/
def Dec.Parsed (d d' : Dec) : Prop :=
  d.Advances d' ∧ d'.cnt.toNat ≤ 67 + 255 * (d'.ip.toNat - d.ip.toNat) ∧
    (d'.phase = .cm → 1 ≤ d'.dist.toNat ∧ d'.dist.toNat ≤ 65535)

theorem Dec.parseLit_parses (d : Dec) (c : Byte) (hip : d.ip.toNat ≤ d.bank.inLen.toNat) :
    Parses (d.parseLit c) d.Parsed := by
  unfold Dec.parseLit
  dsimp only
  obtain ⟨d', hcount, hadv, hcnt⟩ | ⟨d', hcount, hst⟩ :=
    d.readCount_parses (c.toNat % 64 == 0) (inline := c.toNat % 64) (base := 64) (by omega) hip
  all_goals rw [hcount]
  · refine .inl ⟨_, rfl, hadv, ?_, fun h => by cases h⟩
    dsimp only
    omega
  · exact .inr ⟨d', rfl, hst⟩

theorem Dec.parseMs_parses (d : Dec) (c : Byte) (hip : d.ip.toNat ≤ d.bank.inLen.toNat) :
    Parses (d.parseMs c) d.Parsed := by
  unfold Dec.parseMs
  dsimp only
  obtain ⟨d₁, hcount, hadv, hcnt⟩ | ⟨d', hcount, hst⟩ :=
    d.readCount_parses (c.toNat / 8 % 16 == 0) (inline := c.toNat / 8 % 16 + 2) (base := 18)
      (by omega) hip
  all_goals rw [hcount]
  · dsimp only
    obtain ⟨⟨dh, d₂⟩, hbyte, hadv₂, hip₂, hcnt₂⟩ | ⟨d', hbyte, hst⟩ := d₁.nextByte_parses
    all_goals rw [hbyte]
    · have hdh := dh.isLt
      refine .inl ⟨_, rfl, hadv.trans hadv₂, ?_, fun _ => ?_⟩ <;> dsimp only at hip₂ hcnt₂ ⊢
      · rw [hcnt₂]
        omega
      · rw [BitVec.toNat_ofNat]
        omega
    · exact .inr ⟨d', rfl, hst⟩
  · exact .inr ⟨d', rfl, hst⟩

theorem Dec.parseMf_parses (d : Dec) (c : Byte) (hip : d.ip.toNat ≤ d.bank.inLen.toNat) :
    Parses (d.parseMf c) d.Parsed := by
  unfold Dec.parseMf
  dsimp only
  obtain ⟨d₁, hcount, hadv, hcnt⟩ | ⟨d', hcount, hst⟩ :=
    d.readCount_parses (c.toNat % 64 == 0) (inline := c.toNat % 64 + 3) (base := 67)
      (by omega) hip
  all_goals rw [hcount]
  · dsimp only
    obtain ⟨⟨lo, d₂⟩, hbyte, hadv₂, hip₂, hcnt₂⟩ | ⟨d', hbyte, hst⟩ := d₁.nextByte_parses
    all_goals rw [hbyte]
    · dsimp only
      obtain ⟨⟨hi, d₃⟩, hbyte', hadv₃, hip₃, hcnt₃⟩ | ⟨d', hbyte', hst⟩ := d₂.nextByte_parses
      all_goals rw [hbyte']
      · have hlo := lo.isLt
        have hhi := hi.isLt
        refine .inl ⟨_, rfl, (hadv.trans hadv₂).trans hadv₃, ?_, fun hcm => ?_⟩
          <;> dsimp only at hip₂ hcnt₂ hip₃ hcnt₃ ⊢
        · rw [hcnt₃, hcnt₂]
          omega
        · have hreal : lo.toNat + hi.toNat * 256 ≠ 65535 := fun hend => by
            simp [hend] at hcm
          rw [BitVec.toNat_ofNat]
          omega
      · exact .inr ⟨d', rfl, hst⟩
    · exact .inr ⟨d', rfl, hst⟩
  · exact .inr ⟨d', rfl, hst⟩

/-- ReadToken takes at least its control byte, and the rest of its header lies behind that. -/
theorem Dec.readToken_parses (d : Dec) :
    Parses d.readToken fun d' => d.Advances d' ∧
      d'.cnt.toNat ≤ 67 + 255 * (d.bank.inLen.toNat - 1) ∧
      (d'.phase = .cm → 1 ≤ d'.dist.toNat ∧ d'.dist.toNat ≤ 65535) := by
  unfold Dec.readToken
  obtain ⟨⟨c, d₁⟩, hbyte, hadv, hip, -⟩ | ⟨d', hbyte, hst⟩ := d.nextByte_parses
  all_goals rw [hbyte]
  · dsimp only at hadv hip ⊢
    have ⟨hbank, _, _, hlen⟩ := hadv
    have hle : d₁.ip.toNat ≤ d₁.bank.inLen.toNat := by rwa [hbank]
    have hparse : Parses (if c.toNat / 64 = 0 then d₁.parseLit c
        else if c.toNat / 64 = 1 then d₁.parseMf c else d₁.parseMs c) d₁.Parsed := by
      split
      · exact d₁.parseLit_parses c hle
      · split
        · exact d₁.parseMf_parses c hle
        · exact d₁.parseMs_parses c hle
    obtain ⟨d', hd', hadv', hcnt, hdist⟩ | herr := hparse
    · have ⟨_, _, _, hlen'⟩ := hadv'
      rw [hbank] at hlen'
      exact .inl ⟨d', hd', hadv.trans hadv', by omega, hdist⟩
    · exact .inr herr
  · exact .inr ⟨d', rfl, hst⟩

/-! ### The phases -/

/-- The cursors of DEC are within their bounds and OUT below OP is written: what `callOk` asks of
every phase (10_state.md R37). -/
def Dec.cursorsOk (d : Dec) : Prop :=
  d.ip.toNat ≤ d.bank.inLen.toNat ∧ d.op.toNat ≤ d.bank.outCap.toNat ∧
    ∀ a < d.op.toNat, (d.bank.outMem.written a).isSome = true

theorem Dec.callOk.cursorsOk {d : Dec} (h : d.callOk) : d.cursorsOk := by
  obtain ⟨hip, hop, hw, -⟩ := h
  exact ⟨hip, hop, hw⟩

/-- Between tokens the cursors are all there is to bound (log entry 19). -/
theorem Dec.cursorsOk.callOk {d : Dec} (h : d.cursorsOk) (hp : d.phase = .rt) : d.callOk := by
  obtain ⟨hip, hop, hw⟩ := h
  exact ⟨hip, hop, hw, fun hne => absurd hp hne, fun hcm => by rw [hp] at hcm; cases hcm⟩

/-- After a phase DEC is between tokens with its cursors in bounds, or the call has ended. -/
def Dec.phaseDone (d : Dec) : Prop := d.bank.status = .busy → d.cursorsOk ∧ d.phase = .rt

theorem Dec.phaseDone_raise (d : Dec) (k : ErrKind) : (d.raise k).phaseDone := by
  intro h
  cases h

theorem Dec.copyLiteral_phaseDone {d : Dec} (h : d.cursorsOk) : d.copyLiteral.phaseDone := by
  obtain ⟨hip, hop, hw⟩ := h
  have hlen := d.bank.inLen.isLt
  have hcap := d.bank.outCap.isLt
  obtain ⟨-, h⟩ | ⟨-, -, h⟩ | ⟨hin, hout, h⟩ := d.copyLiteral_cases <;> rw [h]
  · exact d.phaseDone_raise _
  · exact d.phaseDone_raise _
  · refine fun _ => ⟨⟨?_, ?_, fun a ha => ?_⟩, rfl⟩ <;> dsimp only at *
    · rw [toWord_toNat_of_lt (by omega)]
      omega
    · rw [toWord_toNat_of_lt (by omega)]
      omega
    · rw [toWord_toNat_of_lt (by omega)] at ha
      rw [Memory.written_writeBytes, Memory.readBytes_length, Bool.or_eq_true, decide_eq_true_iff]
      by_cases hlt : a < d.op.toNat
      · exact .inr (hw a hlt)
      · exact .inl (by omega)

theorem Dec.copyMatch_phaseDone {d : Dec} (h : d.cursorsOk) : d.copyMatch.phaseDone := by
  obtain ⟨hip, hop, hw⟩ := h
  have hcap := d.bank.outCap.isLt
  obtain ⟨-, h⟩ | ⟨-, -, h⟩ | ⟨-, hout, h⟩ := d.copyMatch_cases <;> rw [h]
  · exact d.phaseDone_raise _
  · exact d.phaseDone_raise _
  · refine fun _ => ⟨⟨hip, ?_, fun a ha => ?_⟩, rfl⟩ <;> dsimp only at *
    · rw [toWord_toNat_of_lt (by omega)]
      omega
    · rw [toWord_toNat_of_lt (by omega)] at ha
      rw [Memory.written_copyBack, Bool.or_eq_true, decide_eq_true_iff]
      by_cases hlt : a < d.op.toNat
      · exact .inr (hw a hlt)
      · exact .inl (by omega)

theorem Dec.finish_phaseDone (d : Dec) : d.finish.phaseDone := by
  obtain ⟨-, h⟩ | ⟨-, h⟩ := d.finish_cases <;> rw [h] <;> intro hb <;> cases hb

/-- Settles O19, by the phase: ReadToken takes only bytes of the stream and at most 255 for each
into CNT; each other phase ends the call or leaves DEC between tokens. -/
theorem phaseStepKeepsTheDecoderBounds : Obligations.PhaseStepKeepsTheDecoderBounds := by
  unfold Obligations.PhaseStepKeepsTheDecoderBounds
  intro d _ hc hb'
  have hcur := Dec.callOk.cursorsOk hc
  have hdone {d' : Dec} (h : d'.phaseDone) (hb : d'.bank.status = .busy) : d'.callOk := by
    obtain ⟨hcur', hrt⟩ := h hb
    exact hcur'.callOk hrt
  unfold Dec.decStep at hb' ⊢
  cases hp : d.phase with
  | rt =>
    obtain ⟨hip, hop, hw⟩ := hcur
    obtain ⟨d', hread, ⟨hbank, hop', -, hip'⟩, hcnt, hdist⟩ | ⟨d', hread, hst⟩ := d.readToken_parses
    all_goals simp only [hp, hread] at hb' ⊢
    · unfold Dec.callOk
      rw [hbank, hop']
      exact ⟨hip', hop, hw, fun _ => hcnt, hdist⟩
    · rw [hst] at hb'
      cases hb'
  | cl =>
    simp only [hp] at hb' ⊢
    exact hdone (Dec.copyLiteral_phaseDone hcur) hb'
  | cm =>
    simp only [hp] at hb' ⊢
    exact hdone (Dec.copyMatch_phaseDone hcur) hb'
  | dn =>
    simp only [hp] at hb' ⊢
    exact hdone d.finish_phaseDone hb'

end Sys2Proof.Machine
end

section
/-! How many bytes a token's header takes from the stream (30_encoding.md R99). -/

namespace Sys2Proof

theorem decodeExt_length {bytes rest : List Byte} {e : Nat} (h : decodeExt bytes = some (e, rest)) :
    bytes.length = extLen e + rest.length := by
  induction bytes generalizing e with
  | nil => cases h
  | cons g bytes ih =>
    unfold decodeExt at h
    split at h
    · split at h
      · cases h
      next e' rest' hrest =>
        cases h
        rw [List.length_cons, ih hrest, extLen, extLen]
        omega
    next hlast =>
      cases h
      have hg := g.isLt
      have hne : g.toNat ≠ 255 := fun hc => hlast (BitVec.eq_of_toNat_eq hc)
      rw [List.length_cons, extLen, Nat.div_eq_of_lt (by omega)]
      omega

theorem decodeLit_length {c : Byte} {bytes rest : List Byte} {i : Instr}
    (h : decodeLit c bytes = .ok (i, rest)) : bytes.length + 1 = headerLen i + rest.length := by
  unfold decodeLit at h
  dsimp only at h
  split at h
  · split at h
    · cases h
    next hext =>
      cases h
      rw [decodeExt_length hext, headerLen]
      omega
  · cases h
    exact Nat.add_comm _ _

theorem decodeMs_length {c : Byte} {bytes rest : List Byte} {i : Instr}
    (h : decodeMs c bytes = .ok (i, rest)) : bytes.length + 1 = headerLen i + rest.length := by
  unfold decodeMs at h
  dsimp only at h
  split at h
  · split at h
    · cases h
    · cases h
    next hext =>
      cases h
      rw [decodeExt_length hext, headerLen, List.length_cons]
      omega
  · split at h
    · cases h
    · cases h
      rw [headerLen, List.length_cons]
      omega

theorem decodeMf_length {c : Byte} {bytes rest : List Byte} {i : Instr}
    (h : decodeMf c bytes = .ok (i, rest)) : bytes.length + 1 = headerLen i + rest.length := by
  unfold decodeMf at h
  dsimp only at h
  split at h
  · split at h
    · cases h
    next hext =>
      cases h
      rw [decodeExt_length hext]
      split <;> simp only [headerLen, List.length_cons, if_true] <;> omega
    · cases h
  next hv =>
    split at h
    · cases h
      split <;> simp only [headerLen, List.length_cons, if_neg hv] <;> omega
    · cases h

/-- A header that decodes lies in the bytes it is decoded from. -/
theorem decodeHeader_length {bytes rest : List Byte} {i : Instr}
    (h : decodeHeader bytes = .ok (i, rest)) : bytes.length = headerLen i + rest.length := by
  unfold decodeHeader at h
  split at h
  · cases h
  · rw [List.length_cons]
    split at h
    · exact decodeLit_length h
    · split at h
      · exact decodeMf_length h
      · exact decodeMs_length h

end Sys2Proof
end

section
/-! DEC's part of the machine's invariant (10_state.md R37, 20_memory.md R60, R65): every turn of
DEC keeps it. -/

namespace Sys2Proof.Machine

/-! ### The memories of a bank -/

theorem Bank.memoryOk_raise {b : Bank} {inSize outSize : Word} (g : Engine) (k : ErrKind)
    (h : b.memoryOk inSize outSize) : (b.raise g k).memoryOk inSize outSize := by
  obtain ⟨hin, -, hinlt, -, hdraw, -⟩ := h
  exact ⟨hin, Memory.wf_unspecified _ _ _, hinlt, fun _ hc => (List.not_mem_nil hc).elim,
    Nat.lt_succ_of_lt hdraw, Nat.lt_succ_self _⟩

/-- OUT may be replaced by a memory of the same batch that is in form and within its size. -/
theorem Bank.memoryOk_withOut {b : Bank} {inSize outSize : Word} {m : Memory}
    (h : b.memoryOk inSize outSize) (hwf : m.wf) (hlt : ∀ c ∈ m.cells, c.1 < outSize.toNat)
    (hdraw : m.draw = b.outMem.draw) : Bank.memoryOk { b with outMem := m } inSize outSize := by
  obtain ⟨hin, -, hinlt, -, hind, houtd⟩ := h
  exact ⟨hin, hwf, hinlt, hlt, hind, hdraw ▸ houtd⟩

theorem Bank.memoryOk_afterReset (g : Engine) (k : Nat) (inSize outSize : Word) :
    (Bank.afterReset g k).memoryOk inSize outSize :=
  ⟨Memory.wf_unspecified _ _ _, Memory.wf_unspecified _ _ _,
    fun _ hc => (List.not_mem_nil hc).elim, fun _ hc => (List.not_mem_nil hc).elim,
    Nat.lt_succ_self _, Nat.lt_succ_self _⟩

/-! ### DEC -/

/-- DEC's part of the invariant. -/
def Dec.ok (d : Dec) (inSize outSize : Word) : Prop :=
  d.bank.memoryOk inSize outSize ∧
    (d.bank.status = .busy → d.bank.premises inSize outSize ∧ d.callOk)

/-- What each phase of DEC begins with. -/
def Dec.ready (d : Dec) (inSize outSize : Word) : Prop :=
  d.bank.memoryOk inSize outSize ∧ d.bank.premises inSize outSize ∧ d.cursorsOk

theorem Dec.ok.ready {d : Dec} {inSize outSize : Word} (h : d.ok inSize outSize)
    (hb : d.bank.status = .busy) : d.ready inSize outSize := by
  obtain ⟨hmem, hcall⟩ := h
  obtain ⟨hpre, hc⟩ := hcall hb
  exact ⟨hmem, hpre, Dec.callOk.cursorsOk hc⟩

/-- A phase that leaves the memories in form leaves DEC's part of the invariant. -/
theorem Dec.ready.ok_of_phaseDone {d d' : Dec} {inSize outSize : Word}
    (h : d.ready inSize outSize) (hmem : d'.bank.memoryOk inSize outSize)
    (hargs : SameArguments d.bank d'.bank) (hdone : d'.phaseDone) : d'.ok inSize outSize := by
  obtain ⟨-, hpre, -⟩ := h
  obtain ⟨-, hlen, hcap⟩ := hargs
  refine ⟨hmem, fun hb => ?_⟩
  obtain ⟨hcur, hrt⟩ := hdone hb
  exact ⟨by rw [Bank.premises, hlen, hcap]; exact hpre, hcur.callOk hrt⟩

theorem Dec.copyLiteral_ok {d : Dec} {inSize outSize : Word} (h : d.ready inSize outSize) :
    d.copyLiteral.ok inSize outSize := by
  have ⟨hmem, ⟨_, hcap⟩, hcur⟩ := h
  refine h.ok_of_phaseDone ?_ d.copyLiteral_sameArguments (Dec.copyLiteral_phaseDone hcur)
  have ⟨_, hout, _, houtlt, _, _⟩ := hmem
  obtain ⟨-, hop, -⟩ := hcur
  obtain ⟨-, h⟩ | ⟨-, -, h⟩ | ⟨-, hfit, h⟩ := d.copyLiteral_cases <;> rw [h]
  · exact Bank.memoryOk_raise _ _ hmem
  · exact Bank.memoryOk_raise _ _ hmem
  · refine Bank.memoryOk_withOut hmem (Memory.wf_writeBytes _ _ hout)
      (Memory.cells_writeBytes_lt houtlt ?_) (Memory.writeBytes_draw _ _ _)
    rw [Memory.readBytes_length]
    omega

theorem Dec.copyMatch_ok {d : Dec} {inSize outSize : Word} (h : d.ready inSize outSize) :
    d.copyMatch.ok inSize outSize := by
  have ⟨hmem, ⟨_, hcap⟩, hcur⟩ := h
  refine h.ok_of_phaseDone ?_ d.copyMatch_sameArguments (Dec.copyMatch_phaseDone hcur)
  have ⟨_, hout, _, houtlt, _, _⟩ := hmem
  obtain ⟨-, hop, -⟩ := hcur
  obtain ⟨-, h⟩ | ⟨-, -, h⟩ | ⟨-, hfit, h⟩ := d.copyMatch_cases <;> rw [h]
  · exact Bank.memoryOk_raise _ _ hmem
  · exact Bank.memoryOk_raise _ _ hmem
  · exact Bank.memoryOk_withOut hmem (Memory.wf_copyBack _ _ _ hout)
      (Memory.cells_copyBack_lt houtlt (by omega)) (Memory.copyBack_draw _ _ _ _)

theorem Dec.finish_ok {d : Dec} {inSize outSize : Word} (h : d.ready inSize outSize) :
    d.finish.ok inSize outSize := by
  have ⟨hmem, _, _⟩ := h
  refine h.ok_of_phaseDone ?_ d.finish_sameArguments d.finish_phaseDone
  obtain ⟨-, h⟩ | ⟨-, h⟩ := d.finish_cases <;> rw [h]
  · exact hmem
  · exact Bank.memoryOk_raise _ _ hmem

theorem Dec.headerCut_ok {d : Dec} {inSize outSize : Word} (n : Option Nat)
    (h : d.ready inSize outSize) : (d.headerCut n).ok inSize outSize := by
  have ⟨hmem, _, _⟩ := h
  obtain ⟨c, hcut, -, -⟩ := d.headerCut_eq n
  rw [hcut]
  exact ⟨Bank.memoryOk_raise _ _ hmem, fun hb => by cases hb⟩

/-- A header that lies in the stream moves IP within IN_LEN. -/
theorem Dec.ready.afterHeader {d d' : Dec} {inSize outSize : Word} {n : Nat}
    (h : d.ready inSize outSize) (hn : n ≤ d.bank.inLen.toNat - d.ip.toNat)
    (hbank : d'.bank = d.bank) (hop : d'.op = d.op) (hip : d'.ip = toWord (d.ip.toNat + n)) :
    d'.ready inSize outSize := by
  obtain ⟨hmem, hpre, hcur⟩ := h
  obtain ⟨hle, hout, hw⟩ := hcur
  have hlt := d.bank.inLen.isLt
  refine ⟨hbank ▸ hmem, hbank ▸ hpre, ?_, ?_, ?_⟩
  · rw [hip, hbank, toWord_toNat_of_lt (by omega)]
    omega
  · rwa [hop, hbank]
  · rwa [hop, hbank]

/-- A stream token parses its header and does the phase of its kind (42_decoder_token_parser.md R193
to R196). -/
theorem exec_isToken_cases {i : Instr} (h : i.IsToken) (s : State) :
    (∃ n, exec i s = .next (s.token fun d => (d.parsedLit (headerLen i) n).copyLiteral)) ∨
    (∃ n m, exec i s =
      .next (s.token fun d => (d.parsedMatch (headerLen i) n m .cm).copyMatch)) ∨
    ∃ n m, exec i s = .next (s.token fun d => (d.parsedMatch (headerLen i) n m .dn).finish) := by
  cases i with
  | litX | litI => exact .inl ⟨_, rfl⟩
  | mfX | mfI | msX | msI => exact .inr (.inl ⟨_, _, rfl⟩)
  | endTok => exact .inr (.inr ⟨_, _, rfl⟩)
  | decStart | encStart => exact h.elim

theorem Dec.unread_length (d : Dec) : d.unread.length = d.bank.inLen.toNat - d.ip.toNat :=
  Memory.readBytes_length _ _ _

/-- A token decoded at IP keeps DEC's part of the invariant. -/
theorem exec_token_ok {s t : State} {i : Instr} {rest : List Byte} {inSize outSize : Word}
    (h : s.dec.ok inSize outSize) (hb : s.dec.bank.status = .busy) (hp : s.dec.phase = .rt)
    (hdec : decodeHeader s.dec.unread = .ok (i, rest)) (hexec : exec i s = .next t) :
    t.dec.ok inSize outSize := by
  have hready := h.ready hb
  have hlen := decodeHeader_length hdec
  rw [Dec.unread_length] at hlen
  have hfit : headerLen i ≤ s.dec.bank.inLen.toNat - s.dec.ip.toNat := by omega
  obtain ⟨n, h⟩ | ⟨n, m, h⟩ | ⟨n, m, h⟩ := exec_isToken_cases (decodeHeader_isToken hdec) s <;>
    rw [h, State.token_of_busy _ hb hp] at hexec <;> cases hexec
  · exact Dec.copyLiteral_ok (hready.afterHeader hfit rfl rfl rfl)
  · exact Dec.copyMatch_ok (hready.afterHeader hfit rfl rfl rfl)
  · exact Dec.finish_ok (hready.afterHeader hfit rfl rfl rfl)

theorem State.decTurn_ok {s t : State} {inSize outSize : Word} (h : s.dec.ok inSize outSize)
    (ht : s.decTurn.outcome = .next t) : t.dec.ok inSize outSize := by
  unfold State.decTurn at ht
  split at ht
  next hb =>
    have hready := h.ready hb
    unfold State.busyDecTurn at ht
    split at ht
    next hp =>
      split at ht
      next hdec => exact exec_token_ok h hb hp hdec ht
      · cases ht; exact Dec.headerCut_ok _ hready
      · cases ht; exact h
    · cases ht; exact Dec.copyLiteral_ok hready
    · cases ht; exact Dec.copyMatch_ok hready
    · cases ht; exact Dec.finish_ok hready
  next => cases ht; exact h

theorem Dec.launch_ok {d : Dec} {inSize outSize : Word} (h : d.ok inSize outSize)
    (hpre : d.bank.premises inSize outSize) : d.launch.ok inSize outSize := by
  obtain ⟨hmem, -⟩ := h
  have hcur : d.launch.cursorsOk :=
    ⟨Nat.zero_le _, Nat.zero_le _, fun _ ha => (Nat.not_lt_zero _ ha).elim⟩
  exact ⟨hmem, fun _ => ⟨hpre, hcur.callOk rfl⟩⟩

/-- While DEC is not BUSY its memories are all there is to keep. -/
theorem Dec.ok_of_not_busy {d : Dec} {inSize outSize : Word}
    (hmem : d.bank.memoryOk inSize outSize) (hb : d.bank.status ≠ .busy) : d.ok inSize outSize :=
  ⟨hmem, fun h => absurd h hb⟩

end Sys2Proof.Machine
end

section
/-! ENC's part of the machine's invariant (10_state.md R37, 20_memory.md R60, R65): every turn of
ENC keeps it. -/

namespace Sys2Proof.Machine

/-! ### What an emission keeps -/

/-- `P` holds on through everything an emission does (41_encoder_token_emission.md R160, R163). -/
structure EmissionKeeps (P : Enc → Prop) : Prop where
  raise : ∀ e, P e → P (e.raise .outputOverrun)
  put : ∀ e v, e.op.toNat < e.bank.outCap.toNat → P e → P (e.afterOutput [v])
  moveLs : ∀ e n, P e → P (e.withLs n)

section
variable {P : Enc → Prop}

theorem Emission.andThen_keeps {r : Emission} {f : Enc → Emission} (hr : P r.engine)
    (hf : ∀ e, P e → P (f e).engine) : P (r.andThen f).engine := by
  cases r with
  | ok e => exact hf e hr
  | error e => exact hr

theorem EmissionKeeps.outPutAll (hP : EmissionKeeps P) {e : Enc} (vs : List Byte) (h : P e) :
    P (e.outPutAll vs).engine := by
  induction vs generalizing e with
  | nil => exact h
  | cons v vs ih =>
    refine Emission.andThen_keeps ?_ fun e' => ih
    obtain ⟨-, hput⟩ | ⟨hlt, hput⟩ := e.outPut_cases v <;> rw [hput]
    · exact hP.raise e h
    · exact hP.put e v hlt h

theorem EmissionKeeps.emitLit (hP : EmissionKeeps P) {e : Enc} (start n : Nat) (h : P e) :
    P (e.emitLit start n).engine :=
  Emission.andThen_keeps (hP.outPutAll _ h) fun _ h' => hP.outPutAll _ h'

theorem EmissionKeeps.flushLoop (hP : EmissionKeeps P) (upto fuel : Nat) {e : Enc} (h : P e) :
    P (Enc.flushLoop upto fuel e).engine := by
  induction fuel generalizing e with
  | zero => exact h
  | succ fuel ih =>
    unfold Enc.flushLoop
    split
    · exact Emission.andThen_keeps (hP.emitLit _ _ h) fun e' h' => ih (hP.moveLs e' _ h')
    · exact h

/-- `P` holds on through a turn of ENC, if what the step does besides emissions keeps it too. -/
theorem EmissionKeeps.turn (hP : EmissionKeeps P) (hsearch : ∀ e, P e → P e.search)
    (hliteral : ∀ e, P e → P e.stepLiteral) (hcover : ∀ e, P e → P e.cover)
    (hdone : ∀ e, P e → P e.complete) {e : Enc} (h : P e) : P e.turn := by
  unfold Enc.turn
  split
  · obtain ⟨-, hstep⟩ | ⟨-, -, hstep⟩ | ⟨-, -, hstep⟩ := e.encStep_cases <;> rw [hstep]
    · exact Emission.andThen_keeps
        (Emission.andThen_keeps (hP.flushLoop _ _ h) fun _ h' => hP.outPutAll _ h') hdone
    · exact hliteral _ (hsearch e h)
    · exact Emission.andThen_keeps
        (Emission.andThen_keeps (hP.flushLoop _ _ (hsearch e h)) fun _ h' => hP.outPutAll _ h')
        hcover
  · exact h

end

/-! ### ENC -/

theorem Enc.turn_tablesOk {e : Enc} (ht : e.tablesOk) : e.turn.tablesOk := by
  have hkeeps : EmissionKeeps Enc.tablesOk := ⟨fun _ h => h, fun _ _ _ h => h, fun _ _ h => h⟩
  exact hkeeps.turn (fun _ h => Enc.search_tablesOk h) (fun _ h => h)
    (fun e h => Enc.insertRange_tablesOk (e := e) _ _ h) (fun _ h => h) ht

/-- The memories of ENC are in form, and OUT_CAP is within OUT's size. -/
def Enc.memoryOk (inSize outSize : Word) (e : Enc) : Prop :=
  e.bank.memoryOk inSize outSize ∧ e.bank.outCap.toNat ≤ outSize.toNat

/-- An emission writes OUT below OUT_CAP only (20_memory.md R65). -/
theorem Enc.memoryOk_emission (inSize outSize : Word) :
    EmissionKeeps (Enc.memoryOk inSize outSize) where
  raise := fun _ ⟨hmem, hcap⟩ => ⟨Bank.memoryOk_raise _ _ hmem, hcap⟩
  put := by
    rintro e v hlt ⟨hmem, hcap⟩
    have ⟨_, hout, _, houtlt, _, _⟩ := hmem
    exact ⟨Bank.memoryOk_withOut hmem (Memory.wf_writeBytes _ [v] hout)
      (Memory.cells_writeBytes_lt houtlt (Nat.le_trans hlt hcap)) (Memory.writeBytes_draw _ _ [v]),
      hcap⟩
  moveLs := fun _ _ h => h

theorem Enc.turn_memoryOk {e : Enc} {inSize outSize : Word} (h : e.memoryOk inSize outSize) :
    e.turn.memoryOk inSize outSize := by
  refine (Enc.memoryOk_emission _ _).turn (fun e' h' => ?_) (fun _ h' => h') (fun e' h' => ?_)
    (fun _ h' => h') h
  · rwa [Enc.memoryOk, e'.search_bank]
  · rwa [Enc.memoryOk, e'.cover_bank]

/-- A turn that goes on keeps the cursors in bounds and moves I forward (40_encoder_match_finder.md
R130). -/
theorem Enc.turn_callOk {e : Enc} (hb : e.bank.status = .busy) (hc : e.callOk)
    (hb' : e.turn.bank.status = .busy) : e.turn.callOk ∧ e.i.toNat < e.turn.i.toNat := by
  have hst : e.turn.bank.status ≠ .fault .outputOverrun := by simp [hb']
  have ⟨hls, _, hop⟩ := hc
  obtain ⟨-, h⟩ | ⟨hi, -, h⟩ | ⟨hi, hne, h⟩ := Enc.turn_cases hb hc
  · obtain ⟨-, hturn⟩ := h.of_no_overrun hst
    rw [hturn] at hb'
    cases hb'
  · rw [h]
    unfold Enc.callOk
    rw [Enc.stepLiteral_i (by simpa [Enc.search_bank] using hi)]
    simp [Enc.search_bank]
    omega
  · obtain ⟨hfit, hturn⟩ := h.of_no_overrun hst
    have hlen := e.search_blen_le
    have hpos := blen_pos hne
    rw [hturn]
    unfold Enc.callOk
    rw [Enc.cover_ls, Enc.cover_i (by simp [Enc.search_bank]; omega), Enc.cover_op, Enc.cover_bank]
    have hop' := Enc.afterOutput_op_le hfit
    simp [Enc.search_bank, Enc.afterOutput] at hop' ⊢
    omega

/-- ENC's part of the invariant. -/
def Enc.ok (e : Enc) (inSize outSize : Word) : Prop :=
  e.bank.memoryOk inSize outSize ∧ e.tablesOk ∧
    (e.bank.status = .busy → e.bank.premises inSize outSize ∧ e.callOk)

theorem Enc.turn_ok {e : Enc} {inSize outSize : Word} (h : e.ok inSize outSize) :
    e.turn.ok inSize outSize := by
  by_cases hb : e.bank.status = .busy
  · obtain ⟨hmem, ht, hcall⟩ := h
    obtain ⟨⟨hin, hout⟩, hc⟩ := hcall hb
    obtain ⟨hmem', -⟩ := Enc.turn_memoryOk (e := e) ⟨hmem, hout⟩
    obtain ⟨-, hlen, hcap⟩ := e.turn_sameArguments
    refine ⟨hmem', Enc.turn_tablesOk ht, fun hb' => ?_⟩
    obtain ⟨hc', -⟩ := Enc.turn_callOk hb hc hb'
    rw [Bank.premises, hlen, hcap]
    exact ⟨⟨hin, hout⟩, hc'⟩
  · rwa [Enc.turn_of_not_busy hb]

theorem Enc.launch_ok {e : Enc} {inSize outSize : Word} (h : e.ok inSize outSize)
    (hpre : e.bank.premises inSize outSize) : e.launch.ok inSize outSize := by
  obtain ⟨hmem, ⟨-, hprev, -, hprevlt⟩, -⟩ := h
  refine ⟨hmem, ⟨Table.wf_allNil _, hprev, fun _ hc => (List.not_mem_nil hc).elim, hprevlt⟩,
    fun _ => ⟨hpre, ?_⟩⟩
  exact ⟨Nat.le_refl _, Nat.zero_le _, Nat.zero_le _⟩

/-- While ENC is not BUSY its memories and tables are all there is to keep. -/
theorem Enc.ok_of_not_busy {e : Enc} {inSize outSize : Word}
    (hmem : e.bank.memoryOk inSize outSize) (ht : e.tablesOk) (hb : e.bank.status ≠ .busy) :
    e.ok inSize outSize :=
  ⟨hmem, ht, fun h => absurd h hb⟩

end Sys2Proof.Machine
end

section
/-! The invariant of the whole machine: it holds at reset and every step keeps it (10_state.md R37,
R38). -/

namespace Sys2Proof.Machine

theorem State.inv_iff (s : State) :
    s.Inv ↔ s.dec.ok s.sizes.decIn s.sizes.decOut ∧ s.enc.ok s.sizes.encIn s.sizes.encOut := by
  constructor
  · rintro ⟨hdec, henc, ht, hdcall, hecall⟩
    exact ⟨⟨hdec, hdcall⟩, henc, ht, hecall⟩
  · rintro ⟨⟨hdec, hdcall⟩, henc, ht, hecall⟩
    exact ⟨hdec, henc, ht, hdcall, hecall⟩

theorem Dec.afterReset_ok (k : Nat) (inSize outSize : Word) :
    (Dec.afterReset k).ok inSize outSize :=
  Dec.ok_of_not_busy (Bank.memoryOk_afterReset _ _ _ _) (by simp [Dec.afterReset, Bank.afterReset])

theorem Enc.afterReset_ok (k : Nat) (inSize outSize : Word) :
    (Enc.afterReset k).ok inSize outSize :=
  Enc.ok_of_not_busy (Bank.memoryOk_afterReset _ _ _ _)
    ⟨Table.wf_unspecified _ _, Table.wf_unspecified _ _, fun _ hc => (List.not_mem_nil hc).elim,
      fun _ hc => (List.not_mem_nil hc).elim⟩
    (by simp [Enc.afterReset, Bank.afterReset])

/-- The memories of either engine are in form. -/
theorem State.Inv.memoryOk {s : State} (h : s.Inv) (g : Engine) :
    (s.bank g).memoryOk (s.inMemBytes g) (s.outMemBytes g) := by
  obtain ⟨hdec, henc, -⟩ := h
  cases g with
  | dec => exact hdec
  | enc => exact henc

/-- While an engine is not BUSY its bank may be replaced by one whose memories are in form. -/
theorem State.Inv.withBank {s : State} (h : s.Inv) {g : Engine} {b : Bank}
    (hmem : b.memoryOk (s.inMemBytes g) (s.outMemBytes g)) (hb : b.status ≠ .busy) :
    (s.withBank g b).Inv := by
  obtain ⟨hdec, henc⟩ := (State.inv_iff s).1 h
  have ⟨_, ht, _⟩ := henc
  rw [State.inv_iff]
  cases g with
  | dec => exact ⟨Dec.ok_of_not_busy hmem hb, henc⟩
  | enc => exact ⟨hdec, Enc.ok_of_not_busy hmem ht hb⟩

theorem State.Inv.launched {s : State} (h : s.Inv) {g : Engine} (hl : s.launchable g = true) :
    (s.launched g).Inv := by
  obtain ⟨hdec, henc⟩ := (State.inv_iff s).1 h
  have hpre := (State.launchable_iff s g).1 hl
  rw [State.inv_iff]
  cases g with
  | dec => exact ⟨Dec.launch_ok hdec hpre, henc⟩
  | enc => exact ⟨hdec, Enc.launch_ok henc hpre⟩

theorem State.Inv.regWrite {s t : State} {g : Engine} {n : Nat} {w : Word} (h : s.Inv)
    (ht : (s.regWrite g n w).outcome = .next t) : t.Inv := by
  obtain rfl | ⟨hb, ⟨-, -, hl, rfl⟩ | ⟨-, rfl⟩ | ⟨-, rfl⟩⟩ := State.regWrite_outcome_eq_next ht
  · exact h
  · exact h.launched hl
  · exact h.withBank (h.memoryOk g) hb
  · exact h.withBank (h.memoryOk g) hb

/-- The host writes IN of an engine that is not BUSY, at an address that exists. -/
theorem State.Inv.memWrite {s t : State} {g : Engine} {b : Buffer} {a : Nat} {v : Byte} (h : s.Inv)
    (ht : s.memWrite g b a v = .next t) : t.Inv := by
  obtain ⟨-, hb, ha, rfl⟩ := State.memWrite_eq_next ht
  obtain ⟨hin, hout, hinlt, houtlt, hind, houtd⟩ := h.memoryOk g
  exact h.withBank ⟨Memory.wf_write _ _ hin, hout, Memory.cells_write_lt hinlt ha, houtlt, hind,
    houtd⟩ hb

/-- Every event from outside keeps the invariant. -/
theorem State.Inv.perform {s t : State} {x : Input} (h : s.Inv)
    (ht : (s.perform x).outcome = .next t) : t.Inv := by
  cases x with
  | regRead g n =>
    obtain ⟨v, rfl⟩ := State.regRead_eq_next ht
    exact h
  | regWrite g n w => exact h.regWrite ht
  | memRead g b a =>
    obtain ⟨-, -, -, -, rfl⟩ := State.memRead_eq_next ht
    exact h
  | memWrite g b a v => exact h.memWrite ht
  | reset =>
    cases ht
    exact (State.inv_iff _).2 ⟨Dec.afterReset_ok _ _ _, Enc.afterReset_ok _ _ _⟩

/-- Settles O48, by who moves: a turn of an engine keeps that engine's part of the invariant, an
event from outside is an access that keeps the memories in form, a launch within the premises, or
reset. -/
theorem everyStepKeepsTheInvariant : Obligations.EveryStepKeepsTheInvariant := by
  unfold Obligations.EveryStepKeepsTheInvariant
  intro s t hinv hstep
  have hpop : s.popTurn.Inv := hinv
  obtain ⟨hdec, henc⟩ := (State.inv_iff s).1 hinv
  rw [step_eq_outcome] at hstep
  cases hm : s.mover with
  | dec =>
    rw [nextAction_dec hm] at hstep
    obtain ⟨d, hturn, -⟩ := s.popTurn.decTurn_decTurnOf
    have hok := State.decTurn_ok (s := s.popTurn) hdec hstep
    rw [hturn] at hstep
    cases hstep
    exact (State.inv_iff _).2 ⟨hok, henc⟩
  | enc =>
    simp only [State.nextAction, hm, Action.outcome_answer] at hstep
    cases hstep
    exact (State.inv_iff _).2 ⟨hdec, Enc.turn_ok henc⟩
  | outside =>
    simp only [State.nextAction, hm, State.outsideTurn] at hstep
    split at hstep
    · cases hstep
      exact hpop
    · exact State.Inv.perform (s := s.popTurn.popInput) hpop hstep

/-- Settles O49: nothing is BUSY after reset, and no byte or entry is listed. -/
theorem resetStateHasTheInvariant : Obligations.ResetStateHasTheInvariant :=
  (State.inv_iff _).2 ⟨Dec.afterReset_ok _ _ _, Enc.afterReset_ok _ _ _⟩

end Sys2Proof.Machine
end

section
/-! The host's accesses to registers and the reset event, as steps (10_state.md R21 to R26, R38,
44_host_commands.md R250, R251, R255, 70_reset_and_hazards.md R300). -/

namespace Sys2Proof.Machine

/-- The state in which an event from outside is performed: the turn and the event are taken. -/
theorem popTurn_popInput_eq {s : State} {x : Input} {rest : List Input} (h : NextInput s x rest) :
    s.popTurn.popInput = { s with turns := s.turns.tail, inputs := rest } := by
  obtain ⟨-, hinputs⟩ := h
  simp [State.popTurn, State.popInput, hinputs]

theorem State.unlessBusy_of_busy {s : State} {g : Engine} (o : Host.Outcome State Fault Refusal)
    (h : (s.bank g).status = .busy) : s.unlessBusy g o = .refused .busyAccess := if_pos h

theorem State.unlessBusy_of_not_busy {s : State} {g : Engine}
    (o : Host.Outcome State Fault Refusal) (h : (s.bank g).status ≠ .busy) :
    s.unlessBusy g o = o := if_neg h

/-- Taking the turn and the event leaves the banks. -/
@[simp] theorem State.bank_popTurn_popInput (s : State) (g : Engine) :
    s.popTurn.popInput.bank g = s.bank g := by
  cases g <;> rfl

/-! ### CTRL -/

/-- The START command of an engine. -/
def Engine.startCommand (x : BitVec 31) : Engine → Instr
  | .dec => .decStart x
  | .enc => .encStart x

theorem decodeCtrl_start (g : Engine) {w : Word} (h : w.extractLsb' 0 1 = 1#1) :
    decodeCtrl g w = .ok (Engine.startCommand (w.extractLsb' 1 31) g) := by
  unfold decodeCtrl
  rw [if_pos h]
  cases g <;> rfl

theorem decodeCtrl_noStart (g : Engine) {w : Word} (h : w.extractLsb' 0 1 ≠ 1#1) :
    decodeCtrl g w = .error .noStart := if_neg h

theorem step_ctrlWrite {s : State} {g : Engine} {w : Word} {rest : List Input}
    (hnext : NextInput s (.regWrite g 0 w) rest) :
    step s = if w.extractLsb' 0 1 = 1#1 then
        exec (Engine.startCommand (w.extractLsb' 1 31) g)
          { s with turns := s.turns.tail, inputs := rest }
      else .next { s with turns := s.turns.tail, inputs := rest } := by
  rw [step_nextInput hnext, popTurn_popInput_eq hnext, State.perform, State.regWrite]
  by_cases hbit : w.extractLsb' 0 1 = 1#1
  · rw [decodeCtrl_start g hbit, if_pos hbit, Action.outcome_run]
  · rw [decodeCtrl_noStart g hbit, if_neg hbit, Action.outcome_answer]

/-- Settles O7: the CTRL word decodes to the engine's START when bit 0 is 1, and to nothing
otherwise. -/
theorem stepRunsTheStartCommand : Obligations.StepRunsTheStartCommand := by
  unfold Obligations.StepRunsTheStartCommand
  exact fun _ _ _ => ⟨step_ctrlWrite, step_ctrlWrite⟩

/-! ### The other registers -/

/-- Settles O42, by the state and the error that STATUS holds. -/
theorem statusWordHasSixValues : Obligations.StatusWordHasSixValues := by
  unfold Obligations.StatusWordHasSixValues
  intro st
  cases st with
  | idle | busy | done => rfl
  | fault k => cases k <;> rfl

/-- There are five registers (10_state.md R21). -/
theorem State.regRead_of_no_register (s : State) (g : Engine) {n : Nat} (h : 5 ≤ n) :
    s.regRead g n = .refused .noSuchRegister := by
  obtain ⟨k, rfl⟩ := Nat.exists_eq_add_of_le' h
  rfl

theorem State.regWrite_of_no_register (s : State) (g : Engine) (v : Word) {n : Nat} (h : 5 ≤ n) :
    s.regWrite g n v = .answer (.refused .noSuchRegister) := by
  obtain ⟨k, rfl⟩ := Nat.exists_eq_add_of_le' h
  rfl

/-- Settles O43, by the register number and, for those the host does not read of a BUSY engine,
STATUS. -/
theorem registerReads : Obligations.RegisterReads := by
  unfold Obligations.RegisterReads
  intro s g n rest hnext
  dsimp only
  rw [step_nextInput hnext, State.perform, Action.outcome_answer, ← popTurn_popInput_eq hnext,
    ← s.bank_popTurn_popInput g]
  generalize s.popTurn.popInput = s'
  refine ⟨?_, ?_, ?_, ?_, ?_, ?_, s'.regRead_of_no_register g⟩
  · rintro rfl
    rfl
  · rintro rfl
    rfl
  · rintro rfl hb
    exact s'.unlessBusy_of_not_busy _ hb
  · rintro rfl hb
    exact s'.unlessBusy_of_not_busy _ hb
  · rintro rfl hb
    exact s'.unlessBusy_of_not_busy _ hb
  · rintro ⟨h2, h4⟩ hb
    obtain rfl | rfl | rfl : n = 2 ∨ n = 3 ∨ n = 4 := by omega
    all_goals exact s'.unlessBusy_of_busy _ hb

/-- Settles O44, by the register number and STATUS. -/
theorem registerWrites : Obligations.RegisterWrites := by
  unfold Obligations.RegisterWrites
  intro s g n v rest hnext
  dsimp only
  rw [step_nextInput hnext, State.perform, ← popTurn_popInput_eq hnext,
    ← s.bank_popTurn_popInput g]
  generalize s.popTurn.popInput = s'
  refine ⟨?_, ?_, ?_, ?_, fun h => by rw [s'.regWrite_of_no_register g v h]; rfl⟩
  · rintro (rfl | rfl) <;> rfl
  · rintro rfl hb
    exact s'.unlessBusy_of_not_busy _ hb
  · rintro rfl hb
    exact s'.unlessBusy_of_not_busy _ hb
  · rintro (rfl | rfl) hb <;> exact s'.unlessBusy_of_busy _ hb

/-! ### Reset -/

/-- An engine's bank at its reset values, with no byte of its memories written (10_state.md R38). -/
theorem Bank.afterReset_values (g : Engine) (k : Nat) :
    (Bank.afterReset g k).status.word = 0 ∧ (Bank.afterReset g k).inLen = 0 ∧
      (Bank.afterReset g k).outCap = 0 ∧ (Bank.afterReset g k).outLen = 0 ∧
      ∀ a, (Bank.afterReset g k).inMem.written a = none ∧
        (Bank.afterReset g k).outMem.written a = none :=
  ⟨statusWordHasSixValues .idle, rfl, rfl, rfl, fun _ => ⟨rfl, rfl⟩⟩

/-- Settles O46: the step is `resetBlock`, whatever the state was. -/
theorem resetEventClearsBothEngines : Obligations.ResetEventClearsBothEngines := by
  unfold Obligations.ResetEventClearsBothEngines
  intro s rest hnext
  refine ⟨_, step_nextInput hnext, fun g => ?_, ?_⟩
  · cases g <;> exact Bank.afterReset_values _ _
  · rw [popTurn_popInput_eq hnext]
    exact ⟨rfl, rfl, rfl, rfl, rfl, rfl, rfl, rfl, rfl, rfl, rfl, rfl, rfl, rfl, rfl, rfl, rfl, rfl,
      rfl⟩

/-- Settles O47: the reset state is what the reset event leaves of each engine. -/
theorem resetStateHasTheSpecsValues : Obligations.ResetStateHasTheSpecsValues := by
  unfold Obligations.ResetStateHasTheSpecsValues
  refine ⟨fun g => ?_, ?_⟩
  · cases g <;> exact Bank.afterReset_values _ _
  · decide

end Sys2Proof.Machine
end

section
/-! There is no hidden state in a compress call (10_state.md R36): two encoders with the same input,
IN_LEN and OUT_CAP go through the call alike, whatever PREV, OUT and the scratch registers hold. -/

namespace Sys2Proof.Machine

/-! ### The search -/

/-- Two encoders at the same position of the same input. -/
structure Enc.SameInput (e e' : Enc) : Prop where
  inLen : e'.bank.inLen = e.bank.inLen
  i : e'.i = e.i
  input : ∀ a, a < e.bank.inLen.toNat → e'.bank.inMem.read a = e.bank.inMem.read a

/-- Two walks at the same candidate, with the same best match. -/
structure Enc.SameWalk (e e' : Enc) : Prop extends Enc.SameInput e e' where
  cand : e'.cand = e.cand
  depth : e'.depth = e.depth
  blen : e'.blen = e.blen
  bdist : e'.bdist = e.bdist

theorem Enc.SameInput.hash3 {e e' : Enc} (h : e.SameInput e') {p : Nat} (hk : e.hasKey p = true) :
    e'.hash3 p = e.hash3 p := by
  have hp := (e.hasKey_iff p).1 hk
  unfold Enc.hash3
  rw [h.input _ (by omega), h.input _ (by omega), h.input _ (by omega)]

theorem Enc.SameInput.hasKey {e e' : Enc} (h : e.SameInput e') (p : Nat) :
    e'.hasKey p = e.hasKey p := by
  unfold Enc.hasKey
  rw [h.inLen]

theorem Enc.SameInput.lastInserted {e e' : Enc} (h : e.SameInput e') (k : BitVec 12) (n : Nat) :
    e'.lastInserted k n = e.lastInserted k n :=
  Enc.lastInserted_congr k h.inLen fun _ hk => h.hash3 hk

theorem Enc.SameInput.agree {e e' : Enc} (h : e.SameInput e') {c i n : Nat} (hc : c ≤ i)
    (hn : i + n ≤ e.bank.inLen.toNat) : e'.agree c i n = e.agree c i n := by
  induction n generalizing c i with
  | zero => rfl
  | succ n ih =>
    unfold Enc.agree
    rw [h.input c (by omega), h.input i (by omega), ih (by omega) (by omega)]

theorem Enc.SameInput.matchLen {e e' : Enc} (h : e.SameInput e') {c i : Nat} (hc : c ≤ i)
    (hi : i ≤ e.bank.inLen.toNat) : e'.matchLen c i = e.matchLen c i := by
  unfold Enc.matchLen
  rw [h.inLen]
  exact h.agree hc (by omega)

/-- Both walks examine a candidate alike and go on to the same one, because both tables are the
index of the same input. -/
theorem Enc.SameWalk.examine {e e' : Enc} {c : Word} (h : e.SameWalk e') (hidx : e.indexOk)
    (hidx' : e'.indexOk) (hc : c.toNat < e.i.toNat) (hi : e.i.toNat ≤ e.bank.inLen.toNat)
    (hk : e.hasKey c.toNat = true) (hwin : e.i.toNat - c.toNat ≤ 65535) :
    (e.examine c).SameWalk (e'.examine c) := by
  have hlen : e'.matchLen c.toNat e'.i.toNat = e.matchLen c.toNat e.i.toNat := by
    rw [h.i]
    exact h.toSameInput.matchLen (by omega) hi
  obtain ⟨hbank, hei, -, -⟩ := e.examine_frame c
  obtain ⟨hbank', hei', -, -⟩ := e'.examine_frame c
  refine ⟨⟨?_, ?_, ?_⟩, ?_, ?_, ?_, ?_⟩
  · rw [hbank, hbank', h.inLen]
  · rw [hei, hei', h.i]
  · rw [hbank, hbank']
    exact h.input
  · obtain ⟨-, hprevs⟩ := hidx
    obtain ⟨-, hprevs'⟩ := hidx'
    show e'.prev.read (prevSlot c.toNat) = e.prev.read (prevSlot c.toNat)
    rw [hprevs c.toNat hc hk (by omega), hprevs' c.toNat (by rwa [h.i])
      (by rwa [h.toSameInput.hasKey]) (by rw [h.i]; omega), h.toSameInput.hash3 hk,
      h.toSameInput.lastInserted]
  · show BitVec.ofNat 5 (e'.depth.toNat + 1) = BitVec.ofNat 5 (e.depth.toNat + 1)
    rw [h.depth]
  · unfold Enc.examine
    dsimp only
    rw [hlen, h.i, h.blen]
    split
    · rfl
    · exact h.blen
  · unfold Enc.examine
    dsimp only
    rw [hlen, h.i, h.blen]
    split
    · rfl
    · exact h.bdist

theorem Enc.SameWalk.walk {e e' : Enc} (fuel : Nat) (h : e.SameWalk e') (hidx : e.indexOk)
    (hidx' : e'.indexOk) (hi : e.i.toNat ≤ e.bank.inLen.toNat) (hcand : e.candOk) :
    (Enc.walk fuel e).SameWalk (Enc.walk fuel e') := by
  induction fuel generalizing e e' with
  | zero => exact h
  | succ fuel ih =>
    unfold Enc.walk
    rw [h.cand, h.depth, h.i]
    cases hce : e.cand with
    | none => exact h
    | some c =>
      obtain ⟨hc, hk⟩ := hcand c hce
      obtain ⟨hbank, hei, -, -⟩ := e.examine_frame c
      dsimp only
      split
      next hgo =>
        obtain ⟨hwin, -⟩ := hgo
        exact ih (h.examine hidx hidx' hc hi hk hwin) (Enc.examine_indexOk c hidx)
          (Enc.examine_indexOk c hidx') (by rwa [hei, hbank]) (Enc.examine_candOk hidx hc hk hwin)
      next => exact h

/-- The search finds the same match, if it finds one (40_encoder_match_finder.md R136, R144). -/
theorem Enc.SameInput.search {e e' : Enc} (h : e.SameInput e') (hidx : e.indexOk)
    (hidx' : e'.indexOk) (hi : e.i.toNat < e.bank.inLen.toNat) :
    e'.search.blen = e.search.blen ∧
      (e.search.blen ≠ 0#32 → e'.search.bdist = e.search.bdist) := by
  have hi' : e'.i.toNat < e'.bank.inLen.toNat := by rwa [h.i, h.inLen]
  have hkeys : e'.hasKey e'.i.toNat = e.hasKey e.i.toNat := by rw [h.i, h.hasKey]
  obtain ⟨hk, hs⟩ | ⟨hk, hs⟩ := Enc.search_cases hi <;>
    obtain ⟨hk', hs'⟩ | ⟨hk', hs'⟩ := Enc.search_cases hi'
  · have ⟨hheads, _⟩ := hidx
    have ⟨hheads', _⟩ := hidx'
    have hhash : e'.hash3 e'.i.toNat = e.hash3 e.i.toNat := by rw [h.i, h.hash3 hk]
    have hcand : e'.walkStart.cand = e.walkStart.cand := by
      show e'.head.read (e'.hash3 e'.i.toNat).toNat = e.head.read (e.hash3 e.i.toNat).toNat
      rw [hheads, hheads', hhash, h.lastInserted, h.i]
    have hstart : e.walkStart.SameWalk e'.walkStart :=
      ⟨⟨h.inLen, h.i, h.input⟩, hcand, rfl, rfl, rfl⟩
    have hwalk := hstart.walk Config.maxChain (Enc.indexBefore_congr hidx rfl rfl rfl rfl)
      (Enc.indexBefore_congr hidx' rfl rfl rfl rfl) (Nat.le_of_lt hi) (Enc.walkStart_candOk hidx)
    rw [hs, hs']
    exact ⟨hwalk.blen, fun _ => hwalk.bdist⟩
  · rw [hkeys, hk] at hk'
    cases hk'
  · rw [hkeys, hk] at hk'
    cases hk'
  · rw [hs, hs']
    exact ⟨rfl, fun hne => absurd rfl hne⟩

/-! ### The turn -/

/-- Two encoders equally far in calls with the same arguments. -/
structure Enc.SameCall (e e' : Enc) : Prop extends Enc.SameInput e e' where
  status : e'.bank.status = e.bank.status
  outCap : e'.bank.outCap = e.bank.outCap
  ls : e'.ls = e.ls
  op : e'.op = e.op
  output : ∀ a, a < e.op.toNat → e'.bank.outMem.read a = e.bank.outMem.read a

/-- What a BUSY ENC has from START on (10_state.md R37, 40_encoder_match_finder.md R143). -/
def Enc.inCall (e : Enc) : Prop :=
  e.bank.status = .busy ∧ e.callOk ∧ e.tablesOk ∧ e.indexOk

theorem Enc.SameCall.fits {e e' : Enc} (h : e.SameCall e') (bytes : List Byte) :
    e'.fits bytes ↔ e.fits bytes := by
  unfold Enc.fits
  rw [h.op, h.outCap]

theorem Enc.SameCall.flushBytes {e e' : Enc} (h : e.SameCall e') {n : Nat}
    (hls : e.ls.toNat ≤ n) (hn : n ≤ e.bank.inLen.toNat) : e'.flushBytes n = e.flushBytes n := by
  unfold Enc.flushBytes
  rw [h.ls, Memory.readBytes_congr fun j hj => h.input _ (by omega)]

/-- The same bytes put out make the same output. -/
theorem Enc.SameCall.afterOutput_read {e e' : Enc} (h : e.SameCall e') {bytes : List Byte}
    (hfit : e.fits bytes) {a : Nat} (ha : a < (e.afterOutput bytes).op.toNat) :
    (e'.afterOutput bytes).bank.outMem.read a = (e.afterOutput bytes).bank.outMem.read a := by
  rw [Enc.afterOutput_op hfit] at ha
  rw [Enc.afterOutput_outMem, Enc.afterOutput_outMem, Memory.read_writeBytes,
    Memory.read_writeBytes, h.op]
  split
  · rfl
  · exact h.output a (by omega)

/-- A call has ended in both, with the same observation (00_scope.md R7). -/
def SameEnd (b b' : Bank) : Prop :=
  b.observation ≠ none ∧ b'.observation = b.observation

theorem SameEnd.of_fault {b b' : Bank} {k : ErrKind} (h : b.status = .fault k)
    (h' : b'.status = .fault k) : SameEnd b b' := by
  simp [SameEnd, Bank.observation, h, h']

theorem Bank.not_busy_of_observation {b : Bank} (h : b.observation ≠ none) : b.status ≠ .busy :=
  fun hb => h (by rw [Bank.observation, hb])

/-- The turn at the end of the input ends both calls alike (40_encoder_match_finder.md R141). -/
theorem Enc.SameCall.stepEnd {e e' : Enc} (h : e.SameCall e') {bytes : List Byte} {n : Nat}
    (hturn : e.TurnGives bytes ((e.afterOutput bytes).withLs n).complete)
    (hturn' : e'.TurnGives bytes ((e'.afterOutput bytes).withLs n).complete) :
    SameEnd e.turn.bank e'.turn.bank := by
  obtain ⟨hok, hover⟩ := hturn
  obtain ⟨hok', hover'⟩ := hturn'
  by_cases hfit : e.fits bytes
  · have hop : (e'.afterOutput bytes).op = (e.afterOutput bytes).op := by
      simp only [Enc.afterOutput, h.op]
    have hbytes : (e'.afterOutput bytes).bank.outputBytes (e'.afterOutput bytes).op.toNat
        = (e.afterOutput bytes).bank.outputBytes (e.afterOutput bytes).op.toNat := by
      rw [hop]
      exact Memory.readBytes_congr fun j hj => h.afterOutput_read hfit (by omega)
    rw [hok hfit, hok' ((h.fits bytes).2 hfit)]
    refine ⟨fun hnone => ?_, congrArg (fun out => some (CallResult.ok out)) hbytes⟩
    cases hnone
  · exact .of_fault (hover hfit) (hover' fun hc => hfit ((h.fits bytes).1 hc))

/-- The turn that passes a position without a match. -/
theorem Enc.SameCall.stepLiteral {e e' : Enc} (h : e.SameCall e') :
    e.search.stepLiteral.SameCall e'.search.stepLiteral := by
  have hi : e'.search.stepLiteral.i = e.search.stepLiteral.i := by
    simp only [Enc.stepLiteral, Enc.search_i, h.i]
  refine ⟨⟨?_, hi, ?_⟩, ?_, ?_, ?_, ?_, ?_⟩ <;>
    simp only [Enc.stepLiteral_bank, Enc.stepLiteral_ls, Enc.stepLiteral_op, Enc.search_bank,
      Enc.search_ls, Enc.search_op]
  exacts [h.inLen, h.input, h.status, h.outCap, h.ls, h.op, h.output]

/-- The turn that takes a match (40_encoder_match_finder.md R140). -/
theorem Enc.SameCall.stepMatch {e e' : Enc} (h : e.SameCall e') {bytes : List Byte} {n n' : Nat}
    (hblen : e'.search.blen = e.search.blen) (hfit : e.fits bytes) :
    ((e.search.afterOutput bytes).withLs n).cover.SameCall
      ((e'.search.afterOutput bytes).withLs n').cover := by
  have hi : ((e'.search.afterOutput bytes).withLs n').cover.i
      = ((e.search.afterOutput bytes).withLs n).cover.i := by
    simp [Enc.cover, h.i, hblen]
  have hop (x : Enc) (k : Nat) :
      ((x.search.afterOutput bytes).withLs k).cover.op = (x.afterOutput bytes).op := by
    simp [Enc.cover_op, Enc.afterOutput]
  have hbank (x : Enc) (k : Nat) :
      ((x.search.afterOutput bytes).withLs k).cover.bank = (x.afterOutput bytes).bank := by
    simp [Enc.cover_bank, Enc.afterOutput, Enc.search_bank]
  have hop' : (e'.afterOutput bytes).op = (e.afterOutput bytes).op := by
    simp only [Enc.afterOutput, h.op]
  refine ⟨⟨?_, hi, ?_⟩, ?_, ?_, hi, ?_, ?_⟩ <;> simp only [hbank, hop]
  exacts [h.inLen, h.input, h.status, h.outCap, hop', fun _ ha => h.afterOutput_read hfit ha]

/-- A turn ends both calls alike, or both go on alike. -/
theorem Enc.SameCall.turn {e e' : Enc} (h : e.SameCall e') (hin : e.inCall) (hin' : e'.inCall) :
    SameEnd e.turn.bank e'.turn.bank ∨
      (e.turn.bank.status = .busy ∧ e.turn.SameCall e'.turn) := by
  obtain ⟨hb, hc, -, hidx⟩ := hin
  obtain ⟨hb', hc', -, hidx'⟩ := hin'
  have ⟨hls, hle, _⟩ := hc
  have hend : e'.i = e'.bank.inLen ↔ e.i = e.bank.inLen := by rw [h.i, h.inLen]
  have hgo : e'.i.toNat < e'.bank.inLen.toNat ↔ e.i.toNat < e.bank.inLen.toNat := by
    rw [h.i, h.inLen]
  obtain ⟨hi, hturn⟩ | ⟨hi, hlen, hturn⟩ | ⟨hi, hlen, hturn⟩ := Enc.turn_cases hb hc
  · obtain ⟨-, hturn'⟩ | ⟨hi', -⟩ | ⟨hi', -⟩ := Enc.turn_cases hb' hc'
    · rw [h.inLen, h.flushBytes (Nat.le_trans hls hle) (Nat.le_refl _)] at hturn'
      exact .inl (h.stepEnd hturn hturn')
    all_goals
      rw [hgo, hi] at hi'
      exact absurd hi' (Nat.lt_irrefl _)
  all_goals
    obtain ⟨hblen, hbdist⟩ := h.toSameInput.search hidx hidx' hi
    have hne : e'.i ≠ e'.bank.inLen := fun hc => by
      rw [hend.1 hc] at hi
      exact Nat.lt_irrefl _ hi
  · obtain ⟨hi', -⟩ | ⟨-, -, hturn'⟩ | ⟨-, hlen', -⟩ := Enc.turn_cases hb' hc'
    · exact absurd hi' hne
    · rw [hturn, hturn']
      exact .inr ⟨by simpa [Enc.search_bank] using hb, h.stepLiteral⟩
    · exact absurd (hblen.trans hlen) hlen'
  · obtain ⟨hi', -⟩ | ⟨-, hlen', -⟩ | ⟨-, -, hok', hover'⟩ := Enc.turn_cases hb' hc'
    · exact absurd hi' hne
    · exact absurd (hblen.symm.trans hlen') hlen
    · rw [hblen, hbdist hlen, h.i, h.flushBytes hls hle, h.fits] at hok' hover'
      obtain ⟨hok, hover⟩ := hturn
      by_cases hfit : e.fits (e.flushBytes e.i.toNat ++
          emitMatchBytes e.search.blen.toNat e.search.bdist.toNat)
      · rw [hok hfit, hok' hfit]
        refine .inr ⟨?_, h.stepMatch hblen hfit⟩
        simpa [Enc.cover_bank, Enc.search_bank] using hb
      · exact .inl (.of_fault (hover hfit) (hover' hfit))

/-! ### The call -/

theorem Enc.inCall.turn {e : Enc} (h : e.inCall) (hb' : e.turn.bank.status = .busy) :
    e.turn.inCall ∧ e.i.toNat < e.turn.i.toNat := by
  obtain ⟨hb, hc, ht, hidx⟩ := h
  obtain ⟨hc', hi⟩ := Enc.turn_callOk hb hc hb'
  exact ⟨⟨hb', hc', Enc.turn_tablesOk ht, Enc.turn_indexOk hb hc ht hidx hb'⟩, hi⟩

theorem Enc.started_inCall {e : Enc} (hs : e.started) (ht : e.tablesOk) : e.inCall := by
  have hidx := Enc.started_indexOk hs
  obtain ⟨hb, hi, hls, hop, -⟩ := hs
  refine ⟨hb, ?_, ht, hidx⟩
  rw [Enc.callOk, hi, hls, hop]
  exact ⟨Nat.le_refl _, Nat.zero_le _, Nat.zero_le _⟩

theorem Enc.iterate_turn_of_not_busy {e : Enc} (hb : e.bank.status ≠ .busy) (n : Nat) :
    Enc.turn^[n] e = e :=
  Function.iterate_fixed (Enc.turn_of_not_busy hb) n

theorem SameEnd.not_busy {b b' : Bank} (h : SameEnd b b') :
    b.status ≠ .busy ∧ b'.status ≠ .busy := by
  obtain ⟨hne, heq⟩ := h
  exact ⟨Bank.not_busy_of_observation hne, Bank.not_busy_of_observation (heq ▸ hne)⟩

/-- Each turn moves I forward or ends the call, so as many turns as input is left, and one more, end
both calls. -/
theorem Enc.SameCall.iterate {e e' : Enc} {n : Nat} (h : e.SameCall e') (hin : e.inCall)
    (hin' : e'.inCall) (hn : e.bank.inLen.toNat - e.i.toNat < n) :
    SameEnd (Enc.turn^[n] e).bank (Enc.turn^[n] e').bank := by
  induction n generalizing e e' with
  | zero => cases hn
  | succ n ih =>
    rw [Function.iterate_succ_apply, Function.iterate_succ_apply]
    obtain hend | ⟨hb, hsame⟩ := h.turn hin hin'
    · obtain ⟨hb, hb'⟩ := hend.not_busy
      rwa [Enc.iterate_turn_of_not_busy hb, Enc.iterate_turn_of_not_busy hb']
    · obtain ⟨hnext, hi⟩ := hin.turn hb
      obtain ⟨hnext', -⟩ := hin'.turn (hsame.status.trans hb)
      have ⟨_, ⟨_, hle, _⟩, _⟩ := hnext
      obtain ⟨-, hlen, -⟩ := e.turn_sameArguments
      rw [hlen] at hle
      exact ih hsame hnext hnext' (by rw [hlen]; omega)

theorem run_succ_of_next {M : Host.Core} {s s' : M.State} (n : Nat) (h : M.step s = .next s') :
    M.run (n + 1) s = M.run n s' := by
  rw [Host.Core.run, h]

/-- A run in which only ENC moves is ENC's turns. -/
theorem turnsOf_enc (n : Nat) (s : State) :
    turnsOf .enc n s = .next { s with enc := Enc.turn^[n] s.enc, turns := [] } := by
  induction n generalizing s with
  | zero => rfl
  | succ n ih =>
    have hstep : Sys2Proof.core.step { s with turns := List.replicate (n + 1) Agent.enc }
        = .next { s with enc := s.enc.turn, turns := List.replicate n Agent.enc } :=
      step_enc (s := { s with turns := List.replicate (n + 1) Agent.enc }) rfl
    rw [Function.iterate_succ_apply]
    exact (run_succ_of_next n hstep).trans (ih { s with enc := s.enc.turn })

/-- Calls just started with the same arguments are equally far. -/
theorem Enc.started_sameCall {e e' : Enc} (hs : e.started) (hs' : e'.started)
    (hlen : e'.bank.inLen = e.bank.inLen) (hcap : e'.bank.outCap = e.bank.outCap)
    (hin : e'.bank.inputBytes = e.bank.inputBytes) : e.SameCall e' := by
  obtain ⟨hb, hi, hls, hop, -⟩ := hs
  obtain ⟨hb', hi', hls', hop', -⟩ := hs'
  refine ⟨⟨hlen, hi'.trans hi.symm, fun a ha => ?_⟩, hb'.trans hb.symm, hcap, hls'.trans hls.symm,
    hop'.trans hop.symm, fun a ha => ?_⟩
  · have hread := congrArg (fun l => l.getD a 0) hin
    simp only [Bank.inputBytes] at hread
    rwa [Memory.readBytes_getD _ _ _ _ _ (by rwa [hlen]), Memory.readBytes_getD _ _ _ _ _ ha,
      Nat.zero_add] at hread
  · rw [hop] at ha
    cases ha

/-- Settles O41: two calls just started are equally far, and stay so until a turn ends both alike.
-/
theorem encCallDependsOnItsArgumentsAlone : Obligations.EncCallDependsOnItsArgumentsAlone := by
  unfold Obligations.EncCallDependsOnItsArgumentsAlone
  intro s s' hs hs' ht ht' hlen hcap hin
  have hsame := Enc.started_sameCall hs hs' hlen hcap hin
  obtain ⟨hne, heq⟩ := hsame.iterate (n := s.enc.bank.inLen.toNat + 1) (Enc.started_inCall hs ht)
    (Enc.started_inCall hs' ht') (by omega)
  exact ⟨_, _, turnsOf_enc _ s, turnsOf_enc _ s', hne, heq⟩

end Sys2Proof.Machine
end

section
/-! The host's accesses to IN and OUT, as steps (20_memory.md R60, R63, 44_host_commands.md R255,
60_exceptions.md R279, 70_reset_and_hazards.md R303). Each access asks, in this order, whether the
engine is BUSY, whether R60 lists the direction, and whether the memory has the address. -/

namespace Sys2Proof.Machine

theorem directed_of_allowed {allowed : Bool} (o : Host.Outcome State Fault Refusal)
    (h : allowed = true) : directed allowed o = o := if_pos h

theorem directed_of_not_allowed {allowed : Bool} (o : Host.Outcome State Fault Refusal)
    (h : allowed ≠ true) : directed allowed o = .refused .accessDirection := if_neg h

/-! ### Reads -/

theorem State.memRead_of_busy {s : State} {g : Engine} (b : Buffer) (a : Nat)
    (hb : (s.bank g).status = .busy) : s.memRead g b a = .refused .busyAccess :=
  s.unlessBusy_of_busy _ hb

theorem State.memRead_of_not_listed {s : State} {g : Engine} {b : Buffer} (a : Nat)
    (hb : (s.bank g).status ≠ .busy) (h : b = .input ∨ (s.bank g).status = .idle) :
    s.memRead g b a = .refused .accessDirection := by
  rw [State.memRead, s.unlessBusy_of_not_busy _ hb]
  refine directed_of_not_allowed _ fun hr => ?_
  obtain ⟨hout, hidle, -⟩ := (Status.hostReads_iff _ _).1 hr
  obtain rfl | hidle' := h
  · cases hout
  · exact hidle hidle'

theorem State.memRead_output {s : State} {g : Engine} (a : Nat)
    (hb : (s.bank g).status ≠ .busy) (hidle : (s.bank g).status ≠ .idle) :
    s.memRead g .output a = if a < (s.outMemBytes g).toNat then
        .next (s.reply (.byte ((s.bank g).outMem.read a)))
      else .fault .hostAddress := by
  rw [State.memRead, s.unlessBusy_of_not_busy _ hb,
    directed_of_allowed _ ((Status.hostReads_iff _ _).2 ⟨rfl, hidle, hb⟩)]
  rfl

/-! ### Writes -/

theorem State.memWrite_of_busy {s : State} {g : Engine} (b : Buffer) (a : Nat) (v : Byte)
    (hb : (s.bank g).status = .busy) : s.memWrite g b a v = .refused .busyAccess :=
  s.unlessBusy_of_busy _ hb

theorem State.memWrite_output {s : State} {g : Engine} (a : Nat) (v : Byte)
    (hb : (s.bank g).status ≠ .busy) : s.memWrite g .output a v = .refused .accessDirection :=
  s.unlessBusy_of_not_busy _ hb

theorem State.memWrite_input {s : State} {g : Engine} (a : Nat) (v : Byte)
    (hb : (s.bank g).status ≠ .busy) :
    s.memWrite g .input a v = if a < (s.inMemBytes g).toNat then
        .next (s.withBank g { s.bank g with inMem := (s.bank g).inMem.write a v })
      else .fault .hostAddress := by
  rw [State.memWrite, s.unlessBusy_of_not_busy _ hb,
    directed_of_allowed _ ((hostWrites_iff _).2 rfl)]
  rfl

/-! ### The steps -/

theorem State.inMemBytes_popTurn_popInput (s : State) (g : Engine) :
    s.popTurn.popInput.inMemBytes g = s.inMemBytes g := by
  cases g <;> rfl

theorem State.outMemBytes_popTurn_popInput (s : State) (g : Engine) :
    s.popTurn.popInput.outMemBytes g = s.outMemBytes g := by
  cases g <;> rfl

/-- Settles O45: the step is the access on the state with the turn and the event taken; then by
STATUS, the memory and the address. -/
theorem memoryAccesses : Obligations.MemoryAccesses := by
  unfold Obligations.MemoryAccesses
  intro s g b a v rest
  dsimp only
  refine ⟨fun hnext => ?_, fun hnext => ?_⟩ <;>
    rw [step_nextInput hnext, State.perform, Action.outcome_answer, ← popTurn_popInput_eq hnext,
      ← s.bank_popTurn_popInput g]
  · rw [← s.outMemBytes_popTurn_popInput g]
    generalize s.popTurn.popInput = s'
    refine ⟨s'.memRead_of_busy b a, s'.memRead_of_not_listed a, ?_⟩
    rintro hb hidle rfl
    exact s'.memRead_output a hb hidle
  · rw [← s.inMemBytes_popTurn_popInput g]
    generalize s.popTurn.popInput = s'
    refine ⟨s'.memWrite_of_busy b a v, ?_, ?_, ?_⟩
    · rintro hb rfl
      exact s'.memWrite_output a v hb
    · rintro hb rfl ha
      rw [s'.memWrite_input a v hb, if_neg (Nat.not_lt.2 ha)]
    · rintro hb rfl ha
      refine ⟨(s'.bank g).inMem.write a v, ?_, fun a' => Memory.read_write _ _ _ _⟩
      rw [s'.memWrite_input a v hb, if_pos ha]

end Sys2Proof.Machine
end

section
/-! Format F1's headers: the decoder and the encoder invert each other (30_encoding.md R92 to R100).
The decoder is said once, by one equation for each row of the control-byte map; both the laws of
inversion and the map itself follow from these rows. -/

namespace Sys2Proof

/-! ### Extensions (30_encoding.md R93) -/

theorem decodeExt_extCont_cons {bytes rest : List Byte} {e : Nat}
    (h : decodeExt bytes = some (e, rest)) :
    decodeExt (Config.extCont :: bytes) = some (255 + e, rest) := by
  rw [decodeExt, if_pos rfl, h]

theorem decodeExt_last {r : Byte} (rest : List Byte) (hr : r ≠ Config.extCont) :
    decodeExt (r :: rest) = some (r.toNat, rest) := by
  rw [decodeExt, if_neg hr]

/-- `q` continuation bytes and a last byte `r` are worth `255 * q + r`. -/
theorem decodeExt_replicate (q : Nat) {r : Byte} (rest : List Byte) (hr : r ≠ Config.extCont) :
    decodeExt (List.replicate q Config.extCont ++ r :: rest) = some (255 * q + r.toNat, rest) := by
  induction q with
  | zero => simpa using decodeExt_last rest hr
  | succ q ih =>
    rw [List.replicate_succ, List.cons_append, decodeExt_extCont_cons ih,
      show 255 + (255 * q + r.toNat) = 255 * (q + 1) + r.toNat by omega]

theorem decodeExt_replicate_none (q : Nat) :
    decodeExt (List.replicate q Config.extCont) = none := by
  induction q with
  | zero => rfl
  | succ q ih => rw [List.replicate_succ, decodeExt, if_pos rfl, ih]

/-- The last byte of an extension is its remainder, which is no continuation byte. -/
theorem toByte_remainder (e : Nat) :
    (toByte (e % 255)).toNat = e % 255 ∧ toByte (e % 255) ≠ Config.extCont := by
  have hlt : e % 255 < 255 := Nat.mod_lt _ (by omega)
  have hval : (toByte (e % 255)).toNat = e % 255 := by
    rw [BitVec.toNat_ofNat, Nat.mod_eq_of_lt (by omega)]
  refine ⟨hval, fun hc => ?_⟩
  rw [hc, show Config.extCont.toNat = 255 from rfl] at hval
  omega

theorem decodeExt_encodeExt (e : Nat) (rest : List Byte) :
    decodeExt (encodeExt e ++ rest) = some (e, rest) := by
  obtain ⟨hval, hne⟩ := toByte_remainder e
  rw [encodeExt, List.append_assoc, List.singleton_append, decodeExt_replicate _ _ hne, hval,
    Nat.div_add_mod]

theorem encodeExt_add_255 (e : Nat) : encodeExt (255 + e) = Config.extCont :: encodeExt e := by
  rw [encodeExt, encodeExt, Nat.add_div_left _ (by omega), Nat.add_mod_left, List.replicate_succ,
    List.cons_append]

theorem encodeExt_toNat {r : Byte} (hr : r ≠ Config.extCont) : encodeExt r.toNat = [r] := by
  have hlt := r.isLt
  have hne : r.toNat ≠ 255 := fun hc => hr (BitVec.eq_of_toNat_eq hc)
  rw [encodeExt, Nat.div_eq_of_lt (by omega), Nat.mod_eq_of_lt (by omega)]
  simp

/-- No extension is redundant: the bytes that decode to `e` are the bytes that encode it. -/
theorem eq_encodeExt_of_decodeExt {bytes rest : List Byte} {e : Nat}
    (h : decodeExt bytes = some (e, rest)) : bytes = encodeExt e ++ rest := by
  induction bytes generalizing e with
  | nil => cases h
  | cons g bytes ih =>
    unfold decodeExt at h
    split at h
    next hcont =>
      split at h
      · cases h
      next hrest =>
        cases h
        rw [hcont, encodeExt_add_255, List.cons_append, ← ih hrest]
    next hlast =>
      cases h
      rw [encodeExt_toNat hlast, List.singleton_append]

/-- Settles O3. -/
theorem extensionCodingIsOneToOne : Obligations.ExtensionCodingIsOneToOne := by
  unfold Obligations.ExtensionCodingIsOneToOne
  exact ⟨fun e => ⟨rfl, encodeExt_length e⟩, fun q _ rest hr => decodeExt_replicate q rest hr,
    decodeExt_replicate_none, decodeExt_encodeExt, fun _ _ _ h => eq_encodeExt_of_decodeExt h⟩

/-! ### The fields of a control byte (30_encoding.md R91, R92, R95) -/

/-- The number of a bit field is its high part times the size of its low part, plus the low part. -/
theorem toNat_append_eq {m n : Nat} (hi : BitVec m) (lo : BitVec n) :
    (hi ++ lo).toNat = 2 ^ n * hi.toNat + lo.toNat := by
  rw [BitVec.toNat_append, ← Nat.shiftLeft_add_eq_or_of_lt lo.isLt, Nat.shiftLeft_eq,
    Nat.mul_comm]

/-- The class of a control byte is its two most significant bits. -/
theorem control_class (c : Byte) :
    (c.extractLsb' 6 2 = 0#2 ↔ c.toNat < 0x40) ∧
      (c.extractLsb' 6 2 = 1#2 ↔ 0x40 ≤ c.toNat ∧ c.toNat < 0x80) := by
  revert c
  decide

theorem lit_control_eq {c : Byte} (h : c.toNat < 0x40) : c = 0b00#2 ++ c.extractLsb' 0 6 := by
  revert c
  decide

theorem mf_control_eq {c : Byte} (h : 0x40 ≤ c.toNat) (h' : c.toNat < 0x80) :
    c = 0b01#2 ++ c.extractLsb' 0 6 := by
  revert c
  decide

theorem ms_control_eq {c : Byte} (h : 0x80 ≤ c.toNat) :
    c = 0b1#1 ++ c.extractLsb' 3 4 ++ c.extractLsb' 0 3 := by
  revert c
  decide

/-- `0x80` to `0x87` are the `MS` control bytes whose count field is 0 (30_encoding.md R100). -/
theorem ms_escape_control_eq (dl : BitVec 3) : 0b10000#5 ++ dl = 0b1#1 ++ 0#4 ++ dl := by
  revert dl
  decide

theorem ms_count_field (v : BitVec 4) (dl : BitVec 3) :
    (0b1#1 ++ v ++ dl).extractLsb' 3 4 = v := by
  revert v dl
  decide

/-! ### The decoder by class (30_encoding.md R91) -/

theorem decodeHeader_of_lit (v : BitVec 6) (bytes : List Byte) :
    decodeHeader ((0b00#2 ++ v) :: bytes) = decodeLit (0b00#2 ++ v) bytes := by
  rw [decodeHeader, if_pos BitVec.extractLsb'_append_eq_left]

theorem decodeHeader_of_mf (v : BitVec 6) (bytes : List Byte) :
    decodeHeader ((0b01#2 ++ v) :: bytes) = decodeMf (0b01#2 ++ v) bytes := by
  rw [decodeHeader, BitVec.extractLsb'_append_eq_left, if_neg (by decide), if_pos rfl]

theorem decodeHeader_of_ms (v : BitVec 4) (dl : BitVec 3) (bytes : List Byte) :
    decodeHeader ((0b1#1 ++ v ++ dl) :: bytes) = decodeMs (0b1#1 ++ v ++ dl) bytes := by
  have hge : 0x80 ≤ (0b1#1 ++ v ++ dl).toNat := by
    rw [toNat_append_eq, toNat_append_eq]
    show 0x80 ≤ 8 * (16 * 1 + v.toNat) + dl.toNat
    omega
  obtain ⟨hlit, hmf⟩ := control_class (0b1#1 ++ v ++ dl)
  rw [decodeHeader, if_neg fun h => by have := hlit.1 h; omega,
    if_neg fun h => by have := hmf.1 h; omega]

/-! ### The decoder by row of the control-byte map (30_encoding.md R94 to R97, R100) -/

theorem decodeHeader_litI {v : BitVec 6} (rest : List Byte) (hv : v ≠ 0#6) :
    decodeHeader ((0b00#2 ++ v) :: rest) = .ok (.litI v, rest) := by
  rw [decodeHeader_of_lit]
  simp only [decodeLit, BitVec.extractLsb'_append_eq_right, if_neg hv]

theorem decodeHeader_litX (e : Nat) (rest : List Byte) :
    decodeHeader (0x00#8 :: (encodeExt e ++ rest)) = .ok (.litX e, rest) := by
  rw [show 0x00#8 = 0b00#2 ++ 0#6 from rfl, decodeHeader_of_lit]
  simp only [decodeLit, BitVec.extractLsb'_append_eq_right, if_true, decodeExt_encodeExt]

theorem decodeHeader_mfI {v : BitVec 6} (lo hi : Byte) (rest : List Byte) (hv : v ≠ 0#6) :
    decodeHeader ((0b01#2 ++ v) :: lo :: hi :: rest) =
      .ok (if hi ++ lo = Config.endDistField then .endTok v 0 else .mfI v (hi ++ lo), rest) := by
  rw [decodeHeader_of_mf]
  simp only [decodeMf, BitVec.extractLsb'_append_eq_right, if_neg hv]

theorem decodeHeader_mfX (e : Nat) (lo hi : Byte) (rest : List Byte) :
    decodeHeader (0x40#8 :: (encodeExt e ++ lo :: hi :: rest)) =
      .ok (if hi ++ lo = Config.endDistField then .endTok 0#6 e else .mfX e (hi ++ lo), rest) := by
  rw [show 0x40#8 = 0b01#2 ++ 0#6 from rfl, decodeHeader_of_mf]
  simp only [decodeMf, BitVec.extractLsb'_append_eq_right, if_true, decodeExt_encodeExt]

theorem decodeHeader_msI {v : BitVec 4} (dl : BitVec 3) (dh : Byte) (rest : List Byte)
    (hv : v ≠ 0#4) :
    decodeHeader ((0b1#1 ++ v ++ dl) :: dh :: rest) = .ok (.msI v (dh ++ dl), rest) := by
  rw [decodeHeader_of_ms]
  simp only [decodeMs, ms_count_field, BitVec.extractLsb'_append_eq_right, if_neg hv]

theorem decodeHeader_msX (e : Nat) (dl : BitVec 3) (dh : Byte) (rest : List Byte) :
    decodeHeader ((0b10000#5 ++ dl) :: (encodeExt e ++ dh :: rest)) =
      .ok (.msX e (dh ++ dl), rest) := by
  rw [ms_escape_control_eq, decodeHeader_of_ms]
  simp only [decodeMs, ms_count_field, BitVec.extractLsb'_append_eq_right, if_true,
    decodeExt_encodeExt]

/-! ### Decoding what was encoded -/

/-- The two bytes of a far distance field hold it low byte first (30_encoding.md R96). -/
theorem far_field_bytes (f : BitVec 16) : f.extractLsb' 8 8 ++ f.extractLsb' 0 8 = f :=
  BitVec.extractLsb'_append_extractLsb'

/-- The low bits in the control byte and the distance byte make up a near distance field
(30_encoding.md R95). -/
theorem near_field_bits (f : BitVec 11) : f.extractLsb' 3 8 ++ f.extractLsb' 0 3 = f :=
  BitVec.extractLsb'_append_extractLsb'

theorem far_field_split {hi lo : Byte} {f : BitVec 16} (h : hi ++ lo = f) :
    lo = f.extractLsb' 0 8 ∧ hi = f.extractLsb' 8 8 := by
  subst h
  exact ⟨BitVec.extractLsb'_append_eq_right.symm, BitVec.extractLsb'_append_eq_left.symm⟩

theorem near_field_split {dh : Byte} {dl : BitVec 3} {f : BitVec 11} (h : dh ++ dl = f) :
    dl = f.extractLsb' 0 3 ∧ dh = f.extractLsb' 3 8 := by
  subst h
  exact ⟨BitVec.extractLsb'_append_eq_right.symm, BitVec.extractLsb'_append_eq_left.symm⟩

/-- A well-formed token's header decodes to the token, whatever follows it. -/
theorem decodeHeader_headerBytes {i : Instr} (ht : i.IsToken) (hwf : i.wf = true)
    (rest : List Byte) : decodeHeader (headerBytes i ++ rest) = .ok (i, rest) := by
  cases i with
  | litX e => exact decodeHeader_litX e rest
  | litI v => exact decodeHeader_litI rest (by simpa [Instr.wf] using hwf)
  | endTok v e =>
    by_cases hv : v = 0#6
    · subst hv
      simpa [headerBytes] using decodeHeader_mfX e 0xFF#8 0xFF#8 rest
    · obtain rfl : e = 0 := by simpa [Instr.wf, hv] using hwf
      simpa [headerBytes, hv] using decodeHeader_mfI 0xFF#8 0xFF#8 rest hv
  | mfX e f =>
    have hf : f ≠ Config.endDistField := by simpa [Instr.wf] using hwf
    have h := decodeHeader_mfX e (f.extractLsb' 0 8) (f.extractLsb' 8 8) rest
    rw [far_field_bytes, if_neg hf] at h
    simpa [headerBytes] using h
  | mfI v f =>
    obtain ⟨hv, hf⟩ : v ≠ 0#6 ∧ f ≠ Config.endDistField := by simpa [Instr.wf] using hwf
    have h := decodeHeader_mfI (f.extractLsb' 0 8) (f.extractLsb' 8 8) rest hv
    rwa [far_field_bytes, if_neg hf] at h
  | msX e f =>
    have h := decodeHeader_msX e (f.extractLsb' 0 3) (f.extractLsb' 3 8) rest
    rw [near_field_bits] at h
    simpa [headerBytes] using h
  | msI v f =>
    have hv : v ≠ 0#4 := by simpa [Instr.wf] using hwf
    have h := decodeHeader_msI (f.extractLsb' 0 3) (f.extractLsb' 3 8) rest hv
    rwa [near_field_bits] at h
  | decStart | encStart => exact ht.elim

theorem encode_of_isToken {i : Instr} (h : i.IsToken) : encode i = .stream (headerBytes i) := by
  cases i with
  | litX | litI | endTok | mfX | mfI | msX | msI => rfl
  | decStart | encStart => exact h.elim

/-- The CTRL word of a host command decodes to it: bit 0 is START, and bits 31:1 are kept
(10_state.md R22). -/
theorem decode_encode_of_not_isToken {i : Instr} (h : ¬ i.IsToken) :
    decode (encode i) = .ok (i, []) ∧ ∀ bytes, encode i ≠ .stream bytes := by
  cases i with
  | litX | litI | endTok | mfX | mfI | msX | msI => exact (h trivial).elim
  | decStart x | encStart x =>
    refine ⟨?_, fun _ => by simp [encode]⟩
    rw [encode, decode, Machine.decodeCtrl_start _ BitVec.extractLsb'_append_eq_right,
      BitVec.extractLsb'_append_eq_left]
    rfl

/-- Settles O1: a token decodes by its row of the control-byte map, a host command by its CTRL
word. -/
theorem encodedInstructionDecodesBack : Obligations.EncodedInstructionDecodesBack := by
  unfold Obligations.EncodedInstructionDecodesBack
  intro i rest hwf
  by_cases ht : i.IsToken
  · rw [encode_of_isToken ht]
    refine ⟨?_, ?_⟩
    · simpa [decode] using decodeHeader_headerBytes ht hwf []
    · rintro bytes h
      cases h
      exact decodeHeader_headerBytes ht hwf rest
  · obtain ⟨hdec, hne⟩ := decode_encode_of_not_isToken ht
    exact ⟨hdec, fun bytes h => (hne bytes h).elim⟩

/-! ### Encoding what was decoded -/

theorem headerBytes_length (i : Instr) : (headerBytes i).length = headerLen i := by
  cases i with
  | litX e => exact Laws.HeaderLength.litX e
  | litI v => exact Laws.HeaderLength.litI v
  | endTok v e => exact Laws.HeaderLength.endTok v e
  | mfX e f => exact Laws.HeaderLength.mfX e f
  | mfI v f => exact Laws.HeaderLength.mfI v f
  | msX e f => exact Laws.HeaderLength.msX e f
  | msI v f => exact Laws.HeaderLength.msI v f
  | decStart x => exact Laws.HeaderLength.decStart x
  | encStart x => exact Laws.HeaderLength.encStart x

/-- `bytes` are the header of a well-formed `i`, and then `rest`. -/
def IsHeaderOf (i : Instr) (rest bytes : List Byte) : Prop :=
  i.wf = true ∧ bytes = headerBytes i ++ rest

theorem decodeLit_isHeaderOf {c : Byte} {bytes rest : List Byte} {i : Instr}
    (hc : c = 0b00#2 ++ c.extractLsb' 0 6) (h : decodeLit c bytes = .ok (i, rest)) :
    IsHeaderOf i rest (c :: bytes) := by
  unfold decodeLit at h
  dsimp only at h
  split at h
  next hv =>
    rw [hv] at hc
    split at h
    · cases h
    next hext =>
      cases h
      exact ⟨rfl, by rw [hc, eq_encodeExt_of_decodeExt hext]; rfl⟩
  next hv =>
    cases h
    exact ⟨by simpa [Instr.wf] using hv, congrArg (· :: _) hc⟩

/-- A far header with an inline count is well formed and has its distance bytes back, be it a match
or `END` (30_encoding.md R96, R97). -/
theorem isHeaderOf_farInline {v : BitVec 6} (lo hi : Byte) (rest : List Byte) (hv : v ≠ 0#6) :
    IsHeaderOf (if hi ++ lo = Config.endDistField then .endTok v 0 else .mfI v (hi ++ lo)) rest
      ((0b01#2 ++ v) :: lo :: hi :: rest) := by
  obtain ⟨hlo, hhi⟩ := far_field_split (f := hi ++ lo) rfl
  split
  next hend =>
    rw [hend] at hlo hhi
    exact ⟨by simp [Instr.wf], by rw [hlo, hhi]; simp [headerBytes, hv]⟩
  next hne => exact ⟨by simpa [Instr.wf] using ⟨hv, hne⟩, by simp [headerBytes, ← hlo, ← hhi]⟩

/-- A far header with an extension is well formed and has its bytes back, be it a match or `END`
(30_encoding.md R96, R97). -/
theorem isHeaderOf_farEscaped (e : Nat) (lo hi : Byte) (rest : List Byte) :
    IsHeaderOf (if hi ++ lo = Config.endDistField then .endTok 0#6 e else .mfX e (hi ++ lo)) rest
      (0x40#8 :: (encodeExt e ++ lo :: hi :: rest)) := by
  obtain ⟨hlo, hhi⟩ := far_field_split (f := hi ++ lo) rfl
  split
  next hend =>
    rw [hend] at hlo hhi
    exact ⟨rfl, by rw [hlo, hhi]; simp [headerBytes]⟩
  next hne => exact ⟨by simpa [Instr.wf] using hne, by simp [headerBytes, ← hlo, ← hhi]⟩

theorem decodeMf_isHeaderOf {c : Byte} {bytes rest : List Byte} {i : Instr}
    (hc : c = 0b01#2 ++ c.extractLsb' 0 6) (h : decodeMf c bytes = .ok (i, rest)) :
    IsHeaderOf i rest (c :: bytes) := by
  unfold decodeMf at h
  dsimp only at h
  split at h
  next hv =>
    split at h
    · cases h
    next e lo hi rest' hext =>
      cases h
      rw [hc, hv, eq_encodeExt_of_decodeExt hext]
      exact isHeaderOf_farEscaped e lo hi rest
    · cases h
  next hv =>
    split at h
    next lo hi rest' =>
      cases h
      have hfar := isHeaderOf_farInline lo hi rest hv
      rwa [← hc] at hfar
    · cases h

theorem decodeMs_isHeaderOf {c : Byte} {bytes rest : List Byte} {i : Instr}
    (hc : c = 0b1#1 ++ c.extractLsb' 3 4 ++ c.extractLsb' 0 3)
    (h : decodeMs c bytes = .ok (i, rest)) : IsHeaderOf i rest (c :: bytes) := by
  unfold decodeMs at h
  dsimp only at h
  split at h
  next hv =>
    rw [hv] at hc
    split at h
    · cases h
    · cases h
    next e dh rest' hext =>
      cases h
      obtain ⟨hdl, hdh⟩ := near_field_split (f := dh ++ c.extractLsb' 0 3) rfl
      refine ⟨rfl, ?_⟩
      rw [eq_encodeExt_of_decodeExt hext]
      simp only [headerBytes, ← hdl, ← hdh, ms_escape_control_eq, ← hc]
      simp
  next hv =>
    split at h
    · cases h
    next dh rest' =>
      cases h
      obtain ⟨hdl, hdh⟩ := near_field_split (f := dh ++ c.extractLsb' 0 3) rfl
      refine ⟨by simpa [Instr.wf] using hv, ?_⟩
      simp only [headerBytes, ← hdl, ← hdh, ← hc]
      simp

theorem decodeHeader_isHeaderOf {bytes rest : List Byte} {i : Instr}
    (h : decodeHeader bytes = .ok (i, rest)) : IsHeaderOf i rest bytes := by
  unfold decodeHeader at h
  split at h
  · cases h
  next c bytes' =>
    obtain ⟨hlit, hmf⟩ := control_class c
    split at h
    next h0 => exact decodeLit_isHeaderOf (lit_control_eq (hlit.1 h0)) h
    next h0 =>
      rw [hlit] at h0
      split at h
      next h1 =>
        obtain ⟨hge, hlt⟩ := hmf.1 h1
        exact decodeMf_isHeaderOf (mf_control_eq hge hlt) h
      next h1 =>
        rw [hmf] at h1
        exact decodeMs_isHeaderOf (ms_control_eq (by omega)) h

/-- Settles O2. -/
theorem decodedHeaderIsItsEncoding : Obligations.DecodedHeaderIsItsEncoding := by
  unfold Obligations.DecodedHeaderIsItsEncoding
  intro bytes i rest h
  obtain ⟨hwf, hbytes⟩ := decodeHeader_isHeaderOf h
  exact ⟨hwf, encode_of_isToken (decodeHeader_isToken h), hbytes, headerBytes_length i⟩

/-! ### The control-byte map (30_encoding.md R100) -/

theorem far_field_toNat (hi lo : Byte) : (hi ++ lo).toNat = lo.toNat + 256 * hi.toNat := by
  rw [toNat_append_eq, Nat.add_comm]
  rfl

theorem near_field_toNat (c dh : Byte) :
    (dh ++ c.extractLsb' 0 3).toNat = 8 * dh.toNat + c.toNat % 8 := by
  rw [toNat_append_eq, BitVec.extractLsb'_toNat]
  rfl

theorem count_field_toNat (c : Byte) : (c.extractLsb' 0 6).toNat = c.toNat % 64 :=
  BitVec.extractLsb'_toNat ..

theorem near_count_field_toNat (c : Byte) : (c.extractLsb' 3 4).toNat = c.toNat / 8 % 16 := by
  rw [BitVec.extractLsb'_toNat, Nat.shiftRight_eq_div_pow]

theorem ne_zero_of_toNat {w : Nat} {v : BitVec w} (h : v.toNat ≠ 0) : v ≠ 0#w := by
  rintro rfl
  simp at h

/-- Settles O4, each range by its row of the decoder: the control byte is put together from its
class, its count field and the low bits of a near distance. -/
theorem controlByteMapHasNoGap : Obligations.ControlByteMapHasNoGap := by
  unfold Obligations.ControlByteMapHasNoGap
  intro c lo hi e rest
  have hcount := count_field_toNat c
  have hnear := near_count_field_toNat c
  refine ⟨fun hc => ?_, fun hc => ?_, fun hc => ?_, fun hc => ?_, fun hc => ?_, fun hc => ?_, rfl⟩
  · obtain rfl : c = 0x00#8 := BitVec.eq_of_toNat_eq hc
    exact ⟨decodeHeader_litX e rest, rfl⟩
  · have hdec := decodeHeader_litI rest (ne_zero_of_toNat (v := c.extractLsb' 0 6) (by omega))
    rw [← lit_control_eq (by omega)] at hdec
    refine ⟨_, hdec, ?_⟩
    rw [Machine.tokenWork, Machine.litInline, hcount, Nat.mod_eq_of_lt (by omega)]
  · obtain rfl : c = 0x40#8 := BitVec.eq_of_toNat_eq hc
    exact ⟨hi ++ lo, far_field_toNat hi lo, decodeHeader_mfX e lo hi rest, rfl⟩
  · have hdec := decodeHeader_mfI lo hi rest (ne_zero_of_toNat (v := c.extractLsb' 0 6) (by omega))
    rw [← mf_control_eq (by omega) (by omega)] at hdec
    refine ⟨_, hi ++ lo, by omega, far_field_toNat hi lo, hdec, ?_⟩
    rw [Machine.tokenWork, Machine.mfInline, hcount,
      show c.toNat % 64 + 3 = c.toNat - 0x3D by omega]
    rfl
  · have hzero : c.extractLsb' 3 4 = 0#4 := BitVec.eq_of_toNat_eq (by rw [hnear]; simp; omega)
    have hdec := decodeHeader_msX e (c.extractLsb' 0 3) lo rest
    rw [ms_escape_control_eq, ← hzero, ← ms_control_eq (by omega)] at hdec
    exact ⟨_, near_field_toNat c lo, hdec, rfl⟩
  · have hdec := decodeHeader_msI (c.extractLsb' 0 3) lo rest
      (ne_zero_of_toNat (v := c.extractLsb' 3 4) (by omega))
    rw [← ms_control_eq (by omega)] at hdec
    refine ⟨_, _, near_field_toNat c lo, hdec, ?_⟩
    rw [Machine.tokenWork, Machine.msInline, hnear]
    rfl

/-! ### Words written out from the rules -/

/-- Settles O5: the eight headers and the two START words are closed terms. -/
theorem sampleWordsDecode : Obligations.SampleWordsDecode := by
  unfold Obligations.SampleWordsDecode
  refine ⟨?_, ?_, ?_, ?_, ?_, ?_, ?_, ?_, ?_, ?_⟩ <;> decide

end Sys2Proof
end

section
/-! A whole token that completes (30_encoding.md R94 to R97): the parse leaves its count and distance
in the registers, and the phase behind it copies or ends the call (43_decoder_copy_engine.md R220 to
R222, R225). -/

namespace Sys2Proof.Machine

/-! ### Registers that take a natural -/

theorem toNat_ofNat_of_lt {w n : Nat} (h : n < 2 ^ w) : (BitVec.ofNat w n).toNat = n :=
  (BitVec.toNat_ofNat ..).trans (Nat.mod_eq_of_lt h)

/-- A header of `header` bytes lies in the stream, so IP stands behind it without wrapping. -/
theorem ip_after_header {d : Dec} {header : Nat}
    (h : d.ip.toNat + header ≤ d.bank.inLen.toNat) :
    (toWord (d.ip.toNat + header)).toNat = d.ip.toNat + header :=
  toWord_toNat_of_lt (Nat.lt_of_le_of_lt h d.bank.inLen.isLt)

/-! ### The copies -/

/-- The byte-at-a-time copy repeats the last `d` bytes with period `d`: byte `j` equals byte `j - d`
of the copy, and before the copy begins that is what stood below it (43_decoder_copy_engine.md
R225). -/
theorem Memory.copyBack_period (m : Memory) {base d len j : Nat} (hd : 1 ≤ d) (hdb : d ≤ base)
    (hj : j < len) : (m.copyBack base d len).read (base + j) = m.read (base - d + j % d) := by
  induction j using Nat.strong_induction_on with
  | _ j ih =>
    rw [m.copyBack_inside base d len (base + j) hd (by omega) (by omega)]
    by_cases hlt : j < d
    · rw [Memory.copyBack_outside _ _ _ _ _ (.inl (by omega)), Nat.mod_eq_of_lt hlt]
      congr 1
      omega
    · rw [show base + j - d = base + (j - d) by omega, ih (j - d) (by omega) (by omega),
        ← Nat.mod_eq_sub_mod (by omega)]

/-- CopyLiteral behind a parsed header, where the payload is in the stream and fits. -/
theorem Dec.literalDone_copyLiteral {d : Dec} {header n : Nat}
    (hin : d.ip.toNat + header + n ≤ d.bank.inLen.toNat)
    (hout : d.op.toNat + n ≤ d.bank.outCap.toNat) :
    LiteralDone d (d.parsedLit header n).copyLiteral header n := by
  have hlen := d.bank.inLen.isLt
  have hcap := d.bank.outCap.isLt
  have hip := ip_after_header (d := d) (header := header) (by omega)
  have hcnt : (BitVec.ofNat 40 n).toNat = n := toNat_ofNat_of_lt (by omega)
  obtain ⟨h, -⟩ | ⟨-, h, -⟩ | ⟨-, -, h⟩ := (d.parsedLit header n).copyLiteral_cases
  · simp only [Dec.parsedLit_bank, Dec.parsedLit_ip, Dec.parsedLit_cnt, hip, hcnt] at h
    omega
  · simp only [Dec.parsedLit_bank, Dec.parsedLit_op, Dec.parsedLit_cnt, hcnt] at h
    omega
  · rw [h]
    simp only [LiteralDone, Dec.parsedLit_bank, Dec.parsedLit_ip, Dec.parsedLit_op,
      Dec.parsedLit_cnt, Dec.parsedLit_dist, hip, hcnt]
    refine ⟨toWord_toNat_of_lt (by omega), toWord_toNat_of_lt (by omega), trivial, trivial, trivial,
      ⟨⟨rfl, rfl, rfl⟩, rfl, rfl, rfl⟩, fun a => ?_⟩
    rw [Memory.read_writeBytes, Memory.readBytes_length]
    split
    next ha => exact Memory.readBytes_getD _ _ _ _ _ (by omega)
    next => rfl

/-- CopyMatch behind a parsed header, where the distance stays in the output and the length fits. -/
theorem Dec.matchDone_copyMatch {d : Dec} {header len dist : Nat}
    (hin : d.ip.toNat + header ≤ d.bank.inLen.toNat) (hpos : 1 ≤ dist) (hmax : dist ≤ 65536)
    (hdist : dist ≤ d.op.toNat) (hout : d.op.toNat + len ≤ d.bank.outCap.toNat) :
    MatchDone d (d.parsedMatch header len dist .cm).copyMatch header len dist := by
  have hcap := d.bank.outCap.isLt
  have hip := ip_after_header hin
  have hcnt : (BitVec.ofNat 40 len).toNat = len := toNat_ofNat_of_lt (by omega)
  have hdst := toNat_ofNat_of_lt (w := 17) (n := dist) (by omega)
  obtain ⟨h, -⟩ | ⟨-, h, -⟩ | ⟨-, -, h⟩ := (d.parsedMatch header len dist .cm).copyMatch_cases
  · simp only [Dec.parsedMatch_op, Dec.parsedMatch_dist, hdst] at h
    omega
  · simp only [Dec.parsedMatch_bank, Dec.parsedMatch_op, Dec.parsedMatch_cnt, hcnt] at h
    omega
  · rw [h]
    simp only [MatchDone, Dec.parsedMatch_bank, Dec.parsedMatch_ip, Dec.parsedMatch_op,
      Dec.parsedMatch_cnt, Dec.parsedMatch_dist, hip, hcnt, hdst]
    refine ⟨trivial, toWord_toNat_of_lt (by omega), trivial, trivial, trivial,
      ⟨⟨rfl, rfl, rfl⟩, rfl, rfl, rfl⟩, fun a => ?_⟩
    split
    next ha =>
      obtain ⟨j, rfl⟩ := Nat.exists_eq_add_of_le ha.1
      rw [Nat.add_sub_cancel_left]
      exact Memory.copyBack_period _ hpos hdist (by omega)
    next ha => exact Memory.copyBack_outside _ _ _ _ _ (by omega)

/-! ### The tokens -/

theorem State.sameButDec_withDec (s : State) (d : Dec) : SameButDec s (s.withDec d) :=
  ⟨rfl, rfl, rfl, rfl, rfl⟩

/-- A token's effect on a DEC between tokens is all that its instruction does. -/
theorem AtToken.exec_eq {s : State} {header : Nat} {i : Instr} {f : Dec → Dec}
    (hat : AtToken s header) (hi : exec i s = .next (s.token f)) :
    exec i s = .next (s.withDec (f s.dec)) := by
  obtain ⟨hbusy, hphase, -⟩ := hat
  rw [hi, State.token_of_busy f hbusy hphase]

theorem AtToken.literal_copies {s : State} {header n : Nat} {i : Instr} (hat : AtToken s header)
    (hi : exec i s = .next (s.token fun d => (d.parsedLit header n).copyLiteral))
    (hin : s.dec.ip.toNat + header + n ≤ s.dec.bank.inLen.toNat)
    (hout : s.dec.op.toNat + n ≤ s.dec.bank.outCap.toNat) :
    ∃ t, exec i s = .next t ∧ SameButDec s t ∧ LiteralDone s.dec t.dec header n :=
  ⟨_, hat.exec_eq hi, s.sameButDec_withDec _, Dec.literalDone_copyLiteral hin hout⟩

theorem AtToken.match_repeats {s : State} {header len dist : Nat} {i : Instr}
    (hat : AtToken s header)
    (hi : exec i s = .next (s.token fun d => (d.parsedMatch header len dist .cm).copyMatch))
    (hpos : 1 ≤ dist) (hmax : dist ≤ 65536) (hdist : dist ≤ s.dec.op.toNat)
    (hout : s.dec.op.toNat + len ≤ s.dec.bank.outCap.toNat) :
    ∃ t, exec i s = .next t ∧ SameButDec s t ∧ MatchDone s.dec t.dec header len dist := by
  have heq := hat.exec_eq hi
  obtain ⟨-, -, hin⟩ := hat
  exact ⟨_, heq, s.sameButDec_withDec _, Dec.matchDone_copyMatch hin hpos hmax hdist hout⟩

/-- Settles O9: both forms parse a count and copy that many payload bytes. -/
theorem literalTokensCopyTheirPayload : Obligations.LiteralTokensCopyTheirPayload := by
  unfold Obligations.LiteralTokensCopyTheirPayload
  refine ⟨fun s v _ hat hin hout => ?_, fun s e hat hin hout => ?_⟩
  · exact hat.literal_copies rfl hin hout
  · exact hat.literal_copies rfl hin hout

/-- Settles O11: the four forms differ in the operands they parse; each copies with the period of its
distance. -/
theorem matchTokensRepeatTheOutput : Obligations.MatchTokensRepeatTheOutput := by
  unfold Obligations.MatchTokensRepeatTheOutput
  refine ⟨fun s v f _ hat hdist hout => ?_, fun s e f hat hdist hout => ?_,
    fun s v f _ _ hat hdist hout => ?_, fun s e f _ hat hdist hout => ?_⟩
  · exact hat.match_repeats rfl (by omega) (by omega) hdist hout
  · exact hat.match_repeats rfl (by omega) (by omega) hdist hout
  · exact hat.match_repeats rfl (by omega) (by omega) hdist hout
  · exact hat.match_repeats rfl (by omega) (by omega) hdist hout

/-! ### The end marker -/

/-- DEC after a whole `END` token whose header ends the stream (43_decoder_copy_engine.md R222). -/
def EndDone (d d' : Dec) (count : Nat) : Prop :=
  d'.bank.status = .done ∧ d'.bank.outLen = d.op ∧ SameArguments d.bank d'.bank ∧
    d'.bank.outMem = d.bank.outMem ∧ d'.bank.draws = d.bank.draws ∧ d'.ip = d.bank.inLen ∧
    d'.op = d.op ∧ d'.phase = .dn ∧ d'.cnt.toNat = count ∧ d'.dist.toNat = 65536

/-- The count an `END` leaves fits CNT, because the bytes that carry it lie in the stream. -/
theorem endCount_lt {v : BitVec 6} {e : Nat} (h : headerLen (.endTok v e) < 2 ^ 32) :
    endCount v e < 2 ^ 40 := by
  unfold endCount
  split
  next hv =>
    have hlen : 3 + (e / 255 + 1) < 2 ^ 32 := by simpa [headerLen, extLen, hv] using h
    show 66 + 1 + e < 2 ^ 40
    omega
  next =>
    show v.toNat + 3 < 2 ^ 40
    omega

theorem Dec.endDone_finish {d : Dec} {header count : Nat}
    (hend : d.ip.toNat + header = d.bank.inLen.toNat) (hcount : count < 2 ^ 40) :
    EndDone d (d.parsedMatch header count 65536 .dn).finish count := by
  have hip : toWord (d.ip.toNat + header) = d.bank.inLen := by
    rw [hend, toWord, BitVec.ofNat_toNat, BitVec.setWidth_eq]
  obtain ⟨-, h⟩ | ⟨hne, -⟩ := (d.parsedMatch header count 65536 .dn).finish_cases
  · rw [h]
    exact ⟨rfl, rfl, ⟨rfl, rfl, rfl⟩, rfl, rfl, hip, rfl, rfl, toNat_ofNat_of_lt hcount, rfl⟩
  · exact absurd hip hne

theorem Dec.tokenRaised_finish {d : Dec} {header count : Nat}
    (hmore : d.ip.toNat + header < d.bank.inLen.toNat) (hcount : count < 2 ^ 40) :
    TokenRaised d (d.parsedMatch header count 65536 .dn).finish .inputNotConsumed header count
      65536 .dn := by
  have hip := ip_after_header (Nat.le_of_lt hmore)
  obtain ⟨heq, -⟩ | ⟨-, h⟩ := (d.parsedMatch header count 65536 .dn).finish_cases
  · have := congrArg BitVec.toNat heq
    rw [Dec.parsedMatch_ip, hip, Dec.parsedMatch_bank] at this
    omega
  · rw [h]
    exact ⟨rfl, ⟨rfl, rfl, rfl⟩, rfl, hip, toNat_ofNat_of_lt hcount, rfl, rfl⟩

/-- Settles O13: the end check compares IP behind the header with IN_LEN. -/
theorem endTokenEndsTheCall : Obligations.EndTokenEndsTheCall := by
  unfold Obligations.EndTokenEndsTheCall
  intro s v e _ hat
  have heq := hat.exec_eq (i := .endTok v e) rfl
  obtain ⟨-, -, hin⟩ := hat
  have hlt := s.dec.bank.inLen.isLt
  have hcount : endCount v e < 2 ^ 40 := endCount_lt (by omega)
  exact ⟨fun hend => ⟨_, heq, s.sameButDec_withDec _, Dec.endDone_finish hend hcount⟩,
    fun hmore => ⟨_, heq, s.sameButDec_withDec _, Dec.tokenRaised_finish hmore hcount⟩⟩

end Sys2Proof.Machine
end

section
/-! Decompress succeeds exactly on the well-formed streams that fit (30_encoding.md R103,
43_decoder_copy_engine.md R226): a header that decodes is that of a textual token or an end marker
(R105, R106), and the loop of Decompress does with it what the expansion of the tokens does. -/

namespace Sys2Proof.Machine

/-! ### Textual tokens and instructions (30_encoding.md R92, R94 to R97, R105) -/

/-- `i` is the instruction of the textual token `t`, with its operands at values the encoding
admits. -/
inductive AsmToken.Spells : AsmToken → Instr → Prop where
  | litI {p : List Byte} {v : BitVec 6} (hv : v ≠ 0#6) (hp : p.length = v.toNat) :
    Spells (.lit p) (.litI v)
  | litX {p : List Byte} {e : Nat} (hp : p.length = 64 + e) : Spells (.lit p) (.litX e)
  | msI {len dist : Nat} {v : BitVec 4} {f : BitVec 11} (hv : v ≠ 0#4)
    (hlen : len = v.toNat + 2) (hdist : dist = f.toNat + 1) : Spells (.ms len dist) (.msI v f)
  | msX {len dist e : Nat} {f : BitVec 11} (hlen : len = 18 + e) (hdist : dist = f.toNat + 1) :
    Spells (.ms len dist) (.msX e f)
  | mfI {len dist : Nat} {v : BitVec 6} {f : BitVec 16} (hv : v ≠ 0#6)
    (hf : f ≠ Config.endDistField) (hlen : len = v.toNat + 3) (hdist : dist = f.toNat + 1) :
    Spells (.mf len dist) (.mfI v f)
  | mfX {len dist e : Nat} {f : BitVec 16} (hf : f ≠ Config.endDistField) (hlen : len = 67 + e)
    (hdist : dist = f.toNat + 1) : Spells (.mf len dist) (.mfX e f)

/-- What a token asks of the copy engine. -/
def AsmToken.work : AsmToken → TokenWork
  | .lit payload => .literal payload.length
  | .ms len dist => .backref len dist
  | .mf len dist => .backref len dist

theorem AsmToken.Spells.isToken {t : AsmToken} {i : Instr} (h : t.Spells i) : i.IsToken := by
  cases h <;> trivial

theorem AsmToken.Spells.wf {t : AsmToken} {i : Instr} (h : t.Spells i) : i.wf = true := by
  cases h with
  | litI hv hp => simpa [Instr.wf] using hv
  | msI hv hlen hdist => simpa [Instr.wf] using hv
  | mfI hv hf hlen hdist => simpa [Instr.wf] using ⟨hv, hf⟩
  | mfX hf hlen hdist => simpa [Instr.wf] using hf
  | litX | msX => rfl

theorem AsmToken.Spells.tokenWork_eq {t : AsmToken} {i : Instr} (h : t.Spells i) :
    tokenWork i = t.work := by
  cases h with
  | litI hv hp => rw [AsmToken.work, hp]; rfl
  | litX hp => rw [AsmToken.work, hp]; rfl
  | msI hv hlen hdist => rw [hlen, hdist]; rfl
  | msX hlen hdist => rw [hlen, hdist]; rfl
  | mfI hv hf hlen hdist => rw [hlen, hdist]; rfl
  | mfX hf hlen hdist => rw [hlen, hdist]; rfl

theorem far_field_ne_end_iff (f : BitVec 16) : f ≠ Config.endDistField ↔ f.toNat ≠ 65535 :=
  not_congr BitVec.toNat_inj.symm

/-- A legal token spells the instruction it assembles to. -/
theorem AsmToken.spells_instr {t : AsmToken} (h : t.legal = true) : t.Spells t.instr := by
  cases t with
  | lit p =>
    have hpos : 1 ≤ p.length := by simpa [AsmToken.legal] using h
    by_cases hshort : p.length ≤ 63
    · have hv := toNat_ofNat_of_lt (w := 6) (n := p.length) (by omega)
      rw [AsmToken.instr, if_pos hshort]
      exact .litI (ne_zero_of_toNat (by omega)) hv.symm
    · rw [AsmToken.instr, if_neg hshort]
      exact .litX (by omega)
  | ms len dist =>
    obtain ⟨⟨hlen, hpos⟩, hdist⟩ : (3 ≤ len ∧ 1 ≤ dist) ∧ dist ≤ 2048 := by
      simpa [AsmToken.legal] using h
    have hf := toNat_ofNat_of_lt (w := 11) (n := dist - 1) (by omega)
    by_cases hshort : len ≤ 17
    · have hv := toNat_ofNat_of_lt (w := 4) (n := len - 2) (by omega)
      rw [AsmToken.instr, if_pos hshort]
      exact .msI (ne_zero_of_toNat (by omega)) (by omega) (by omega)
    · rw [AsmToken.instr, if_neg hshort]
      exact .msX (by omega) (by omega)
  | mf len dist =>
    obtain ⟨⟨hlen, hpos⟩, hdist⟩ : (4 ≤ len ∧ 1 ≤ dist) ∧ dist ≤ 65535 := by
      simpa [AsmToken.legal] using h
    have hf := toNat_ofNat_of_lt (w := 16) (n := dist - 1) (by omega)
    have hne := (far_field_ne_end_iff (BitVec.ofNat 16 (dist - 1))).2 (by omega)
    by_cases hshort : len ≤ 66
    · have hv := toNat_ofNat_of_lt (w := 6) (n := len - 3) (by omega)
      rw [AsmToken.instr, if_pos hshort]
      exact .mfI (ne_zero_of_toNat (by omega)) hne (by omega) (by omega)
    · rw [AsmToken.instr, if_neg hshort]
      exact .mfX hne (by omega) (by omega)

theorem toNat_pos {w : Nat} {v : BitVec w} (h : v ≠ 0#w) : 0 < v.toNat :=
  Nat.pos_of_ne_zero fun hz => h (BitVec.eq_of_toNat_eq (hz.trans BitVec.toNat_zero.symm))

/-- A token that spells an instruction is legal and assembles to it. -/
theorem AsmToken.Spells.legal_instr {t : AsmToken} {i : Instr} (h : t.Spells i) :
    t.legal = true ∧ t.instr = i := by
  cases h with
  | litI hv hp =>
    have := toNat_pos hv
    simp [AsmToken.legal, AsmToken.instr, hp]
    omega
  | litX hp =>
    simp [AsmToken.legal, AsmToken.instr, hp]
    omega
  | @msI _ _ v f hv hlen hdist =>
    have := toNat_pos hv
    simp [AsmToken.legal, AsmToken.instr, hlen, hdist]
    omega
  | @msX _ _ e f hlen hdist =>
    simp [AsmToken.legal, AsmToken.instr, hlen, hdist]
    omega
  | @mfI _ _ v f hv hf hlen hdist =>
    have := toNat_pos hv
    rw [far_field_ne_end_iff] at hf
    simp [AsmToken.legal, AsmToken.instr, hlen, hdist]
    omega
  | @mfX _ _ e f hf hlen hdist =>
    rw [far_field_ne_end_iff] at hf
    simp [AsmToken.legal, AsmToken.instr, hlen, hdist]
    omega

/-- A well-formed token instruction is spelled by a literal of its count, by a match, or is that of an
end marker. -/
theorem spelled_of_wf {i : Instr} (ht : i.IsToken) (hwf : i.wf = true) :
    (∃ n, tokenWork i = .literal n ∧ ∀ p : List Byte, p.length = n → (AsmToken.lit p).Spells i) ∨
    (∃ t : AsmToken, t.Spells i ∧ t.payload = []) ∨
    ∃ last : AsmEnd, last.legal = true ∧ last.instr = i := by
  cases i with
  | litX e => exact .inl ⟨_, rfl, fun _ hp => .litX hp⟩
  | litI v => exact .inl ⟨_, rfl, fun _ hp => .litI (by simpa [Instr.wf] using hwf) hp⟩
  | endTok v e =>
    refine .inr (.inr ?_)
    by_cases hv : v = 0#6
    · exact ⟨.endX e, rfl, by rw [hv]; rfl⟩
    · obtain rfl : e = 0 := by simpa [Instr.wf, hv] using hwf
      exact ⟨.endV v, by simpa [AsmEnd.legal] using hv, rfl⟩
  | mfX e f => exact .inr (.inl ⟨.mf _ _, .mfX (by simpa [Instr.wf] using hwf) rfl rfl, rfl⟩)
  | mfI v f =>
    obtain ⟨hv, hf⟩ : v ≠ 0#6 ∧ f ≠ Config.endDistField := by simpa [Instr.wf] using hwf
    exact .inr (.inl ⟨.mf _ _, .mfI hv hf rfl rfl, rfl⟩)
  | msX e f => exact .inr (.inl ⟨.ms _ _, .msX rfl rfl, rfl⟩)
  | msI v f => exact .inr (.inl ⟨.ms _ _, .msI (by simpa [Instr.wf] using hwf) rfl rfl, rfl⟩)
  | decStart | encStart => exact ht.elim

/-! ### The bytes of textual tokens (30_encoding.md R98, R105, R106) -/

theorem decodeHeader_token {t : AsmToken} (h : t.legal = true) (rest : List Byte) :
    decodeHeader (t.bytes ++ rest) = .ok (t.instr, t.payload ++ rest) := by
  have hs := AsmToken.spells_instr h
  rw [AsmToken.bytes, List.append_assoc]
  exact decodeHeader_headerBytes hs.isToken hs.wf _

theorem decodeHeader_end {last : AsmEnd} (h : last.legal = true) (rest : List Byte) :
    decodeHeader (headerBytes last.instr ++ rest) = .ok (last.instr, rest) := by
  refine decodeHeader_headerBytes ?_ ?_ rest
  · cases last <;> trivial
  · cases last with
    | endV k => simp [AsmEnd.instr, Instr.wf]
    | endX e => rfl

theorem AsmToken.Spells.bytes_append {t : AsmToken} {i : Instr} (h : t.Spells i) (s : List Byte) :
    t.bytes ++ s = headerBytes i ++ (t.payload ++ s) := by
  obtain ⟨-, rfl⟩ := h.legal_instr
  rw [AsmToken.bytes, List.append_assoc]

/-- Bytes whose header decodes begin with an end marker, with a token, or with a literal header whose
payload is cut short. -/
theorem decodeHeader_cases {s rest : List Byte} {i : Instr} (h : decodeHeader s = .ok (i, rest)) :
    (∃ last : AsmEnd, last.legal = true ∧ s = headerBytes last.instr ++ rest) ∨
    (∃ (t : AsmToken) (s' : List Byte), t.legal = true ∧ s = t.bytes ++ s') ∨
    ∃ n, tokenWork i = .literal n ∧ rest.length < n := by
  obtain ⟨hwf, rfl⟩ := decodeHeader_isHeaderOf h
  obtain ⟨n, hn, hlit⟩ | ⟨t, ht, hp⟩ | ⟨last, hl, rfl⟩ := spelled_of_wf (decodeHeader_isToken h) hwf
  · by_cases hcut : rest.length < n
    · exact .inr (.inr ⟨n, hn, hcut⟩)
    · have hs := hlit (rest.take n) (by rw [List.length_take]; omega)
      obtain ⟨hlegal, -⟩ := hs.legal_instr
      refine .inr (.inl ⟨_, rest.drop n, hlegal, ?_⟩)
      rw [hs.bytes_append, AsmToken.payload, List.take_append_drop]
  · obtain ⟨hlegal, -⟩ := ht.legal_instr
    exact .inr (.inl ⟨t, rest, hlegal, by rw [ht.bytes_append, hp, List.nil_append]⟩)
  · exact .inl ⟨last, hl, rfl⟩

/-! ### The output of tokens (30_encoding.md R103) -/

/-- The number of bytes a token appends to the output. -/
def AsmToken.count : AsmToken → Nat
  | .lit payload => payload.length
  | .ms len _ => len
  | .mf len _ => len

theorem repeatBack_length (d n : Nat) (out : List Byte) :
    (repeatBack d n out).length = out.length + n := by
  induction n generalizing out with
  | zero => rfl
  | succ n ih =>
    rw [repeatBack, ih, List.length_append, List.length_singleton]
    omega

theorem AsmToken.expand_length (t : AsmToken) (out : List Byte) :
    (t.expand out).length = out.length + t.count := by
  cases t with
  | lit p => exact List.length_append
  | ms len dist | mf len dist => exact repeatBack_length ..

theorem expandTokens_length_le {out out' : List Byte} {ts : List AsmToken}
    (h : expandTokens out ts = some out') : out.length ≤ out'.length := by
  induction ts generalizing out with
  | nil => rw [Option.some.inj h]
  | cons t ts ih =>
    rw [expandTokens] at h
    split at h
    · exact Nat.le_trans (by rw [t.expand_length]; omega) (ih h)
    · cases h

/-! ### The loop of Decompress (43_decoder_copy_engine.md R226) -/

/-- A round that finds a token: the distance test, then the capacity test, then the token's output. -/
theorem decompressLoop_token {t : AsmToken} (h : t.legal = true) (cap fuel : Nat)
    (s out : List Byte) :
    decompressLoop cap (fuel + 1) (t.bytes ++ s) out =
      if out.length < t.dist then .err .inputOverrun
      else if cap - out.length < t.count then .err .outputOverrun
      else decompressLoop cap fuel s (t.expand out) := by
  rw [decompressLoop, decodeHeader_token h]
  simp only [(AsmToken.spells_instr h).tokenWork_eq]
  cases t with
  | lit p =>
    have hwhole : ¬ (p ++ s).length < p.length := by simp
    simp only [AsmToken.work, AsmToken.payload, if_neg hwhole, List.drop_left, List.take_left]
    exact (if_neg (Nat.not_lt_zero _)).symm
  | ms len dist | mf len dist => rfl

/-- A round that finds an end marker ends the call. -/
theorem decompressLoop_end {last : AsmEnd} (h : last.legal = true) (cap fuel : Nat)
    (s out : List Byte) :
    decompressLoop cap (fuel + 1) (headerBytes last.instr ++ s) out =
      if s = [] then .ok out else .err .inputNotConsumed := by
  rw [decompressLoop, decodeHeader_end h]
  cases last <;> rfl

/-- `s` is a stream that continues `out` to `out'`: tokens and an end marker (30_encoding.md R103). -/
def StreamFrom (out s out' : List Byte) : Prop :=
  ∃ ts last, s = assembleStream ts last ∧ last.legal = true ∧ expandTokens out ts = some out'

theorem wellFormedStream_iff (s out : List Byte) : WellFormedStream s out ↔ StreamFrom [] s out :=
  Iff.rfl

theorem StreamFrom.endMarker {last : AsmEnd} (h : last.legal = true) (out : List Byte) :
    StreamFrom out (headerBytes last.instr) out :=
  ⟨[], last, rfl, h, rfl⟩

theorem assembleStream_cons (t : AsmToken) (ts : List AsmToken) (last : AsmEnd) :
    assembleStream (t :: ts) last = t.bytes ++ assembleStream ts last :=
  List.append_assoc ..

theorem StreamFrom.token {t : AsmToken} {out s out' : List Byte} (h : t.legal = true)
    (hdist : t.dist ≤ out.length) (hs : StreamFrom (t.expand out) s out') :
    StreamFrom out (t.bytes ++ s) out' := by
  obtain ⟨ts, last, rfl, hlast, hts⟩ := hs
  refine ⟨t :: ts, last, (assembleStream_cons ..).symm, hlast, ?_⟩
  rw [expandTokens, if_pos ⟨h, hdist⟩, hts]

/-- Where the loop succeeds it has read a stream, and its output fits. -/
theorem streamFrom_of_decompressLoop {cap fuel : Nat} {s out out' : List Byte}
    (hcap : out.length ≤ cap) (h : decompressLoop cap fuel s out = .ok out') :
    StreamFrom out s out' ∧ out'.length ≤ cap := by
  induction fuel generalizing s out with
  | zero => cases h
  | succ fuel ih =>
    cases hdec : decodeHeader s with
    | error r => simp [decompressLoop, hdec] at h
    | ok ir =>
      obtain ⟨i, rest⟩ := ir
      obtain ⟨last, hlast, rfl⟩ | ⟨t, s', ht, rfl⟩ | ⟨n, hn, hcut⟩ := decodeHeader_cases hdec
      · rw [decompressLoop_end hlast] at h
        split at h
        next hnil =>
          cases h
          rw [hnil, List.append_nil]
          exact ⟨StreamFrom.endMarker hlast _, hcap⟩
        next => cases h
      · rw [decompressLoop_token ht] at h
        split at h
        · cases h
        next hdist =>
          split at h
          · cases h
          next hfit =>
            obtain ⟨hs, hcap'⟩ := ih (by rw [t.expand_length]; omega) h
            exact ⟨StreamFrom.token ht (Nat.not_lt.1 hdist) hs, hcap'⟩
      · simp [decompressLoop, hdec, hn, hcut] at h

theorem AsmToken.bytes_length_pos {t : AsmToken} (h : t.legal = true) : 0 < t.bytes.length := by
  refine List.length_pos_iff.2 fun hnil => ?_
  have hdec := decodeHeader_token h []
  rw [hnil] at hdec
  cases hdec

/-- The loop reads every stream whose output fits, given a round for each byte and one more. -/
theorem decompressLoop_of_streamFrom {cap fuel : Nat} {s out out' : List Byte}
    (hfuel : s.length < fuel) (hs : StreamFrom out s out') (hcap : out'.length ≤ cap) :
    decompressLoop cap fuel s out = .ok out' := by
  obtain ⟨ts, last, rfl, hlast, hts⟩ := hs
  obtain ⟨fuel, rfl⟩ := Nat.exists_eq_add_one.2 (Nat.zero_lt_of_lt hfuel)
  induction ts generalizing fuel out with
  | nil =>
    have hend := decompressLoop_end hlast cap fuel [] out
    rw [List.append_nil, if_pos rfl] at hend
    rw [← Option.some.inj hts]
    exact hend
  | cons t ts ih =>
    rw [expandTokens] at hts
    split at hts
    next hlegal =>
      obtain ⟨ht, hdist⟩ := hlegal
      have hpos := AsmToken.bytes_length_pos ht
      have hlen := expandTokens_length_le hts
      rw [t.expand_length] at hlen
      rw [assembleStream_cons, List.length_append] at hfuel
      obtain ⟨fuel, rfl⟩ : ∃ k, fuel = k + 1 := ⟨fuel - 1, by omega⟩
      rw [assembleStream_cons, decompressLoop_token ht, if_neg (by omega), if_neg (by omega)]
      exact ih hts fuel (by omega)
    next => cases hts

/-- Settles O23: a run of the loop that succeeds spells out the tokens of a stream, and the tokens of a
stream guide a run. -/
theorem decompressSucceedsExactlyOnWellFormedStreams :
    Obligations.DecompressSucceedsExactlyOnWellFormedStreams := by
  unfold Obligations.DecompressSucceedsExactlyOnWellFormedStreams
  intro s out cap
  rw [wellFormedStream_iff, decompress]
  exact ⟨streamFrom_of_decompressLoop (Nat.zero_le cap),
    fun ⟨hs, hcap⟩ => decompressLoop_of_streamFrom (Nat.lt_succ_self _) hs hcap⟩

end Sys2Proof.Machine
end

section
/-! The key and the index (40_encoder_match_finder.md R131, R133): the hash as a number and bit by
bit, and what an insertion writes. -/

namespace Sys2Proof.Machine

/-! ### The hash -/

theorem hashKey_toNat (b0 b1 b2 : Byte) :
    (hashKey b0 b1 b2).toNat =
      ((b0.toNat <<< 8) ^^^ (b1.toNat <<< 4) ^^^ b2.toNat) &&& 0xFFF := by
  have h0 : b0.toNat <<< 8 < 2 ^ 16 := by rw [Nat.shiftLeft_eq]; omega
  have h1 : b1.toNat <<< 4 < 2 ^ 16 := by rw [Nat.shiftLeft_eq]; omega
  have hbyte (b : Byte) : (b.setWidth 16).toNat = b.toNat := by
    rw [BitVec.toNat_setWidth, Nat.mod_eq_of_lt (by omega)]
  rw [hashKey, BitVec.toNat_setWidth, BitVec.toNat_xor, BitVec.toNat_xor, BitVec.toNat_shiftLeft,
    BitVec.toNat_shiftLeft, hbyte, hbyte, hbyte, Nat.mod_eq_of_lt h0, Nat.mod_eq_of_lt h1]
  exact (Nat.and_two_pow_sub_one_eq_mod _ 12).symm

/-- Bit by bit: the first byte of the key stands 8 places up, the second 4. -/
theorem hashKey_getLsbD (b0 b1 b2 : Byte) {k : Nat} (hk : k < 12) :
    (hashKey b0 b1 b2).getLsbD k =
      ((!decide (k < 8) && b0.getLsbD (k - 8)) ^^ (!decide (k < 4) && b1.getLsbD (k - 4)) ^^
        b2.getLsbD k) := by
  simp [hashKey, hk]

theorem hashKey_high (b0 b1 b2 : Byte) :
    (hashKey b0 b1 b2).extractLsb' 8 4 = b0.extractLsb' 0 4 ^^^ b1.extractLsb' 4 4 := by
  refine BitVec.eq_of_getLsbD_eq fun j hj => ?_
  simp [hashKey_getLsbD _ _ _ (show 8 + j < 12 by omega), hj, show 8 + j - 4 = 4 + j by omega,
    show 4 ≤ 8 + j by omega]

theorem hashKey_middle (b0 b1 b2 : Byte) :
    (hashKey b0 b1 b2).extractLsb' 4 4 = b1.extractLsb' 0 4 ^^^ b2.extractLsb' 4 4 := by
  refine BitVec.eq_of_getLsbD_eq fun j hj => ?_
  simp [hashKey_getLsbD _ _ _ (show 4 + j < 12 by omega), hj, show 4 + j < 8 by omega]

theorem hashKey_low (b0 b1 b2 : Byte) :
    (hashKey b0 b1 b2).extractLsb' 0 4 = b2.extractLsb' 0 4 := by
  refine BitVec.eq_of_getLsbD_eq fun j hj => ?_
  simp [hashKey_getLsbD _ _ _ (show j < 12 by omega), hj, show j < 8 by omega]

/-- Settles O26: the number by the widths of the shifted bytes, each group of bits by which bytes of
the key have a bit there. -/
theorem hashKeyFormula : Obligations.HashKeyFormula := by
  unfold Obligations.HashKeyFormula
  exact fun _ _ => ⟨hashKey_toNat _ _ _, hashKey_high _ _ _, hashKey_middle _ _ _,
    hashKey_low _ _ _⟩

/-! ### Insertion -/

/-- Settles O27: an insertion is one write of each table. -/
theorem insertLinksThePosition : Obligations.InsertLinksThePosition := by
  unfold Obligations.InsertLinksThePosition
  rintro e p ⟨hhead, hprev, -, -⟩
  rw [Enc.insert_eq]
  exact ⟨fun k => Table.read_write _ _ _ hhead, fun k => Table.read_write _ _ _ hprev, rfl⟩

end Sys2Proof.Machine
end

section
/-! What the search leaves (40_encoder_match_finder.md R134 to R137): the longest agreement with a
candidate, and the best of the candidates on the chain. -/

namespace Sys2Proof.Machine

/-! ### The agreement -/

/-- An agreement that ends before its bound ends at a byte that differs. -/
theorem Enc.read_ne_of_agree_lt (e : Enc) {c i n : Nat} (h : e.agree c i n < n) :
    e.bank.inMem.read (c + e.agree c i n) ≠ e.bank.inMem.read (i + e.agree c i n) := by
  induction n generalizing c i with
  | zero => cases h
  | succ n ih =>
    rw [Enc.agree] at h ⊢
    split at h
    next heq =>
      have hnext := ih (c := c + 1) (i := i + 1) (by omega)
      rwa [if_pos heq, ← Nat.add_assoc, ← Nat.add_assoc, Nat.add_right_comm,
        Nat.add_right_comm i]
    next hne => rwa [if_neg hne]

theorem Enc.matchLen_le (e : Enc) (c i : Nat) : e.matchLen c i ≤ e.bank.inLen.toNat - i :=
  e.agree_le _ _ _

/-- Settles O28, by what the loop's result says of the bytes below it and of the one at it. -/
theorem matchLenIsTheLongestAgreement : Obligations.MatchLenIsTheLongestAgreement := by
  unfold Obligations.MatchLenIsTheLongestAgreement
  exact fun e c i _ _ => ⟨e.matchLen_le c i, fun _ => e.read_agree, e.read_ne_of_agree_lt⟩

/-! ### The candidates -/

/-- Along a chain of the index the candidates lie before the position it starts at, in the window
and of its hash (40_encoder_match_finder.md R143, R144). -/
theorem Enc.mem_candidates {e : Enc} {h : BitVec 12} {n c : Nat} (fuel : Nat) (hidx : e.indexOk)
    (hn : n ≤ e.i.toNat) (hc : c ∈ e.candidates fuel (e.lastInserted h n)) :
    c < n ∧ e.i.toNat - c ≤ 65535 ∧ e.hash3 c = h := by
  induction fuel generalizing n with
  | zero => cases hc
  | succ fuel ih =>
    cases hlast : e.lastInserted h n with
    | none => rw [hlast] at hc; cases hc
    | some p =>
      obtain ⟨hlt, hkey, hhash⟩ := Enc.lastInserted_eq_some (by omega) hlast
      rw [hlast, Enc.candidates] at hc
      split at hc
      next hwin =>
        have hwin : e.i.toNat - p.toNat ≤ 65535 := hwin
        obtain rfl | hc := List.mem_cons.1 hc
        · exact ⟨hlt, hwin, hhash⟩
        · obtain ⟨-, hprevs⟩ := hidx
          rw [hprevs p.toNat (by omega) hkey (by omega), hhash] at hc
          obtain ⟨hcp, hrest⟩ := ih (by omega) hc
          exact ⟨by omega, hrest⟩
      next => cases hc

/-- Along a chain of the index the candidates come nearest first (40_encoder_match_finder.md
R143). -/
theorem Enc.candidates_falling {e : Enc} {h : BitVec 12} {n : Nat} (fuel : Nat) (hidx : e.indexOk)
    (hn : n ≤ e.i.toNat) : (e.candidates fuel (e.lastInserted h n)).Pairwise (· > ·) := by
  induction fuel generalizing n with
  | zero => exact .nil
  | succ fuel ih =>
    cases hlast : e.lastInserted h n with
    | none => exact .nil
    | some p =>
      obtain ⟨hlt, hkey, hhash⟩ := Enc.lastInserted_eq_some (by omega) hlast
      rw [Enc.candidates]
      split
      next hwin =>
        have hwin : e.i.toNat - p.toNat ≤ 65535 := hwin
        have ⟨_, hprevs⟩ := hidx
        rw [hprevs p.toNat (by omega) hkey (by omega), hhash]
        refine List.pairwise_cons.2 ⟨fun c hc => ?_, ih (by omega)⟩
        obtain ⟨hcp, -⟩ := Enc.mem_candidates fuel hidx (by omega) hc
        exact hcp
      next => exact .nil

theorem Enc.candidates_length_le (e : Enc) (fuel : Nat) (c : Option Word) :
    (e.candidates fuel c).length ≤ fuel := by
  induction fuel generalizing c with
  | zero => exact Nat.le_refl 0
  | succ fuel ih =>
    cases c with
    | none => exact Nat.zero_le _
    | some p =>
      rw [Enc.candidates]
      split
      · exact Nat.succ_le_succ (ih _)
      · exact Nat.zero_le _

theorem Enc.candidates_congr {e e' : Enc} (fuel : Nat) (c : Option Word) (hi : e'.i = e.i)
    (hprev : e'.prev = e.prev) : e'.candidates fuel c = e.candidates fuel c := by
  induction fuel generalizing c with
  | zero => rfl
  | succ fuel ih =>
    cases c with
    | none => rfl
    | some p => rw [Enc.candidates, Enc.candidates, hi, hprev, ih]

/-! ### The best of them -/

/-- The candidate `c` can be encoded by a match token at its distance (40_encoder_match_finder.md
R135). -/
def Enc.ValidAt (e : Enc) (c : Nat) : Prop :=
  validMatch (e.matchLen c e.i.toNat) (e.i.toNat - c) = true

/-- `c` is valid, and every valid candidate of `seen` is shorter, or as long and no nearer
(40_encoder_match_finder.md R137). -/
def Enc.BestOf (e : Enc) (seen : List Nat) (c : Nat) : Prop :=
  e.ValidAt c ∧ ∀ c' ∈ seen, e.ValidAt c' →
    e.matchLen c' e.i.toNat < e.matchLen c e.i.toNat ∨
      (e.matchLen c' e.i.toNat = e.matchLen c e.i.toNat ∧ e.i.toNat - c ≤ e.i.toNat - c')

/-- The walk has kept the best candidate of `seen`, or nothing because none is valid. -/
def Enc.Kept (e : Enc) (seen : List Nat) : Prop :=
  (e.blen = 0#32 ∧ ∀ c ∈ seen, ¬ e.ValidAt c) ∨
    ∃ c ∈ seen, e.BestOf seen c ∧ e.blen.toNat = e.matchLen c e.i.toNat ∧
      e.bdist.toNat = e.i.toNat - c

theorem Enc.agree_congr {e e' : Enc} (c i n : Nat) (hbank : e'.bank = e.bank) :
    e'.agree c i n = e.agree c i n := by
  induction n generalizing c i with
  | zero => rfl
  | succ n ih => rw [Enc.agree, Enc.agree, hbank, ih]

theorem Enc.matchLen_congr {e e' : Enc} (c i : Nat) (hbank : e'.bank = e.bank) :
    e'.matchLen c i = e.matchLen c i := by
  rw [Enc.matchLen, Enc.matchLen, hbank, Enc.agree_congr _ _ _ hbank]

/-- What is kept depends on the input, the position and the two result registers alone. -/
theorem Enc.kept_congr {e e' : Enc} {seen : List Nat} (hbank : e'.bank = e.bank) (hi : e'.i = e.i)
    (hblen : e'.blen = e.blen) (hbdist : e'.bdist = e.bdist) : e'.Kept seen ↔ e.Kept seen := by
  simp only [Enc.Kept, Enc.BestOf, Enc.ValidAt, Enc.matchLen_congr _ _ hbank, hi, hblen, hbdist]

theorem Enc.ValidAt.matchLen_pos {e : Enc} {c : Nat} (h : e.ValidAt c) :
    0 < e.matchLen c e.i.toNat := by
  have := (validMatch_iff _ _).1 h
  omega

/-- A candidate is kept where it is valid and strictly longer than the best so far. -/
theorem Enc.examine_cases (e : Enc) (c : Word) :
    let len := e.matchLen c.toNat e.i.toNat
    let dist := e.i.toNat - c.toNat
    (e.ValidAt c.toNat ∧ e.blen.toNat < len ∧
      (e.examine c).blen = toWord len ∧ (e.examine c).bdist = BitVec.ofNat 16 dist) ∨
    ((e.ValidAt c.toNat → len ≤ e.blen.toNat) ∧
      (e.examine c).blen = e.blen ∧ (e.examine c).bdist = e.bdist) := by
  unfold Enc.examine
  dsimp only
  split
  next h => exact .inl ⟨h.1, h.2, rfl, rfl⟩
  next h => exact .inr ⟨fun hv => Nat.not_lt.1 fun hlt => h ⟨hv, hlt⟩, rfl, rfl⟩

theorem Enc.Kept.matchLen_le {e : Enc} {seen : List Nat} {c : Nat} (h : e.Kept seen)
    (hc : c ∈ seen) (hv : e.ValidAt c) : e.matchLen c e.i.toNat ≤ e.blen.toNat := by
  obtain ⟨-, hnone⟩ | ⟨b, -, ⟨-, hbest⟩, hblen, -⟩ := h
  · exact absurd hv (hnone c hc)
  · have := hbest c hc hv
    omega

theorem Enc.Kept.blen_eq_zero_iff {e : Enc} {seen : List Nat} (h : e.Kept seen) :
    e.blen = 0#32 ↔ ∀ c ∈ seen, ¬ e.ValidAt c := by
  refine ⟨fun hzero c hc hv => ?_, fun hnone => ?_⟩
  · have hpos := hv.matchLen_pos
    have hlen := h.matchLen_le hc hv
    rw [hzero] at hlen
    exact Nat.not_lt.2 hlen hpos
  · obtain ⟨hzero, -⟩ | ⟨c, hc, ⟨hv, -⟩, -⟩ := h
    · exact hzero
    · exact absurd hv (hnone c hc)

theorem Enc.Kept.exists_best {e : Enc} {seen : List Nat} (h : e.Kept seen) (hne : e.blen ≠ 0#32) :
    ∃ c ∈ seen, e.BestOf seen c ∧ e.blen.toNat = e.matchLen c e.i.toNat ∧
      e.bdist.toNat = e.i.toNat - c :=
  h.resolve_left fun hzero => hne hzero.1

/-- A candidate that is valid and longer than all before it is the best. -/
theorem Enc.Kept.bestOf_append {e : Enc} {seen : List Nat} {c : Nat} (h : e.Kept seen)
    (hv : e.ValidAt c) (hlt : e.blen.toNat < e.matchLen c e.i.toNat) :
    e.BestOf (seen ++ [c]) c := by
  refine ⟨hv, fun c' hc' hv' => ?_⟩
  obtain hc' | hc' := List.mem_append.1 hc'
  · exact .inl (Nat.lt_of_le_of_lt (h.matchLen_le hc' hv') hlt)
  · obtain rfl := List.mem_singleton.1 hc'
    exact .inr ⟨rfl, Nat.le_refl _⟩

/-- A candidate that is farther than those before it, and not longer, does not displace the best. -/
theorem Enc.Kept.append {e : Enc} {seen : List Nat} {c : Nat} (h : e.Kept seen)
    (hle : e.ValidAt c → e.matchLen c e.i.toNat ≤ e.blen.toNat) (hfar : ∀ c' ∈ seen, c < c') :
    e.Kept (seen ++ [c]) := by
  obtain ⟨hzero, hnone⟩ | ⟨b, hb, ⟨hvb, hbest⟩, hblen, hbdist⟩ := h
  · refine .inl ⟨hzero, fun c' hc' hv' => ?_⟩
    obtain hc' | hc' := List.mem_append.1 hc'
    · exact hnone c' hc' hv'
    · obtain rfl := List.mem_singleton.1 hc'
      have hpos := hv'.matchLen_pos
      have hlen := hle hv'
      rw [hzero] at hlen
      exact Nat.not_lt.2 hlen hpos
  · refine .inr ⟨b, List.mem_append_left _ hb, ⟨hvb, fun c' hc' hv' => ?_⟩, hblen, hbdist⟩
    obtain hc' | hc' := List.mem_append.1 hc'
    · exact hbest c' hc' hv'
    · obtain rfl := List.mem_singleton.1 hc'
      have hlen := hle hv'
      have hnear := hfar b hb
      omega

/-- A round of the walk keeps the best, because candidates come nearest first
(40_encoder_match_finder.md R137). -/
theorem Enc.Kept.examine {e : Enc} {seen : List Nat} {c : Word} (h : e.Kept seen)
    (hwin : e.i.toNat - c.toNat ≤ 65535) (hfar : ∀ c' ∈ seen, c.toNat < c') :
    (e.examine c).Kept (seen ++ [c.toNat]) := by
  obtain ⟨hbank, hi, -, -⟩ := e.examine_frame c
  obtain ⟨hv, hlt, hblen, hbdist⟩ | ⟨hle, hblen, hbdist⟩ := e.examine_cases c
  · have hlen := e.matchLen_le c.toNat e.i.toNat
    have hbest := h.bestOf_append hv hlt
    refine .inr ⟨c.toNat, List.mem_append_right _ (List.mem_singleton_self _), ?_, ?_, ?_⟩
    · simpa only [Enc.BestOf, Enc.ValidAt, Enc.matchLen_congr _ _ hbank, hi] using hbest
    · rw [hblen, hi, Enc.matchLen_congr _ _ hbank, toWord_toNat_of_lt (by omega)]
    · rw [hbdist, hi, BitVec.toNat_ofNat, Nat.mod_eq_of_lt (by omega)]
  · exact (Enc.kept_congr hbank hi hblen hbdist).2 (h.append hle hfar)

theorem Enc.examine_depth {e : Enc} (c : Word) (h : e.depth.toNat < 16) :
    (e.examine c).depth.toNat = e.depth.toNat + 1 := by
  show (BitVec.ofNat 5 (e.depth.toNat + 1)).toNat = _
  rw [BitVec.toNat_ofNat, Nat.mod_eq_of_lt (by omega)]

/-- The walk examines the candidates of its chain and keeps the best of them and of those before.
The count of 16 and the fuel run out together. -/
theorem Enc.Kept.walk {e : Enc} {seen : List Nat} (fuel : Nat) (h : e.Kept seen)
    (hdepth : e.depth.toNat + fuel ≤ 16)
    (hfall : (seen ++ e.candidates fuel e.cand).Pairwise (· > ·)) :
    (Enc.walk fuel e).Kept (seen ++ e.candidates fuel e.cand) := by
  induction fuel generalizing e seen with
  | zero =>
    rw [Enc.candidates, List.append_nil]
    exact h
  | succ fuel ih =>
    unfold Enc.walk
    cases hcand : e.cand with
    | none => simpa [Enc.candidates] using h
    | some c =>
      obtain ⟨-, hi, -, hprev⟩ := e.examine_frame c
      have hroom : e.depth.toNat < 16 := by omega
      rw [hcand, Enc.candidates] at hfall
      rw [Enc.candidates]
      by_cases hwin : e.i.toNat - c.toNat ≤ Config.maxDist
      · have hrest : (e.examine c).candidates fuel (e.examine c).cand
            = e.candidates fuel (e.prev.read (prevSlot c.toNat)) :=
          Enc.candidates_congr fuel _ hi hprev
        rw [if_pos hwin, List.append_cons, ← hrest] at hfall
        rw [if_pos hwin, List.append_cons, ← hrest]
        obtain ⟨hseen, -, -⟩ := List.pairwise_append.1 hfall
        obtain ⟨-, -, hfar⟩ := List.pairwise_append.1 hseen
        dsimp only
        rw [if_pos ⟨hwin, hroom⟩]
        refine ih (h.examine hwin fun c' hc' => hfar c' hc' _ (List.mem_singleton_self _)) ?_ hfall
        rw [Enc.examine_depth c hroom]
        omega
      · dsimp only
        rw [if_neg hwin, if_neg fun hgo => hwin hgo.1, List.append_nil]
        exact h

/-- FindMatch leaves the best of its candidates. -/
theorem Enc.findMatch_kept {e : Enc} (hidx : e.indexOk) :
    e.findMatch.Kept (e.candidates 16 (e.head.read (e.hash3 e.i.toNat).toNat)) := by
  have ⟨hheads, _⟩ := hidx
  have hfall := Enc.candidates_falling (h := e.hash3 e.i.toNat) 16 hidx (Nat.le_refl _)
  rw [← hheads] at hfall
  have hcand : e.walkStart.candidates 16 e.walkStart.cand
      = e.candidates 16 (e.head.read (e.hash3 e.i.toNat).toNat) :=
    Enc.candidates_congr 16 _ rfl rfl
  rw [← hcand] at hfall ⊢
  exact Enc.Kept.walk (seen := []) 16 (.inl ⟨rfl, fun _ hc => (List.not_mem_nil hc).elim⟩)
    (Nat.le_refl _) hfall

/-- FindMatch writes scratch registers only (40_encoder_match_finder.md R136). -/
theorem Enc.findMatch_frame (e : Enc) :
    e.findMatch.bank = e.bank ∧ e.findMatch.i = e.i ∧ e.findMatch.ls = e.ls ∧
      e.findMatch.op = e.op ∧ e.findMatch.head = e.head ∧ e.findMatch.prev = e.prev := by
  obtain ⟨hbank, hi, hls, hop, -, htables⟩ := Enc.walk_frame Config.maxChain e.walkStart
  exact ⟨hbank, hi, hls, hop, htables⟩

/-- Settles O29: the candidates come nearest first along the chain of I's hash, and the walk keeps
the best of those it has examined. -/
theorem findMatchTakesTheLongestThenNearest : Obligations.FindMatchTakesTheLongestThenNearest := by
  unfold Obligations.FindMatchTakesTheLongestThenNearest
  intro e _ hidx _ i seen found
  have hframe := e.findMatch_frame
  have ⟨(hbank : found.bank = e.bank), (hi : found.i = e.i), _⟩ := hframe
  have ⟨hheads, _⟩ := hidx
  have hmem (c : Nat) (hc : c ∈ seen) : c < i ∧ i - c ≤ 65535 ∧ e.hash3 c = e.hash3 i :=
    Enc.mem_candidates 16 hidx (Nat.le_refl _) (by rwa [← hheads])
  have hkept : found.Kept seen := Enc.findMatch_kept hidx
  have hvalid (c : Nat) : found.ValidAt c ↔ validMatch (e.matchLen c i) (i - c) = true := by
    rw [Enc.ValidAt, Enc.matchLen_congr _ _ hbank, hi]
  refine ⟨e.candidates_length_le _ _, hmem, ?_, fun hne => ?_, hframe⟩
  · simp only [hkept.blen_eq_zero_iff, hvalid, Bool.not_eq_true]
  · obtain ⟨c, hc, ⟨hv, hbest⟩, hlen, hdist⟩ := hkept.exists_best hne
    simp only [hvalid, Enc.matchLen_congr _ _ hbank, hi] at hv hbest hlen hdist
    exact ⟨c, hc, hv, hlen, hdist, hbest⟩

end Sys2Proof.Machine
end

section
/-! The outcomes of a position (40_encoder_match_finder.md R139 to R141): without a match I moves on
by 1, with one by its length; empty input gives the end marker alone. -/

namespace Sys2Proof.Machine

theorem Enc.turn_of_no_match {e : Enc} (hb : e.bank.status = .busy)
    (hi : e.i.toNat < e.bank.inLen.toNat) (hlen : e.search.blen = 0#32) :
    e.turn = e.search.stepLiteral := by
  rw [Enc.turn_of_busy hb]
  obtain ⟨hend, -⟩ | ⟨-, -, h⟩ | ⟨-, hne, -⟩ := e.encStep_cases
  · rw [hend] at hi
    exact absurd hi (Nat.lt_irrefl _)
  · exact h
  · exact absurd hlen hne

/-- Settles O33: without a match the step is the search, which keeps the cursors and the bank, and
one addition to I. -/
theorem positionWithoutMatchAdvancesByOne : Obligations.PositionWithoutMatchAdvancesByOne := by
  unfold Obligations.PositionWithoutMatchAdvancesByOne
  intro e hb hi hlen
  have hi' : e.search.i.toNat < e.search.bank.inLen.toNat := by
    rwa [Enc.search_i, Enc.search_bank]
  rw [Enc.turn_of_no_match hb hi hlen, Enc.stepLiteral_i hi', Enc.search_i]
  exact ⟨rfl, e.search_ls, e.search_op, e.search_bank⟩

/-- A match token has at least 2 bytes (41_encoder_token_emission.md R165, R166). -/
theorem emitMatchBytes_length_ge (len dist : Nat) : 2 ≤ (emitMatchBytes len dist).length := by
  unfold emitMatchBytes emitMsBytes emitMfBytes
  split <;> split <;> simp

/-- A turn at a match that does not overrun puts out the pending run and the match token, and moves
I and LS behind the match. -/
theorem Enc.turn_of_match {e : Enc} (hb : e.bank.status = .busy) (hc : e.callOk)
    (hi : e.i.toNat < e.bank.inLen.toNat) (hne : e.search.blen ≠ 0#32) :
    let bytes := e.flushBytes e.i.toNat ++ emitMatchBytes e.search.blen.toNat e.search.bdist.toNat
    (¬ e.fits bytes → e.turn.bank.status = .fault .outputOverrun) ∧
      (e.fits bytes → e.turn.bank.status = .busy ∧
        e.turn.i.toNat = e.i.toNat + e.search.blen.toNat ∧ e.turn.ls = e.turn.i ∧
        e.turn.op.toNat = e.op.toNat + bytes.length) := by
  obtain ⟨hend, -⟩ | ⟨-, hzero, -⟩ | ⟨-, -, hok, hover⟩ := Enc.turn_cases hb hc
  · rw [hend] at hi
    exact absurd hi (Nat.lt_irrefl _)
  · exact absurd hzero hne
  · refine ⟨hover, fun hfit => ?_⟩
    have hlen := e.search_blen_le
    have hop := Enc.afterOutput_op hfit
    rw [hok hfit, Enc.cover_ls, Enc.cover_op, Enc.cover_bank, Enc.cover_i]
    · refine ⟨?_, ?_, rfl, ?_⟩
      · simpa [Enc.search_bank] using hb
      · simp
      · simpa [Enc.afterOutput] using hop
    · simp [Enc.search_bank]
      omega

/-- Settles O34: the bytes of the turn fit, and the step covers the match, or they do not. -/
theorem positionWithMatchAdvancesByItsLength :
    Obligations.PositionWithMatchAdvancesByItsLength := by
  unfold Obligations.PositionWithMatchAdvancesByItsLength
  intro e hb hc hi hne
  obtain ⟨hover, hok⟩ := Enc.turn_of_match hb hc hi hne
  by_cases hfit : e.fits (e.flushBytes e.i.toNat ++
      emitMatchBytes e.search.blen.toNat e.search.bdist.toNat)
  · obtain ⟨hb', hi', hls', hop'⟩ := hok hfit
    have hlen := emitMatchBytes_length_ge e.search.blen.toNat e.search.bdist.toNat
    have hcap : e.turn.op.toNat ≤ e.bank.outCap.toNat := hop' ▸ hfit
    rw [List.length_append] at hop'
    exact .inr ⟨hb', hi', hls', by omega, hcap⟩
  · exact .inl (hover hfit)

/-- The turn at the end of the input ends the call with the pending run and the end marker put out
behind what was there (40_encoder_match_finder.md R141). -/
theorem Enc.turn_of_end {e : Enc} (hb : e.bank.status = .busy) (hc : e.callOk)
    (hi : e.i = e.bank.inLen) :
    let bytes := e.flushBytes e.bank.inLen.toNat ++ headerBytes canonicalEnd
    e.fits bytes → e.turn.bank.status = .done ∧
      e.turn.bank.outLen.toNat = e.op.toNat + bytes.length ∧
      e.turn.bank.outputBytes (e.op.toNat + bytes.length) =
        e.bank.outputBytes e.op.toNat ++ bytes := by
  obtain ⟨-, hok, -⟩ | ⟨hlt, -⟩ | ⟨hlt, -⟩ := Enc.turn_cases hb hc
  · intro bytes hfit
    rw [hok hfit]
    exact ⟨rfl, Enc.afterOutput_op hfit, Memory.readBytes_writeBytes _ _ _⟩
  all_goals
    rw [hi] at hlt
    exact absurd hlt (Nat.lt_irrefl _)

theorem Enc.started_callOk {e : Enc} (hs : e.started) : e.callOk := by
  obtain ⟨-, hi, hls, hop, -⟩ := hs
  rw [Enc.callOk, hi, hls, hop]
  exact ⟨Nat.le_refl _, Nat.zero_le _, Nat.zero_le _⟩

/-- Settles O35: with no input the first turn is at the end, with no pending run. -/
theorem emptyInputGivesTheEndMarker : Obligations.EmptyInputGivesTheEndMarker := by
  unfold Obligations.EmptyInputGivesTheEndMarker
  intro e hs hlen hcap
  have ⟨hb, hi, hls, hop, _⟩ := hs
  have hflush : e.flushBytes e.bank.inLen.toNat = [] := by
    rw [Enc.flushBytes, hlen, hls]
    rfl
  have hend := Enc.turn_of_end hb (Enc.started_callOk hs) (hi.trans hlen.symm)
  rw [hflush, hop] at hend
  exact hend (by rw [Enc.fits, hop]; exact hcap)

end Sys2Proof.Machine
end

section
/-! What ENC puts out stays within the bound for the input it has read
(41_encoder_token_emission.md R168): a literal run pays for its headers, and a match is shorter than
what it covers. -/

namespace Sys2Proof.Machine

theorem emitExtBytes_length (n : Nat) : (emitExtBytes n).length = n / 255 + 1 := by
  rw [emitExtBytes_eq, encodeExt_length, extLen]

/-- A literal token as FlushLiterals makes them has a header of 1 byte, or of 2 from 64 bytes on
(41_encoder_token_emission.md R162, R163). -/
theorem AsmToken.lit_bytes_length {vs : List Byte} (h : vs.length ≤ 318) :
    (AsmToken.lit vs).bytes.length = vs.length + if vs.length ≤ 63 then 1 else 2 := by
  rw [AsmToken.bytes, List.length_append, ← emitLitHeader_eq, emitLitHeader, AsmToken.payload]
  split
  · exact Nat.add_comm _ _
  · rw [List.length_cons, emitExtBytes_length]
    omega

/-- Literal headers cost at most one byte for each 32 bytes begun. -/
theorem assemble_asmLitsLoop_length_le (fuel : Nat) (run : List Byte) :
    (assemble (asmLitsLoop fuel run)).length ≤ run.length + (run.length + 31) / 32 := by
  induction fuel generalizing run with
  | zero => exact Nat.zero_le _
  | succ fuel ih =>
    unfold asmLitsLoop
    split
    · exact Nat.zero_le _
    next hne =>
      have hpos : 0 < run.length := List.length_pos_iff.2 hne
      have hrest := ih (run.drop 318)
      have hfull := AsmToken.lit_bytes_length (List.length_take_le 318 run)
      rw [List.length_drop] at hrest
      rw [List.length_take] at hfull
      rw [assemble, List.length_append, hfull]
      split <;> omega

theorem Enc.flushBytes_length_le (e : Enc) (n : Nat) :
    (e.flushBytes n).length ≤ (n - e.ls.toNat) + (n - e.ls.toNat + 31) / 32 := by
  have h := assemble_asmLitsLoop_length_le (n - e.ls.toNat)
    (e.bank.inMem.readBytes e.ls.toNat (n - e.ls.toNat))
  rw [Enc.flushBytes, asmLits]
  rwa [Memory.readBytes_length] at h ⊢

/-- A valid match token is shorter than what it stands for (40_encoder_match_finder.md R135). -/
theorem emitMatchBytes_length_lt {len dist : Nat} (h : validMatch len dist = true) :
    (emitMatchBytes len dist).length < len := by
  have hv := (validMatch_iff _ _).1 h
  unfold emitMatchBytes
  split
  next hnear =>
    have hnear : dist ≤ 2048 := hnear
    unfold emitMsBytes
    split <;> simp [emitExtBytes_length] <;> omega
  next hfar =>
    have hfar : ¬ dist ≤ 2048 := hfar
    unfold emitMfBytes
    split <;> simp [emitExtBytes_length] <;> omega

/-- The output is within the bound for the input before the pending run, and the capacity is enough
for the whole input (41_encoder_token_emission.md R168). -/
def Enc.withinBound (e : Enc) : Prop :=
  e.op.toNat ≤ e.ls.toNat + e.ls.toNat / 32 ∧ encBound e.bank.inLen.toNat ≤ e.bank.outCap.toNat

/-- A turn within the bound raises nothing, and stays within it. -/
theorem Enc.turn_withinBound {e : Enc} (hb : e.bank.status = .busy) (hc : e.callOk)
    (hv : e.search.blen ≠ 0#32 →
      validMatch e.search.blen.toNat e.search.bdist.toNat = true) (hbound : e.withinBound) :
    (e.turn.bank.status = .busy ∧ e.turn.withinBound) ∨
      (e.turn.bank.status = .done ∧ e.turn.bank.outLen.toNat ≤ encBound e.bank.inLen.toNat) := by
  have ⟨hls, hle, _⟩ := hc
  obtain ⟨hop, hcap⟩ := hbound
  have hcap' : e.bank.inLen.toNat + e.bank.inLen.toNat / 32 + 4 ≤ e.bank.outCap.toNat := hcap
  have ⟨_, hlen', hcap''⟩ := e.turn_sameArguments
  rw [Enc.withinBound, hlen', hcap'']
  by_cases hend : e.i = e.bank.inLen
  · have hflush := e.flushBytes_length_le e.bank.inLen.toNat
    have hmarker : (headerBytes canonicalEnd).length = 3 := rfl
    obtain ⟨hd, hout, -⟩ := Enc.turn_of_end hb hc hend (by
      rw [Enc.fits, List.length_append]
      omega)
    rw [List.length_append] at hout
    refine .inr ⟨hd, ?_⟩
    rw [hout, encBound]
    omega
  · have hi : e.i.toNat < e.bank.inLen.toNat :=
      Nat.lt_of_le_of_ne hle fun h => hend (BitVec.eq_of_toNat_eq h)
    refine .inl ?_
    by_cases hne : e.search.blen = 0#32
    · rw [Enc.turn_of_no_match hb hi hne, Enc.stepLiteral_bank, e.search_bank]
      refine ⟨hb, ?_, hcap⟩
      rw [Enc.stepLiteral_ls, Enc.stepLiteral_op, Enc.search_ls, Enc.search_op]
      exact hop
    · have hflush := e.flushBytes_length_le e.i.toNat
      have hmatch := emitMatchBytes_length_lt (hv hne)
      have hblen := e.search_blen_le
      obtain ⟨-, hok⟩ := Enc.turn_of_match hb hc hi hne
      obtain ⟨hb', hi', hls', hop'⟩ := hok (by
        rw [Enc.fits, List.length_append]
        omega)
      rw [List.length_append] at hop'
      refine ⟨hb', ?_, hcap⟩
      rw [hls', hi', hop']
      omega

end Sys2Proof.Machine
end

section
/-! A compress call with enough capacity gives a stream that decompresses to its input
(40_encoder_match_finder.md R145, 43_decoder_copy_engine.md R227). -/

namespace Sys2Proof.Machine

/-- The raw data of a call is one of its arguments. -/
theorem SameArguments.inputBytes {b b' : Bank} (h : SameArguments b b') :
    b'.inputBytes = b.inputBytes := by
  obtain ⟨hmem, hlen, -⟩ := h
  rw [Bank.inputBytes, Bank.inputBytes, hmem, hlen]

theorem Enc.iterate_turn_sameArguments (e : Enc) (n : Nat) :
    SameArguments e.bank (Enc.turn^[n] e).bank := by
  induction n generalizing e with
  | zero => rfl
  | succ n ih =>
    rw [Function.iterate_succ_apply]
    exact e.turn_sameArguments.trans (ih e.turn)

theorem Bank.inputBytes_length (b : Bank) : b.inputBytes.length = b.inLen.toNat :=
  b.inMem.readBytes_length _ _

/-- What a call keeps from START on where the capacity is enough: the cursors and the index, an
output that decodes to the input before the pending run, and its bound
(40_encoder_match_finder.md R145). -/
def Enc.compressing (e : Enc) : Prop := e.inCall ∧ e.prefixOk ∧ e.withinBound

theorem Enc.started_compressing {e : Enc} (hs : e.started) (ht : e.tablesOk)
    (hcap : encBound e.bank.inLen.toNat ≤ e.bank.outCap.toNat) : e.compressing := by
  refine ⟨Enc.started_inCall hs ht, Enc.started_prefixOk hs, ?_, hcap⟩
  obtain ⟨-, -, -, hop, -⟩ := hs
  rw [hop]
  exact Nat.zero_le _

/-- The bank of a call that has ended with a stream whose decoding is `raw`. -/
def Bank.Compressed (b : Bank) (raw : List Byte) : Prop :=
  ∃ out, b.observation = some (.ok out) ∧ WellFormedStream out raw

theorem Bank.Compressed.not_busy {b : Bank} {raw : List Byte} (h : b.Compressed raw) :
    b.status ≠ .busy := by
  obtain ⟨out, hout, -⟩ := h
  exact Bank.not_busy_of_observation (by rw [hout]; exact Option.some_ne_none _)

/-- A turn goes on with the call, farther into the input, or ends it in DONE with the whole input
compressed. -/
theorem Enc.compressing.turn {e : Enc} (h : e.compressing) :
    (e.turn.compressing ∧ e.i.toNat < e.turn.i.toNat) ∨
      e.turn.bank.Compressed e.bank.inputBytes := by
  obtain ⟨hin, hp, hbound⟩ := h
  have ⟨hb, hc, _, hidx⟩ := hin
  have hv (hne : e.search.blen ≠ 0#32) :
      validMatch e.search.blen.toNat e.search.bdist.toNat = true := by
    have hpos := blen_pos hne
    have hlen := e.search_blen_le
    obtain ⟨-, -, hv, -⟩ := Enc.search_matchAt (by omega) hidx hne
    exact hv
  obtain ⟨hb', hbound'⟩ | ⟨hd, -⟩ := Enc.turn_withinBound hb hc hv hbound
  · obtain ⟨hin', hi⟩ := hin.turn hb'
    exact .inl ⟨⟨hin', Enc.turn_prefixOk hb hc hidx hp hb', hbound'⟩, hi⟩
  · exact .inr ⟨_, by rw [Bank.observation, hd], Enc.turn_wellFormed hb hc hp hd⟩

/-- Each turn moves I forward or ends the call, so as many turns as input is left, and one more, end
it. -/
theorem Enc.compressing.iterate {e : Enc} {n : Nat} (h : e.compressing)
    (hn : e.bank.inLen.toNat - e.i.toNat < n) :
    (Enc.turn^[n] e).bank.Compressed e.bank.inputBytes := by
  induction n generalizing e with
  | zero => cases hn
  | succ n ih =>
    rw [Function.iterate_succ_apply]
    obtain ⟨hnext, hi⟩ | hend := h.turn
    · have ⟨⟨_, ⟨_, hle, _⟩, _⟩, _⟩ := hnext
      have hargs := e.turn_sameArguments
      have ⟨_, hlen, _⟩ := hargs
      rw [← hargs.inputBytes]
      rw [hlen] at hle
      exact ih hnext (by rw [hlen]; omega)
    · rwa [Enc.iterate_turn_of_not_busy hend.not_busy]

/-- Settles O40: from START the call ends with a well-formed stream of its input, which Decompress
takes back to it. -/
theorem compressedInputDecompressesToItself :
    Obligations.CompressedInputDecompressesToItself := by
  unfold Obligations.CompressedInputDecompressesToItself
  intro s hs ht hcap
  obtain ⟨out, hout, hwf⟩ :=
    (Enc.started_compressing hs ht hcap).iterate (n := s.enc.bank.inLen.toNat + 1) (by omega)
  refine ⟨_, out, turnsOf_enc _ s, hout, s.enc.iterate_turn_sameArguments _, rfl, ?_⟩
  exact (decompressSucceedsExactlyOnWellFormedStreams _ _ _).2
    ⟨hwf, Nat.le_of_eq s.enc.bank.inputBytes_length⟩

end Sys2Proof.Machine
end

section
/-! A turn within the bound raises nothing, whatever the index holds (40_encoder_match_finder.md R135,
41_encoder_token_emission.md R168): the walk keeps only matches that a token can encode. -/

namespace Sys2Proof.Machine

/-- What the walk has kept so far is nothing, or a length and distance that a match token can encode
(40_encoder_match_finder.md R135). -/
def Enc.bestValid (e : Enc) : Prop :=
  e.blen ≠ 0#32 → validMatch e.blen.toNat e.bdist.toNat = true

/-- A candidate in the window is kept at its own length and distance, because BLEN and BDIST hold
them. -/
theorem Enc.bestValid.examine {e : Enc} {c : Word} (h : e.bestValid)
    (hwin : e.i.toNat - c.toNat ≤ 65535) : (e.examine c).bestValid := by
  unfold Enc.bestValid
  obtain ⟨hv, -, hblen, hbdist⟩ | ⟨-, hblen, hbdist⟩ := e.examine_cases c <;> rw [hblen, hbdist]
  · have hlen := e.matchLen_le c.toNat e.i.toNat
    rw [toWord_toNat_of_lt (by omega), BitVec.toNat_ofNat, Nat.mod_eq_of_lt (by omega)]
    exact fun _ => hv
  · exact h

theorem Enc.bestValid.walk {e : Enc} (fuel : Nat) (h : e.bestValid) :
    (Enc.walk fuel e).bestValid := by
  induction fuel generalizing e with
  | zero => exact h
  | succ fuel ih =>
    unfold Enc.walk
    split
    · exact h
    next c _ =>
      split
      next hgo =>
        obtain ⟨hwin, -⟩ := hgo
        exact ih (h.examine hwin)
      next => exact h

/-- The search leaves nothing or a valid match, also where the index is not exact. -/
theorem Enc.search_bestValid (e : Enc) : e.search.bestValid := by
  unfold Enc.search
  split
  · exact Enc.bestValid.walk (e := e.walkStart) Config.maxChain fun h => absurd rfl h
  · exact fun h => absurd rfl h

/-- Settles O39: what the search leaves is a valid match, so a turn stays within the bound. -/
theorem encBoundIsNeverExceeded : Obligations.EncBoundIsNeverExceeded := by
  unfold Obligations.EncBoundIsNeverExceeded
  intro e hb hc hop hcap
  obtain ⟨hb', hop', -⟩ | hdone := Enc.turn_withinBound hb hc e.search_bestValid ⟨hop, hcap⟩
  · exact .inl ⟨hb', hop'⟩
  · exact .inr hdone

end Sys2Proof.Machine
end

section
/-! The emissions one by one (41_encoder_token_emission.md R160 to R167): OutPut, the tokens as
sequences of OutPut whether they complete or raise, and the flush of the pending run. -/

namespace Sys2Proof.Machine

/-! ### OutPut -/

/-- Settles O31, by whether OP has reached OUT_CAP. -/
theorem outPutChecksTheCapacity : Obligations.OutPutChecksTheCapacity := by
  unfold Obligations.OutPutChecksTheCapacity
  intro e v
  obtain ⟨hfull, hput⟩ | ⟨hroom, hput⟩ := e.outPut_cases v
  · exact ⟨fun _ => ⟨_, hput, rfl, e.bank.raise_sameArguments _ _, rfl⟩,
      fun h => absurd h (Nat.not_lt.2 hfull)⟩
  · have hop : (toWord (e.op.toNat + 1)).toNat = e.op.toNat + 1 :=
      toWord_toNat_of_lt (Nat.lt_of_le_of_lt hroom e.bank.outCap.isLt)
    exact ⟨fun h => absurd hroom (Nat.not_lt.2 h),
      fun _ => ⟨_, hput, hop, ⟨⟨rfl, rfl, rfl⟩, rfl, rfl, rfl⟩,
        fun a => e.bank.outMem.read_write _ a v, rfl⟩⟩

/-! ### Tokens as sequences of OutPut -/

theorem Emission.andThen_assoc (r : Emission) (f g : Enc → Emission) :
    (r.andThen f).andThen g = r.andThen fun e => (f e).andThen g := by
  cases r with
  | ok e => rfl
  | error e => rfl

/-- Bytes one after the other: the second part is put out only if the first did not raise. -/
theorem Enc.outPutAll_append (e : Enc) (xs ys : List Byte) :
    e.outPutAll (xs ++ ys) = (e.outPutAll xs).andThen fun e' => e'.outPutAll ys := by
  induction xs generalizing e with
  | nil => rfl
  | cons x xs ih => simp only [List.cons_append, Enc.outPutAll, Emission.andThen_assoc, ih]

/-- The payload that `EmitLit` reads behind the header is that of the input before it, because OutPut
does not write IN (41_encoder_token_emission.md R162). -/
theorem Enc.emitLit_eq_outPutAll (e : Enc) (start n : Nat) :
    e.emitLit start n = e.outPutAll (AsmToken.lit (e.bank.inMem.readBytes start n)).bytes := by
  have hhead := emitLitHeader_eq (e.bank.inMem.readBytes start n)
  have hargs := e.outPutAll_sameArguments (emitLitHeader n)
  rw [Memory.readBytes_length] at hhead
  rw [AsmToken.bytes, ← hhead, Enc.outPutAll_append, Enc.emitLit]
  cases hput : e.outPutAll (emitLitHeader n) with
  | ok e' =>
    rw [hput] at hargs
    obtain ⟨hmem, -⟩ := hargs
    exact congrArg (fun m : Memory => e'.outPutAll (m.readBytes start n)) hmem
  | error e' => rfl

/-- Settles O30, by the bytes of each token. -/
theorem encoderEmitsTheFormatsTokens : Obligations.EncoderEmitsTheFormatsTokens := by
  unfold Obligations.EncoderEmitsTheFormatsTokens
  refine ⟨emitExtBytes_eq, fun e start n _ => e.emitLit_eq_outPutAll start n,
    fun e len dist hpos hv => ?_, fun e => rfl⟩
  obtain ⟨hbytes, hlegal⟩ := emitMatchBytes_eq hv hpos
  exact ⟨congrArg e.outPutAll hbytes, hlegal⟩

/-! ### The pending run -/

/-- A block that has been written is what is read there. -/
theorem Memory.readBytes_writeBytes_same (m : Memory) (a : Nat) (vs : List Byte) :
    (m.writeBytes a vs).readBytes a vs.length = vs := by
  have h := m.readBytes_writeBytes a vs
  rw [Memory.readBytes_append, Nat.zero_add] at h
  exact List.append_inj_right h (by simp)

/-- Settles O32: the tokens of the run fit, so the flush leaves them in OUT and LS at its operand. -/
theorem flushPutsOutFullRunsFirst : Obligations.FlushPutsOutFullRunsFirst := by
  unfold Obligations.FlushPutsOutFullRunsFirst
  intro e upto hls hupto run bytes hfit
  have hlt : upto < 4294967296 := Nat.lt_of_le_of_lt hupto e.bank.inLen.isLt
  have hop : (e.afterOutput bytes).op.toNat = e.op.toNat + bytes.length := Enc.afterOutput_op hfit
  obtain ⟨hflush, -⟩ :=
    Enc.flushLiterals_emits hls hlt (Nat.le_trans (Nat.le_add_right _ _) hfit)
  refine ⟨(e.afterOutput bytes).withLs upto, hflush hfit, toWord_toNat_of_lt hlt, hop,
    Memory.readBytes_writeBytes_same _ _ _, fun a ha => ?_, ⟨⟨rfl, rfl, rfl⟩, rfl, rfl, rfl⟩, rfl⟩
  rw [Enc.withLs_op, hop] at ha
  rw [Enc.withLs_bank, Enc.afterOutput_outMem, Memory.read_writeBytes, if_neg (by omega)]

end Sys2Proof.Machine
end

section
/-! DEC's parser reads what the decoder says (42_decoder_token_parser.md R190 to R197): the bytes
that `NextByte` fetches one by one are those that `decodeHeader` takes off the unread stream, and a
raise comes exactly where the decoder finds the header cut. -/

namespace Sys2Proof.Machine

/-! ### Fetching (42_decoder_token_parser.md R191) -/

/-- DEC with `n` more bytes fetched. -/
def Dec.skip (d : Dec) (n : Nat) : Dec := { d with ip := toWord (d.ip.toNat + n) }

/-- DEC stopped by a fetch behind the last byte of the stream, all of which it has fetched. -/
def Dec.overrun (d : Dec) : Dec := (d.skip d.unread.length).raise .inputOverrun

/-- DEC with a count in CNT. -/
def Dec.withCnt (d : Dec) (n : Nat) : Dec := { d with cnt := BitVec.ofNat 40 n }

@[simp] theorem Dec.unread_withCnt (d : Dec) (n : Nat) : (d.withCnt n).unread = d.unread := rfl

@[simp] theorem Dec.skip_zero (d : Dec) : d.skip 0 = d := by
  simp [Dec.skip, toWord]

@[simp] theorem Dec.skip_skip (d : Dec) (m n : Nat) : (d.skip m).skip n = d.skip (m + n) := by
  have hip : toWord ((toWord (d.ip.toNat + m)).toNat + n) = toWord (d.ip.toNat + (m + n)) :=
    BitVec.eq_of_toNat_eq (by simp [Nat.add_assoc])
  simp only [Dec.skip, hip]

theorem Dec.withCnt_skip (d : Dec) (m n : Nat) : (d.withCnt m).skip n = (d.skip n).withCnt m := rfl

theorem Dec.unread_skip {d : Dec} {n : Nat} (h : n ≤ d.unread.length) :
    (d.skip n).unread = d.unread.drop n := by
  rw [Dec.unread_length] at h
  by_cases hn : n = 0
  · simp [hn]
  · have hlen := d.bank.inLen.isLt
    have hip : (d.skip n).ip.toNat = d.ip.toNat + n := toWord_toNat_of_lt (by omega)
    rw [Dec.unread, Dec.unread, hip, Memory.drop_readBytes, Nat.sub_add_eq]
    rfl

theorem Dec.unread_skip_of_append {d : Dec} {taken rest : List Byte}
    (h : d.unread = taken ++ rest) : (d.skip taken.length).unread = rest := by
  rw [Dec.unread_skip (by simp [h]), h, List.drop_left]

/-- However many bytes have been fetched, the raise comes behind the last one. -/
theorem Dec.overrun_skip {d : Dec} {n : Nat} (h : n ≤ d.unread.length) :
    (d.skip n).overrun = d.overrun := by
  rw [Dec.overrun, Dec.overrun, Dec.unread_skip h, Dec.skip_skip, List.length_drop,
    Nat.add_sub_cancel' h]

theorem Dec.headerCut_none (d : Dec) : d.headerCut none = d.overrun := by
  rw [Dec.overrun, Dec.unread_length]
  rfl

theorem Dec.headerCut_some (d : Dec) (n : Nat) : d.headerCut (some n) = (d.withCnt n).overrun := by
  rw [Dec.overrun, Dec.unread_withCnt, Dec.unread_length]
  rfl

theorem Dec.nextByte_of_nil {d : Dec} (h : d.unread = []) : d.nextByte = .error d.overrun := by
  have hlen := d.unread_length
  rw [h, List.length_nil] at hlen
  rw [Dec.overrun, h, List.length_nil, Dec.skip_zero]
  exact if_pos (by omega)

theorem Dec.nextByte_of_cons {d : Dec} {v : Byte} {rest : List Byte} (h : d.unread = v :: rest) :
    d.nextByte = .ok (v, d.skip 1) := by
  have hlen := d.unread_length
  rw [h, List.length_cons] at hlen
  have hread : d.bank.inMem.read d.ip.toNat = v := by
    rw [Dec.unread, ← hlen, Memory.readBytes] at h
    exact (List.cons.inj h).1
  rw [Dec.nextByte, if_neg (by omega), hread]
  rfl

theorem Dec.unread_skip_one {d : Dec} {v : Byte} {rest : List Byte} (h : d.unread = v :: rest) :
    (d.skip 1).unread = rest :=
  Dec.unread_skip_of_append (taken := [v]) h

theorem Dec.overrun_skip_one {d : Dec} {v : Byte} {rest : List Byte} (h : d.unread = v :: rest) :
    (d.skip 1).overrun = d.overrun :=
  Dec.overrun_skip (by simp [h])

/-! ### Continuation bytes and counts (42_decoder_token_parser.md R192, 30_encoding.md R92, R93) -/

/-- What `ReadExt` answers, with `sum` read before, where the decoder reads `ext`. -/
def Dec.extAnswer (d : Dec) (sum : Nat) : Option (Nat × List Byte) → Parse Nat
  | none => .error d.overrun
  | some (e, _) => .ok (sum + e, d.skip (extLen e))

theorem Dec.readExtLoop_eq {bytes : List Byte} {fuel : Nat} (sum : Nat) {d : Dec}
    (h : d.unread = bytes) (hfuel : bytes.length < fuel) :
    Dec.readExtLoop fuel sum d = d.extAnswer sum (decodeExt bytes) := by
  induction bytes generalizing fuel sum d with
  | nil =>
    obtain ⟨fuel, rfl⟩ := Nat.exists_eq_add_of_lt hfuel
    rw [Dec.readExtLoop, Dec.nextByte_of_nil h]
    rfl
  | cons g bytes ih =>
    obtain ⟨fuel, rfl⟩ : ∃ k, fuel = k + 1 := ⟨fuel - 1, by omega⟩
    rw [List.length_cons] at hfuel
    rw [Dec.readExtLoop, Dec.nextByte_of_cons h]
    by_cases hg : g = Config.extCont
    · subst hg
      dsimp only
      rw [if_pos rfl, ih _ (Dec.unread_skip_one h) (by omega), decodeExt, if_pos rfl]
      cases decodeExt bytes with
      | none => exact congrArg _ (Dec.overrun_skip_one h)
      | some r =>
        obtain ⟨e, rest⟩ := r
        have hlen : 1 + extLen e = extLen (255 + e) := by
          rw [extLen, extLen]
          omega
        simp only [Dec.extAnswer, Dec.skip_skip, hlen, Nat.add_assoc]
        rfl
    · have hlt : g.toNat < 255 := by
        have hne : g.toNat ≠ 255 := fun hc => hg (BitVec.eq_of_toNat_eq hc)
        omega
      dsimp only
      rw [if_neg hg, decodeExt_last bytes hg, Dec.extAnswer, extLen, Nat.div_eq_of_lt hlt]

theorem Dec.readExt_eq (d : Dec) : d.readExt = d.extAnswer 0 (decodeExt d.unread) := by
  rw [Dec.readExt, ← Dec.unread_length]
  exact Dec.readExtLoop_eq 0 rfl (Nat.lt_succ_self _)

section
variable {d : Dec} {c : Byte} {bytes : List Byte}

/-- An inline count is in the control byte. -/
theorem Dec.readCount_inline {escaped : Bool} (inline base : Nat) (hesc : escaped = false) :
    (d.skip 1).readCount escaped inline base = .ok ((d.skip 1).withCnt inline) := by
  subst hesc
  rfl

/-- The stream ends before the last byte of the extension behind a control byte. -/
theorem Dec.readCount_of_none {escaped : Bool} (inline base : Nat) (hesc : escaped = true)
    (h : d.unread = c :: bytes) (hext : decodeExt bytes = none) :
    (d.skip 1).readCount escaped inline base = .error (d.headerCut none) := by
  rw [Dec.headerCut_none, ← Dec.overrun_skip_one h]
  simp [Dec.readCount, hesc, Dec.readExt_eq, Dec.unread_skip_one h, hext, Dec.extAnswer]

/-- The extension behind a control byte is worth what the decoder makes of it. -/
theorem Dec.readCount_of_some {escaped : Bool} {e : Nat} {rest : List Byte} (inline base : Nat)
    (hesc : escaped = true) (h : d.unread = c :: bytes) (hext : decodeExt bytes = some (e, rest)) :
    (d.skip 1).readCount escaped inline base =
      .ok ((d.skip (1 + extLen e)).withCnt (base + e)) := by
  simp [Dec.readCount, hesc, Dec.readExt_eq, Dec.unread_skip_one h, hext, Dec.extAnswer,
    Dec.withCnt]

/-- Behind a control byte and its extension stand the bytes that the decoder leaves. -/
theorem Dec.unread_skip_ext {e : Nat} {rest : List Byte} (h : d.unread = c :: bytes)
    (hext : decodeExt bytes = some (e, rest)) :
    (d.skip (1 + extLen e)).unread = rest ∧ 1 + extLen e ≤ d.unread.length := by
  rw [eq_encodeExt_of_decodeExt hext] at h
  have hlen : (c :: encodeExt e).length = 1 + extLen e := by
    rw [List.length_cons, encodeExt_length, Nat.add_comm]
  rw [← hlen]
  exact ⟨Dec.unread_skip_of_append h, by simp [h]⟩

end

/-- A count field of 0 is the escape (30_encoding.md R92). -/
theorem count_escaped_eq {w n : Nat} {v : BitVec w} (h : v.toNat = n) :
    (n == 0) = decide (v = 0#w) := by
  rw [Bool.beq_eq_decide_eq, ← h, decide_eq_decide, ← BitVec.toNat_inj]
  rfl

/-! ### Distances (42_decoder_token_parser.md R195, R196) -/

section
variable {d : Dec} {c : Byte} {k n : Nat}

/-- The stream ends after a header's count: CNT holds it. -/
theorem Dec.overrun_of_count (hk : k ≤ d.unread.length) :
    ((d.skip k).withCnt n).overrun = d.headerCut (some n) := by
  rw [Dec.headerCut_some, ← Dec.withCnt_skip, Dec.overrun_skip (by simpa using hk)]

theorem Dec.parseMs_of_nil
    (hcount : (d.skip 1).readCount (c.toNat / 8 % 16 == 0) (c.toNat / 8 % 16 + 2) 18 =
      .ok ((d.skip k).withCnt n))
    (hk : k ≤ d.unread.length) (h : (d.skip k).unread = []) :
    (d.skip 1).parseMs c = .error (d.headerCut (some n)) := by
  rw [← Dec.overrun_of_count hk]
  simp only [Dec.parseMs, hcount, Dec.nextByte_of_nil (d := (d.skip k).withCnt n) h]

theorem Dec.parseMs_of_cons {dh : Byte} {rest : List Byte}
    (hcount : (d.skip 1).readCount (c.toNat / 8 % 16 == 0) (c.toNat / 8 % 16 + 2) 18 =
      .ok ((d.skip k).withCnt n))
    (h : (d.skip k).unread = dh :: rest) :
    (d.skip 1).parseMs c =
      .ok (d.parsedMatch (k + 1) n (msDist (dh ++ c.extractLsb' 0 3)) .cm) := by
  simp only [Dec.parseMs, hcount, Dec.nextByte_of_cons (d := (d.skip k).withCnt n) h,
    Dec.withCnt_skip, Dec.skip_skip, msDist, near_field_toNat, Nat.mul_comm 8]
  rfl

theorem Dec.parseMf_of_short
    (hcount : (d.skip 1).readCount (c.toNat % 64 == 0) (c.toNat % 64 + 3) 67 =
      .ok ((d.skip k).withCnt n))
    (hk : k ≤ d.unread.length) (h : (d.skip k).unread.length < 2) :
    (d.skip 1).parseMf c = .error (d.headerCut (some n)) := by
  rw [← Dec.overrun_of_count hk]
  match htail : (d.skip k).unread with
  | [] => simp only [Dec.parseMf, hcount, Dec.nextByte_of_nil (d := (d.skip k).withCnt n) htail]
  | [lo] =>
    have hlo : ((d.skip k).withCnt n).unread = [lo] := htail
    simp only [Dec.parseMf, hcount, Dec.nextByte_of_cons hlo,
      Dec.nextByte_of_nil (Dec.unread_skip_one hlo), Dec.overrun_skip_one hlo]
  | _ :: _ :: _ =>
    simp [htail] at h

/-- Which phase is behind a far header (30_encoding.md R97). -/
def farPhase (f : BitVec 16) : Phase := if f = Config.endDistField then .dn else .cm

theorem Dec.parseMf_of_cons {lo hi : Byte} {rest : List Byte}
    (hcount : (d.skip 1).readCount (c.toNat % 64 == 0) (c.toNat % 64 + 3) 67 =
      .ok ((d.skip k).withCnt n))
    (h : (d.skip k).unread = lo :: hi :: rest) :
    (d.skip 1).parseMf c =
      .ok (d.parsedMatch (k + 2) n (mfDist (hi ++ lo)) (farPhase (hi ++ lo))) := by
  have hlo : ((d.skip k).withCnt n).unread = lo :: hi :: rest := h
  have hend : lo.toNat + hi.toNat * 256 = 65535 ↔ hi ++ lo = Config.endDistField := by
    rw [← BitVec.toNat_inj, far_field_toNat, Nat.mul_comm]
    rfl
  simp only [Dec.parseMf, hcount, Dec.nextByte_of_cons hlo,
    Dec.nextByte_of_cons (Dec.unread_skip_one hlo), hend]
  simp only [Dec.withCnt_skip, Dec.skip_skip, mfDist, far_field_toNat, Nat.mul_comm 256]
  rfl

end

/-! ### ReadToken (42_decoder_token_parser.md R193 to R196) -/

/-- DEC with the whole header of a token parsed; a host command is no token. -/
def Dec.parsedToken (d : Dec) : Instr → Dec
  | .litX e => d.parsedLit (1 + extLen e) (litEscaped e)
  | .litI v => d.parsedLit 1 (litInline v)
  | .endTok v e =>
    d.parsedMatch (3 + if v = 0#6 then extLen e else 0) (endCount v e) (mfDist Config.endDistField)
      .dn
  | .mfX e f => d.parsedMatch (3 + extLen e) (mfEscaped e) (mfDist f) .cm
  | .mfI v f => d.parsedMatch 3 (mfInline v) (mfDist f) .cm
  | .msX e f => d.parsedMatch (2 + extLen e) (msEscaped e) (msDist f) .cm
  | .msI v f => d.parsedMatch 2 (msInline v) (msDist f) .cm
  | .decStart _ => d
  | .encStart _ => d

/-- What the byte-by-byte parser answers, next to what the decoder says of the same bytes: the token
the decoder names has been parsed, or the parse has raised where the decoder finds the header cut.
There is no third outcome (42_decoder_token_parser.md R197). -/
inductive Dec.Reads (d : Dec) :
    Except Dec Dec → Except DecodeError (Instr × List Byte) → Prop where
  | token (i : Instr) (rest : List Byte) : d.Reads (.ok (d.parsedToken i)) (.ok (i, rest))
  | cut (count : Option Nat) : d.Reads (.error (d.headerCut count)) (.error (.headerCut count))

/-- A far header with an extension is parsed as the token that its distance field makes it
(30_encoding.md R97). -/
theorem Dec.parsedToken_farEscaped (d : Dec) (e : Nat) (f : BitVec 16) :
    d.parsedToken (if f = Config.endDistField then .endTok 0#6 e else .mfX e f) =
      d.parsedMatch (3 + extLen e) (mfEscaped e) (mfDist f) (farPhase f) := by
  unfold farPhase
  split
  next hend => simp only [hend, Dec.parsedToken, endCount, if_true]
  next => rfl

/-- A far header with an inline count is parsed as the token that its distance field makes it
(30_encoding.md R97). -/
theorem Dec.parsedToken_farInline (d : Dec) {v : BitVec 6} (f : BitVec 16) (hv : v ≠ 0#6) :
    d.parsedToken (if f = Config.endDistField then .endTok v 0 else .mfI v f) =
      d.parsedMatch 3 (mfInline v) (mfDist f) (farPhase f) := by
  unfold farPhase
  split
  next hend => simp only [hend, Dec.parsedToken, endCount, if_neg hv, Nat.add_zero]
  next => rfl

section
variable {d : Dec} {c : Byte} {bytes : List Byte}

theorem Dec.parseLit_reads (h : d.unread = c :: bytes) :
    d.Reads ((d.skip 1).parseLit c) (decodeLit c bytes) := by
  have hfield := count_field_toNat c
  have hesc := count_escaped_eq hfield
  by_cases hv : c.extractLsb' 0 6 = 0#6
  · rw [decide_eq_true hv] at hesc
    cases hext : decodeExt bytes with
    | none =>
      have hcount := Dec.readCount_of_none (c.toNat % 64) 64 hesc h hext
      simp only [Dec.parseLit, hcount, decodeLit, hv, if_true, hext]
      exact .cut _
    | some r =>
      obtain ⟨e, rest⟩ := r
      have hcount := Dec.readCount_of_some (c.toNat % 64) 64 hesc h hext
      simp only [Dec.parseLit, hcount, decodeLit, hv, if_true, hext]
      exact .token (.litX e) rest
  · rw [decide_eq_false hv] at hesc
    have hcount := Dec.readCount_inline (d := d) (c.toNat % 64) 64 hesc
    simp only [Dec.parseLit, hcount, decodeLit, hv, if_false]
    rw [← hfield]
    exact .token (.litI _) bytes

theorem Dec.parseMs_reads (h : d.unread = c :: bytes) :
    d.Reads ((d.skip 1).parseMs c) (decodeMs c bytes) := by
  have hfield := near_count_field_toNat c
  have hesc := count_escaped_eq hfield
  by_cases hv : c.extractLsb' 3 4 = 0#4
  · rw [decide_eq_true hv] at hesc
    cases hext : decodeExt bytes with
    | none =>
      have hcount := Dec.readCount_of_none (c.toNat / 8 % 16 + 2) 18 hesc h hext
      simp only [Dec.parseMs, hcount, decodeMs, hv, if_true, hext]
      exact .cut _
    | some r =>
      obtain ⟨e, tail⟩ := r
      have hcount := Dec.readCount_of_some (c.toNat / 8 % 16 + 2) 18 hesc h hext
      obtain ⟨htail, hk⟩ := Dec.unread_skip_ext h hext
      cases tail with
      | nil =>
        simp only [Dec.parseMs_of_nil hcount hk htail, decodeMs, hv, if_true, hext]
        exact .cut _
      | cons dh rest =>
        simp only [Dec.parseMs_of_cons hcount htail, decodeMs, hv, if_true, hext,
          show 1 + extLen e + 1 = 2 + extLen e by omega]
        exact .token (.msX e _) rest
  · rw [decide_eq_false hv] at hesc
    have hcount := Dec.readCount_inline (d := d) (c.toNat / 8 % 16 + 2) 18 hesc
    have htail := Dec.unread_skip_one h
    cases bytes with
    | nil =>
      simp only [Dec.parseMs_of_nil hcount (by simp [h]) htail, decodeMs, hv, if_false, hfield]
      exact .cut _
    | cons dh rest =>
      simp only [Dec.parseMs_of_cons hcount htail, decodeMs, hv, if_false]
      rw [← hfield]
      exact .token (.msI _ _) rest

theorem Dec.parseMf_reads (h : d.unread = c :: bytes) :
    d.Reads ((d.skip 1).parseMf c) (decodeMf c bytes) := by
  have hfield := count_field_toNat c
  have hesc := count_escaped_eq hfield
  by_cases hv : c.extractLsb' 0 6 = 0#6
  · rw [decide_eq_true hv] at hesc
    cases hext : decodeExt bytes with
    | none =>
      have hcount := Dec.readCount_of_none (c.toNat % 64 + 3) 67 hesc h hext
      simp only [Dec.parseMf, hcount, decodeMf, hv, if_true, hext]
      exact .cut _
    | some r =>
      obtain ⟨e, tail⟩ := r
      have hcount := Dec.readCount_of_some (c.toNat % 64 + 3) 67 hesc h hext
      obtain ⟨htail, hk⟩ := Dec.unread_skip_ext h hext
      match tail with
      | [] | [_] =>
        simp only [Dec.parseMf_of_short hcount hk (by simp [htail]), decodeMf, hv, if_true, hext]
        exact .cut _
      | lo :: hi :: rest =>
        have hparse := Dec.parseMf_of_cons hcount htail
        rw [show 1 + extLen e + 2 = 3 + extLen e by omega] at hparse
        simp only [hparse, decodeMf, hv, if_true, hext]
        exact d.parsedToken_farEscaped e (hi ++ lo) ▸ .token _ rest
  · rw [decide_eq_false hv] at hesc
    have hcount := Dec.readCount_inline (d := d) (c.toNat % 64 + 3) 67 hesc
    have htail := Dec.unread_skip_one h
    match bytes with
    | [] | [_] =>
      simp only [Dec.parseMf_of_short hcount (by simp [h]) (by simp [htail]), decodeMf, hv,
        if_false, hfield]
      exact .cut _
    | lo :: hi :: rest =>
      simp only [Dec.parseMf_of_cons hcount htail, decodeMf, hv, if_false]
      rw [← hfield]
      exact d.parsedToken_farInline (hi ++ lo) hv ▸ .token _ rest

end

/-- ReadToken reads what the decoder says of the unread bytes: both choose the class by the two most
significant bits of the control byte (30_encoding.md R91). -/
theorem Dec.readToken_reads (d : Dec) : d.Reads d.readToken (decodeHeader d.unread) := by
  match h : d.unread with
  | [] =>
    rw [Dec.readToken, Dec.nextByte_of_nil h, ← Dec.headerCut_none]
    exact .cut none
  | c :: bytes =>
    obtain ⟨hlit, hmf⟩ := control_class c
    have hlit' : c.toNat / 64 = 0 ↔ c.extractLsb' 6 2 = 0#2 := by rw [hlit]; omega
    have hmf' : c.toNat / 64 = 1 ↔ c.extractLsb' 6 2 = 1#2 := by rw [hmf]; omega
    simp only [Dec.readToken, Dec.nextByte_of_cons h, decodeHeader, hlit', hmf']
    split
    · exact Dec.parseLit_reads h
    · split
      · exact Dec.parseMf_reads h
      · exact Dec.parseMs_reads h

/-! ### What a parsed token leaves (42_decoder_token_parser.md R197) -/

/-- A parsed token sends DEC into a copy or end phase, with IP behind the header and the bank and OP
as they were. -/
theorem Dec.parsedToken_frame (d : Dec) {i : Instr} (h : i.IsToken) :
    ((d.parsedToken i).phase = .cl ∨ (d.parsedToken i).phase = .cm ∨
        (d.parsedToken i).phase = .dn) ∧
      (d.parsedToken i).bank = d.bank ∧ (d.parsedToken i).op = d.op ∧
      (d.parsedToken i).ip = toWord (d.ip.toNat + headerLen i) := by
  cases i with
  | litX | litI => exact ⟨.inl rfl, rfl, rfl, rfl⟩
  | mfX | mfI | msX | msI => exact ⟨.inr (.inl rfl), rfl, rfl, rfl⟩
  | endTok => exact ⟨.inr (.inr rfl), rfl, rfl, rfl⟩
  | decStart | encStart => exact h.elim

/-- A token's header has at least its control byte (30_encoding.md R99). -/
theorem headerLen_pos {i : Instr} (h : i.IsToken) : 0 < headerLen i := by
  cases i with
  | litX | litI | endTok | mfX | mfI | msX | msI => simp only [headerLen]; omega
  | decStart | encStart => exact h.elim

theorem Dec.headerCut_status (d : Dec) (n : Option Nat) :
    (d.headerCut n).bank.status = .fault .inputOverrun := by
  obtain ⟨c, h, -, -⟩ := d.headerCut_eq n
  rw [h]
  rfl

/-- Settles O18: the parser's two outcomes are the decoder's, and a header that decodes is at least
one byte long and lies in the stream. -/
theorem readTokenIsTotal : Obligations.ReadTokenIsTotal := by
  unfold Obligations.ReadTokenIsTotal
  intro d _
  have hreads := d.readToken_reads
  generalize d.readToken = r, hdec : decodeHeader d.unread = r' at hreads
  cases hreads with
  | cut n => exact .inl ⟨_, rfl, d.headerCut_status n⟩
  | token i rest =>
    have htok := decodeHeader_isToken hdec
    have hpos := headerLen_pos htok
    have hlen := decodeHeader_length hdec
    rw [Dec.unread_length] at hlen
    obtain ⟨hphase, hbank, hop, hip⟩ := d.parsedToken_frame htok
    replace hip := (congrArg BitVec.toNat hip).trans (ip_after_header (by omega))
    exact .inr ⟨_, rfl, hphase, hbank, hop, by omega, by omega⟩

/-! ### DEC's turn between tokens (42_decoder_token_parser.md R190) -/

/-- A turn of DEC between tokens runs the token that the bytes from IP on decode to. -/
theorem State.decTurn_of_token {s : State} {i : Instr} {rest : List Byte}
    (hb : s.dec.bank.status = .busy) (hp : s.dec.phase = .rt)
    (hdec : decodeHeader s.dec.unread = .ok (i, rest)) : s.decTurn = .run i s := by
  rw [State.decTurn, if_pos hb]
  simp only [State.busyDecTurn, hp, hdec]

/-- A turn of DEC between tokens raises where the stream ends inside a header. -/
theorem State.decTurn_of_headerCut {s : State} {n : Option Nat}
    (hb : s.dec.bank.status = .busy) (hp : s.dec.phase = .rt)
    (hdec : decodeHeader s.dec.unread = .error (.headerCut n)) :
    s.decTurn = .answer (.next (s.withDec (s.dec.headerCut n))) := by
  rw [State.decTurn, if_pos hb]
  simp only [State.busyDecTurn, hp, hdec]

theorem step_of_token {s : State} {i : Instr} {rest : List Byte} (hm : s.mover = .dec)
    (hb : s.dec.bank.status = .busy) (hp : s.dec.phase = .rt)
    (hdec : decodeHeader s.dec.unread = .ok (i, rest)) : step s = exec i s.popTurn := by
  rw [step_eq_outcome, nextAction_dec hm, State.decTurn_of_token (s := s.popTurn) hb hp hdec,
    Action.outcome_run]

theorem step_of_headerCut {s : State} {n : Option Nat} (hm : s.mover = .dec)
    (hb : s.dec.bank.status = .busy) (hp : s.dec.phase = .rt)
    (hdec : decodeHeader s.dec.unread = .error (.headerCut n)) :
    step s = .next (s.popTurn.withDec (s.dec.headerCut n)) := by
  rw [step_eq_outcome, nextAction_dec hm, State.decTurn_of_headerCut (s := s.popTurn) hb hp hdec,
    Action.outcome_answer, State.popTurn_dec]

/-- Settles O6. -/
theorem stepRunsTheDecodedToken : Obligations.StepRunsTheDecodedToken := by
  unfold Obligations.StepRunsTheDecodedToken
  exact fun _ _ _ hm hb hp hdec => step_of_token hm hb hp hdec

/-- Settles O8: every byte there was has been fetched, so IP stands at IN_LEN. -/
theorem cutHeaderRaisesInputOverrun : Obligations.CutHeaderRaisesInputOverrun := by
  unfold Obligations.CutHeaderRaisesInputOverrun
  intro s n hm hb hp hip hdec
  refine ⟨_, step_of_headerCut hm hb hp hdec, s.popTurn.sameButDec_withDec _, ?_⟩
  have hend : toWord (s.dec.ip.toNat + (s.dec.bank.inLen.toNat - s.dec.ip.toNat)) =
      s.dec.bank.inLen := by
    rw [Nat.add_sub_cancel' hip, toWord, BitVec.ofNat_toNat, BitVec.setWidth_eq]
  obtain ⟨c, hcut, -, -⟩ := s.dec.headerCut_eq n
  rw [State.withDec_dec, hcut]
  exact ⟨rfl, s.dec.bank.raise_sameArguments _ _, hend, rfl, rfl, hp⟩

/-! ### The fused step and the phases (42_decoder_token_parser.md R190) -/

/-- A token's instruction is its parse and then the phase that the parse leaves. -/
theorem exec_eq_decStep {i : Instr} (h : i.IsToken) (s : State) :
    exec i s = .next (s.token fun d => (d.parsedToken i).decStep) := by
  cases i with
  | litX | litI | endTok | mfX | mfI | msX | msI => rfl
  | decStart | encStart => exact h.elim

theorem Dec.phaseTurn_of_not_busy {d : Dec} (h : d.bank.status ≠ .busy) : d.phaseTurn = d :=
  if_neg h

theorem Dec.phaseTurn_of_busy {d : Dec} (h : d.bank.status = .busy) : d.phaseTurn = d.decStep :=
  if_pos h

/-- Settles O17: where the decoder finds a token, the two phases are its parse and the phase behind
it; where it finds the header cut, the first raises and the second does nothing. -/
theorem fusedTokenIsTwoPhases : Obligations.FusedTokenIsTwoPhases := by
  unfold Obligations.FusedTokenIsTwoPhases
  intro s hm hb hp
  have hreads := s.dec.readToken_reads
  rw [Dec.phaseTurn_of_busy hb, Dec.decStep, hp]
  generalize s.dec.readToken = r, hdec : decodeHeader s.dec.unread = r' at hreads
  cases hreads with
  | cut n =>
    rw [step_of_headerCut hm hb hp hdec]
    dsimp only
    rw [Dec.phaseTurn_of_not_busy (by simp [s.dec.headerCut_status n])]
  | token i rest =>
    have htok := decodeHeader_isToken hdec
    obtain ⟨-, hbank, -, -⟩ := s.dec.parsedToken_frame htok
    rw [step_of_token hm hb hp hdec, exec_eq_decStep htok,
      State.token_of_busy (s := s.popTurn) _ hb hp]
    dsimp only
    rw [Dec.phaseTurn_of_busy (by rw [hbank, hb]), State.popTurn_dec]

end Sys2Proof.Machine
end

section
/-! A whole token that raises (43_decoder_copy_engine.md R220, R221, 60_exceptions.md R274, R275):
the parse leaves its count and distance in the registers, and the phase behind it stops at its first
failing test. -/

namespace Sys2Proof.Machine

/-- Settles O21: the copied bytes repeat with period `d`, and the copy writes nothing else. -/
theorem overlappingCopyRepeatsWithPeriod : Obligations.OverlappingCopyRepeatsWithPeriod := by
  unfold Obligations.OverlappingCopyRepeatsWithPeriod
  intro m base d len hd hdb
  exact ⟨fun j hj => m.copyBack_period hd hdb hj, fun a ha => m.copyBack_outside base d len a ha⟩

/-! ### The operands of a token (42_decoder_token_parser.md R194 to R196) -/

/-- An escaped count fits CNT, because the continuation bytes that carry it lie in the stream. -/
theorem escapedCount_lt {e : Nat} (h : extLen e < 2 ^ 32) : 67 + e < 2 ^ 40 := by
  unfold extLen at h
  omega

/-- A literal token parses its count, which fits CNT. -/
theorem tokenWork_literal {i : Instr} {n : Nat} (h : tokenWork i = .literal n)
    (hlen : headerLen i < 2 ^ 32) :
    n < 2 ^ 40 ∧ ∀ d : Dec, d.parsedToken i = d.parsedLit (headerLen i) n := by
  cases i with
  | litX e =>
    cases h
    have hext : 1 + extLen e < 2 ^ 32 := hlen
    have he := escapedCount_lt (e := e) (by omega)
    exact ⟨show 64 + e < 2 ^ 40 by omega, fun _ => rfl⟩
  | litI v =>
    cases h
    exact ⟨show v.toNat < 2 ^ 40 by omega, fun _ => rfl⟩
  | endTok | mfX | mfI | msX | msI | decStart | encStart => cases h

/-- `i` is a match token of length `len` and distance `dist`, which CNT and DIST can hold and where
its parse leaves them. -/
def ParsesMatch (i : Instr) (len dist : Nat) : Prop :=
  i.IsToken ∧ (1 ≤ len ∧ len < 2 ^ 40) ∧ (1 ≤ dist ∧ dist ≤ 65536) ∧
    ∀ d : Dec, d.parsedToken i = d.parsedMatch (headerLen i) len dist .cm

theorem tokenWork_backref {i : Instr} {len dist : Nat} (h : tokenWork i = .backref len dist)
    (hlen : headerLen i < 2 ^ 32) : ParsesMatch i len dist := by
  have hnear (f : BitVec 11) : 1 ≤ msDist f ∧ msDist f ≤ 65536 := by
    unfold msDist
    omega
  have hfar (f : BitVec 16) : 1 ≤ mfDist f ∧ mfDist f ≤ 65536 := by
    unfold mfDist
    omega
  cases i with
  | mfX e f =>
    cases h
    have hext : 3 + extLen e < 2 ^ 32 := hlen
    have he := escapedCount_lt (e := e) (by omega)
    exact ⟨trivial, show 1 ≤ 67 + e ∧ 67 + e < 2 ^ 40 by omega, hfar f, fun _ => rfl⟩
  | mfI v f =>
    cases h
    exact ⟨trivial, show 1 ≤ v.toNat + 3 ∧ v.toNat + 3 < 2 ^ 40 by omega, hfar f, fun _ => rfl⟩
  | msX e f =>
    cases h
    have hext : 2 + extLen e < 2 ^ 32 := hlen
    have he := escapedCount_lt (e := e) (by omega)
    exact ⟨trivial, show 1 ≤ 18 + e ∧ 18 + e < 2 ^ 40 by omega, hnear f, fun _ => rfl⟩
  | msI v f =>
    cases h
    exact ⟨trivial, show 1 ≤ v.toNat + 2 ∧ v.toNat + 2 < 2 ^ 40 by omega, hnear f, fun _ => rfl⟩
  | litX | litI | endTok | decStart | encStart => cases h

/-! ### Raises behind a parsed header -/

theorem Dec.tokenRaised_parsedLit {d : Dec} {header n : Nat} (k : ErrKind)
    (hin : d.ip.toNat + header ≤ d.bank.inLen.toNat) (hn : n < 2 ^ 40) :
    TokenRaised d ((d.parsedLit header n).raise k) k header n d.dist.toNat .cl :=
  ⟨rfl, d.bank.raise_sameArguments _ _, rfl, ip_after_header hin, toNat_ofNat_of_lt hn, rfl, rfl⟩

theorem Dec.tokenRaised_parsedMatch {d : Dec} {header len dist : Nat} (k : ErrKind)
    (hin : d.ip.toNat + header ≤ d.bank.inLen.toNat) (hlen : len < 2 ^ 40) (hdist : dist ≤ 65536) :
    TokenRaised d ((d.parsedMatch header len dist .cm).raise k) k header len dist .cm :=
  ⟨rfl, d.bank.raise_sameArguments _ _, rfl, ip_after_header hin, toNat_ofNat_of_lt hlen,
    toNat_ofNat_of_lt (by omega), rfl⟩

/-- CopyLiteral behind a parsed header raises at its first failing test. -/
theorem Dec.tokenRaised_copyLiteral {d : Dec} {header n : Nat}
    (hin : d.ip.toNat + header ≤ d.bank.inLen.toNat) (hpos : 1 ≤ n) (hn : n < 2 ^ 40) :
    (d.bank.inLen.toNat < d.ip.toNat + header + n →
      TokenRaised d (d.parsedLit header n).copyLiteral .inputOverrun header n d.dist.toNat .cl) ∧
    (d.ip.toNat + header + n ≤ d.bank.inLen.toNat → d.bank.outCap.toNat < d.op.toNat + n →
      TokenRaised d (d.parsedLit header n).copyLiteral .outputOverrun header n d.dist.toNat
        .cl) := by
  have hcases := (d.parsedLit header n).copyLiteral_cases
  simp only [Dec.parsedLit_bank, Dec.parsedLit_ip, Dec.parsedLit_op, Dec.parsedLit_cnt,
    ip_after_header hin, toNat_ofNat_of_lt hn] at hcases
  obtain ⟨hcut, h⟩ | ⟨hwhole, hfull, h⟩ | ⟨hwhole, hfit, -⟩ := hcases
  · rw [h]
    exact ⟨fun _ => Dec.tokenRaised_parsedLit _ hin hn, fun _ _ => by omega⟩
  · rw [h]
    exact ⟨fun _ => by omega, fun _ _ => Dec.tokenRaised_parsedLit _ hin hn⟩
  · exact ⟨fun _ => by omega, fun _ _ => by omega⟩

/-- CopyMatch behind a parsed header raises at its first failing test. -/
theorem Dec.tokenRaised_copyMatch {d : Dec} {header len dist : Nat}
    (hin : d.ip.toNat + header ≤ d.bank.inLen.toNat) (hpos : 1 ≤ len) (hlen : len < 2 ^ 40)
    (hmax : dist ≤ 65536) :
    (d.op.toNat < dist →
      TokenRaised d (d.parsedMatch header len dist .cm).copyMatch .inputOverrun header len dist
        .cm) ∧
    (dist ≤ d.op.toNat → d.bank.outCap.toNat < d.op.toNat + len →
      TokenRaised d (d.parsedMatch header len dist .cm).copyMatch .outputOverrun header len dist
        .cm) := by
  have hcases := (d.parsedMatch header len dist .cm).copyMatch_cases
  simp only [Dec.parsedMatch_bank, Dec.parsedMatch_op, Dec.parsedMatch_cnt, Dec.parsedMatch_dist,
    toNat_ofNat_of_lt hlen, toNat_ofNat_of_lt (w := 17) (n := dist) (by omega)] at hcases
  obtain ⟨hfar, h⟩ | ⟨hnear, hfull, h⟩ | ⟨hnear, hfit, -⟩ := hcases
  · rw [h]
    exact ⟨fun _ => Dec.tokenRaised_parsedMatch _ hin hlen hmax, fun _ _ => by omega⟩
  · rw [h]
    exact ⟨fun _ => by omega, fun _ _ => Dec.tokenRaised_parsedMatch _ hin hlen hmax⟩
  · exact ⟨fun _ => by omega, fun _ _ => by omega⟩

/-! ### The tokens -/

theorem AtToken.literal_raises {s : State} {header n : Nat} {i : Instr} (hat : AtToken s header)
    (hi : exec i s = .next (s.token fun d => (d.parsedLit header n).copyLiteral)) (hpos : 1 ≤ n)
    (hn : n < 2 ^ 40) :
    (s.dec.bank.inLen.toNat < s.dec.ip.toNat + header + n →
      ∃ t, exec i s = .next t ∧ SameButDec s t ∧
        TokenRaised s.dec t.dec .inputOverrun header n s.dec.dist.toNat .cl) ∧
    (s.dec.ip.toNat + header + n ≤ s.dec.bank.inLen.toNat →
      s.dec.bank.outCap.toNat < s.dec.op.toNat + n →
      ∃ t, exec i s = .next t ∧ SameButDec s t ∧
        TokenRaised s.dec t.dec .outputOverrun header n s.dec.dist.toNat .cl) := by
  have heq := hat.exec_eq hi
  obtain ⟨-, -, hin⟩ := hat
  obtain ⟨hcut, hfull⟩ := Dec.tokenRaised_copyLiteral hin hpos hn
  exact ⟨fun h => ⟨_, heq, s.sameButDec_withDec _, hcut h⟩,
    fun hwhole h => ⟨_, heq, s.sameButDec_withDec _, hfull hwhole h⟩⟩

/-- Settles O10: both forms parse a count of at least 1 that fits CNT, and CopyLiteral tests the
payload before the capacity. -/
theorem literalTokensRaiseInOrder : Obligations.LiteralTokensRaiseInOrder := by
  unfold Obligations.LiteralTokensRaiseInOrder
  refine ⟨fun s v hv hat => ?_, fun s e hat => ?_⟩
  · exact hat.literal_raises rfl (toNat_pos hv) (by omega)
  · have ⟨_, _, hin⟩ := hat
    have he := escapedCount_lt (e := e) (by omega)
    exact hat.literal_raises rfl (by omega) (by omega)

/-- Settles O12: every match token parses a length and a distance that fit their registers, and
CopyMatch tests the distance before the capacity. -/
theorem matchTokensRaiseInOrder : Obligations.MatchTokensRaiseInOrder := by
  unfold Obligations.MatchTokensRaiseInOrder
  intro s i len dist _ hwork hat
  have ⟨_, _, hin⟩ := hat
  obtain ⟨htok, ⟨hpos, hlen⟩, ⟨-, hmax⟩, hparsed⟩ := tokenWork_backref hwork (by omega)
  have heq := hat.exec_eq (exec_eq_decStep htok s)
  rw [hparsed] at heq
  obtain ⟨hfar, hfull⟩ := Dec.tokenRaised_copyMatch hin hpos hlen hmax
  exact ⟨fun h => ⟨_, heq, s.sameButDec_withDec _, hfar h⟩,
    fun hnear h => ⟨_, heq, s.sameButDec_withDec _, hfull hnear h⟩⟩

end Sys2Proof.Machine
end

section
/-! The laws of Decompress on capacity and on trailing bytes (43_decoder_copy_engine.md R227). -/

namespace Sys2Proof.Machine

/-- Room that is not used up changes nothing: whatever the loop gives but OUTPUT_OVERRUN, it gives
with more capacity too. -/
theorem decompressLoop_mono {cap cap' fuel : Nat} {s out : List Byte} (hle : cap ≤ cap')
    (h : decompressLoop cap fuel s out ≠ .err .outputOverrun) :
    decompressLoop cap' fuel s out = decompressLoop cap fuel s out := by
  induction fuel generalizing s out with
  | zero => rfl
  | succ fuel ih =>
    cases hdec : decodeHeader s with
    | error r => simp only [decompressLoop, hdec]
    | ok ir =>
      obtain ⟨i, rest⟩ := ir
      obtain ⟨last, hlast, rfl⟩ | ⟨t, s', ht, rfl⟩ | ⟨n, hn, hcut⟩ := decodeHeader_cases hdec
      · rw [decompressLoop_end hlast, decompressLoop_end hlast]
      · rw [decompressLoop_token ht] at h ⊢
        rw [decompressLoop_token ht]
        by_cases hdist : out.length < t.dist
        · rw [if_pos hdist, if_pos hdist]
        · rw [if_neg hdist] at h ⊢
          by_cases hroom : cap - out.length < t.count
          · rw [if_pos hroom] at h
            exact absurd rfl h
          · rw [if_neg hroom] at h ⊢
            rw [if_neg hdist, if_neg (by omega)]
            exact ih h
      · simp only [decompressLoop, hdec, hn, if_pos hcut]

/-- Bytes behind a stream that the loop reads to its end marker are not consumed. -/
theorem decompressLoop_append {cap fuel : Nat} {s x out out' : List Byte} (hx : x ≠ [])
    (h : decompressLoop cap fuel s out = .ok out') :
    decompressLoop cap fuel (s ++ x) out = .err .inputNotConsumed := by
  induction fuel generalizing s out with
  | zero => cases h
  | succ fuel ih =>
    cases hdec : decodeHeader s with
    | error r => simp [decompressLoop, hdec] at h
    | ok ir =>
      obtain ⟨i, rest⟩ := ir
      obtain ⟨last, hlast, rfl⟩ | ⟨t, s', ht, rfl⟩ | ⟨n, hn, hcut⟩ := decodeHeader_cases hdec
      · have hne : rest ++ x ≠ [] := List.append_ne_nil_of_right_ne_nil rest hx
        rw [List.append_assoc, decompressLoop_end hlast, if_neg hne]
      · rw [decompressLoop_token ht] at h
        rw [List.append_assoc, decompressLoop_token ht]
        split at h
        · cases h
        next hdist =>
          split at h
          · cases h
          next hroom =>
            rw [if_neg hdist, if_neg hroom]
            exact ih h
      · simp [decompressLoop, hdec, hn, hcut] at h

theorem decompress_mono {s : List Byte} {cap cap' : Nat} (hle : cap ≤ cap')
    (h : decompress s cap ≠ .err .outputOverrun) : decompress s cap' = decompress s cap :=
  decompressLoop_mono hle h

/-- Settles O25. -/
theorem largerCapacityKeepsTheResult : Obligations.LargerCapacityKeepsTheResult := by
  unfold Obligations.LargerCapacityKeepsTheResult
  refine fun s cap cap' hle => ⟨fun out h => ?_, fun k hk h => ?_⟩
  · rw [decompress_mono hle (by simp [h]), h]
  · rw [decompress_mono hle (by simp [h, hk]), h]

/-- Settles O24: a call with less capacity that did not overrun would give what the larger capacity
gives, which does not fit; and trailing bytes stand behind the end marker that the call reads. -/
theorem wellFormedStreamFailsAsTheLawsSay : Obligations.WellFormedStreamFailsAsTheLawsSay := by
  unfold Obligations.WellFormedStreamFailsAsTheLawsSay
  refine fun s out hs => ⟨fun k hk => ?_, fun x hx => ?_⟩
  · by_contra hne
    have hsame := decompress_mono (Nat.le_of_lt hk) hne
    rw [(decompressSucceedsExactlyOnWellFormedStreams s out _).2 ⟨hs, Nat.le_refl _⟩] at hsame
    obtain ⟨-, hfit⟩ := (decompressSucceedsExactlyOnWellFormedStreams s out k).1 hsame.symm
    omega
  · refine decompressLoop_append (out' := out) hx ?_
    refine decompressLoop_of_streamFrom ?_ ((wellFormedStream_iff s out).1 hs) (Nat.le_refl _)
    rw [List.length_append]
    omega

end Sys2Proof.Machine
end

section
/-! DEC's call computes Decompress (43_decoder_copy_engine.md R226): a turn that runs a token, or
the two phases of the spec's own DecStep that it fuses, is one round of the loop of Decompress on
what DEC has yet to read and has put out. -/

namespace Sys2Proof.Machine

/-! ### Rounds of the loop (43_decoder_copy_engine.md R226) -/

section
variable {cap fuel : Nat} {s rest out : List Byte} {i : Instr}

theorem decompressLoop_headerCut {r : DecodeError} (h : decodeHeader s = .error r) :
    decompressLoop cap (fuel + 1) s out = .err .inputOverrun := by
  simp only [decompressLoop, h]

theorem decompressLoop_literal {n : Nat} (h : decodeHeader s = .ok (i, rest))
    (hwork : tokenWork i = .literal n) :
    decompressLoop cap (fuel + 1) s out =
      if rest.length < n then .err .inputOverrun
      else if cap - out.length < n then .err .outputOverrun
      else decompressLoop cap fuel (rest.drop n) (out ++ rest.take n) := by
  simp only [decompressLoop, h, hwork]

theorem decompressLoop_backref {len dist : Nat} (h : decodeHeader s = .ok (i, rest))
    (hwork : tokenWork i = .backref len dist) :
    decompressLoop cap (fuel + 1) s out =
      if out.length < dist then .err .inputOverrun
      else if cap - out.length < len then .err .outputOverrun
      else decompressLoop cap fuel rest (repeatBack dist len out) := by
  simp only [decompressLoop, h, hwork]

theorem decompressLoop_finish (h : decodeHeader s = .ok (i, rest))
    (hwork : tokenWork i = .finish) :
    decompressLoop cap (fuel + 1) s out =
      if rest = [] then .ok out else .err .inputNotConsumed := by
  simp only [decompressLoop, h, hwork]

end

/-! ### What DEC has put out and has yet to give -/

/-- The bytes DEC has put out so far. -/
def Dec.output (d : Dec) : List Byte := d.bank.outputBytes d.op.toNat

theorem Dec.output_length (d : Dec) : d.output.length = d.op.toNat := Memory.readBytes_length _ _ _

/-- What the loop of Decompress gives from where DEC stands. -/
def Dec.remaining (d : Dec) (fuel : Nat) : CallResult :=
  decompressLoop d.bank.outCap.toNat fuel d.unread d.output

/-- DEC's call has ended with the result `r`, or DEC is between tokens and the loop of Decompress
has rounds enough left to give `r` from there. -/
def Dec.Gives (d : Dec) (fuel : Nat) (r : CallResult) : Prop :=
  d.bank.observation = some r ∨
    d.bank.status = .busy ∧ d.phase = .rt ∧ d.unread.length < fuel ∧ d.remaining fuel = r

theorem Bank.not_busy_of_result {b : Bank} {r : CallResult} (h : b.observation = some r) :
    b.status ≠ .busy :=
  Bank.not_busy_of_observation (by simp [h])

theorem Dec.gives_raise (d : Dec) (k : ErrKind) (fuel : Nat) : (d.raise k).Gives fuel (.err k) :=
  .inl rfl

/-- With no round left the call has ended. -/
theorem Dec.Gives.observation {d : Dec} {r : CallResult} (h : d.Gives 0 r) :
    d.bank.observation = some r := by
  obtain h | ⟨-, -, hlen, -⟩ := h
  · exact h
  · cases hlen

theorem Dec.started_gives {d : Dec} (h : d.started) :
    d.Gives (d.bank.inLen.toNat + 1) (decompress d.bank.inputBytes d.bank.outCap.toNat) := by
  obtain ⟨hb, hip, hop, hp⟩ := h
  have hunread : d.unread = d.bank.inputBytes := by rw [Dec.unread, hip]; rfl
  have houtput : d.output = [] := by rw [Dec.output, hop]; rfl
  refine .inr ⟨hb, hp, ?_, ?_⟩
  · rw [hunread, Bank.inputBytes_length]
    exact Nat.lt_succ_self _
  · rw [Dec.remaining, hunread, houtput, decompress, Bank.inputBytes_length]

/-! ### The phases (43_decoder_copy_engine.md R220 to R222) -/

/-- CopyLiteral does what a round does with a literal. -/
theorem Dec.copyLiteral_gives {d : Dec} {fuel : Nat} (hb : d.bank.status = .busy)
    (hfuel : d.unread.length < fuel) :
    d.copyLiteral.Gives fuel
      (if d.unread.length < d.cnt.toNat then .err .inputOverrun
      else if d.bank.outCap.toNat - d.output.length < d.cnt.toNat then .err .outputOverrun
      else decompressLoop d.bank.outCap.toNat fuel (d.unread.drop d.cnt.toNat)
        (d.output ++ d.unread.take d.cnt.toNat)) := by
  have hlen := d.unread_length
  have hcap := d.bank.outCap.isLt
  have hop := d.op.isLt
  rw [d.output_length]
  obtain ⟨hcut, h⟩ | ⟨hwhole, hfull, h⟩ | ⟨hwhole, hfit, h⟩ := d.copyLiteral_cases
  · rw [h, if_pos (by omega)]
    exact d.gives_raise _ _
  · rw [h, if_neg (by omega), if_pos hfull]
    exact d.gives_raise _ _
  · rw [if_neg (by omega), if_neg (by omega)]
    have hunread : d.copyLiteral.unread = d.unread.drop d.cnt.toNat := by
      rw [h, ← Dec.unread_skip (by omega)]
      rfl
    have htake : d.unread.take d.cnt.toNat = d.bank.inMem.readBytes d.ip.toNat d.cnt.toNat := by
      rw [Dec.unread, Memory.take_readBytes, Nat.min_eq_right hwhole]
    have houtput : d.copyLiteral.output = d.output ++ d.unread.take d.cnt.toNat := by
      have hop' := toWord_toNat_of_lt (n := d.op.toNat + d.cnt.toNat) (by omega)
      have hwrite := d.bank.outMem.readBytes_writeBytes d.op.toNat
        (d.bank.inMem.readBytes d.ip.toNat d.cnt.toNat)
      rw [Memory.readBytes_length] at hwrite
      rw [h, htake, Dec.output, Bank.outputBytes, hop']
      exact hwrite
    refine .inr ⟨by rw [h]; exact hb, by rw [h], ?_, ?_⟩
    · rw [hunread, List.length_drop]
      omega
    · rw [Dec.remaining, hunread, houtput, h]

/-- The byte-at-a-time copy repeats the output as Decompress does (43_decoder_copy_engine.md R225,
R226). -/
theorem Memory.readBytes_copyBack (m : Memory) {op dist len : Nat} (hpos : 1 ≤ dist)
    (hdist : dist ≤ op) :
    (m.copyBack op dist len).readBytes 0 (op + len) = repeatBack dist len (m.readBytes 0 op) := by
  have hbelow : (m.copyBack op dist len).readBytes 0 op = m.readBytes 0 op :=
    Memory.readBytes_congr fun j hj => m.copyBack_outside op dist len _ (.inl (by omega))
  rw [← hbelow]
  refine (repeatBack_readBytes _ hpos hdist fun j hj => ?_).symm
  exact m.copyBack_inside op dist len _ hpos (by omega) (by omega)

/-- CopyMatch does what a round does with a match. -/
theorem Dec.copyMatch_gives {d : Dec} {fuel : Nat} (hb : d.bank.status = .busy)
    (hfuel : d.unread.length < fuel) (hpos : 1 ≤ d.dist.toNat) :
    d.copyMatch.Gives fuel
      (if d.output.length < d.dist.toNat then .err .inputOverrun
      else if d.bank.outCap.toNat - d.output.length < d.cnt.toNat then .err .outputOverrun
      else decompressLoop d.bank.outCap.toNat fuel d.unread
        (repeatBack d.dist.toNat d.cnt.toNat d.output)) := by
  have hcap := d.bank.outCap.isLt
  have hop := d.op.isLt
  rw [d.output_length]
  obtain ⟨hfar, h⟩ | ⟨hnear, hfull, h⟩ | ⟨hnear, hfit, h⟩ := d.copyMatch_cases
  · rw [h, if_pos hfar]
    exact d.gives_raise _ _
  · rw [h, if_neg (by omega), if_pos hfull]
    exact d.gives_raise _ _
  · rw [if_neg (by omega), if_neg (by omega)]
    have hunread : d.copyMatch.unread = d.unread := by rw [h]; rfl
    have houtput : d.copyMatch.output = repeatBack d.dist.toNat d.cnt.toNat d.output := by
      have hop' := toWord_toNat_of_lt (n := d.op.toNat + d.cnt.toNat) (by omega)
      rw [h, Dec.output, Bank.outputBytes, hop']
      exact d.bank.outMem.readBytes_copyBack hpos hnear
    refine .inr ⟨by rw [h]; exact hb, by rw [h], by rwa [hunread], ?_⟩
    rw [Dec.remaining, hunread, houtput, h]

/-- Finish does what a round does with an end marker. -/
theorem Dec.finish_gives {d : Dec} (fuel : Nat) (hip : d.ip.toNat ≤ d.bank.inLen.toNat) :
    d.finish.Gives fuel (if d.unread = [] then .ok d.output else .err .inputNotConsumed) := by
  have hend : d.unread = [] ↔ d.ip = d.bank.inLen := by
    rw [← List.length_eq_zero_iff, d.unread_length, ← BitVec.toNat_inj]
    omega
  obtain ⟨hall, h⟩ | ⟨hmore, h⟩ := d.finish_cases
  · rw [h, if_pos (hend.2 hall)]
    exact .inl rfl
  · rw [h, if_neg (fun hnil => hmore (hend.1 hnil))]
    exact d.gives_raise _ _

/-! ### A token, and a round -/

/-- An end marker parses its count and its distance, and the end check comes next. -/
theorem tokenWork_finish {i : Instr} (htok : i.IsToken) (h : tokenWork i = .finish) (d : Dec) :
    ∃ count, d.parsedToken i = d.parsedMatch (headerLen i) count 65536 .dn := by
  cases i with
  | endTok v e => exact ⟨_, rfl⟩
  | litX | litI | mfX | mfI | msX | msI => cases h
  | decStart | encStart => exact htok.elim

/-- A token's parse leaves unread the bytes that the decoder leaves and puts nothing out, and the
header it takes lies in the stream. -/
theorem Dec.parsedToken_unread {d : Dec} {i : Instr} {rest : List Byte}
    (h : decodeHeader d.unread = .ok (i, rest)) :
    (d.parsedToken i).unread = rest ∧ (d.parsedToken i).output = d.output ∧
      d.ip.toNat + headerLen i ≤ d.bank.inLen.toNat := by
  have htok := decodeHeader_isToken h
  obtain ⟨-, hbank, hop, hip⟩ := d.parsedToken_frame htok
  obtain ⟨-, hbytes⟩ := decodeHeader_isHeaderOf h
  refine ⟨?_, by rw [Dec.output, Dec.output, hbank, hop], ?_⟩
  · rw [← Dec.unread_skip_of_append hbytes, headerBytes_length, Dec.unread, hbank, hip]
    rfl
  · have hlen := decodeHeader_length h
    have hpos := headerLen_pos htok
    rw [Dec.unread_length] at hlen
    omega

/-- The phase behind a token's parse does what a round does with the token. -/
theorem Dec.parsedToken_gives {d : Dec} {i : Instr} {rest : List Byte} {fuel : Nat}
    (hb : d.bank.status = .busy) (hdec : decodeHeader d.unread = .ok (i, rest))
    (hfuel : rest.length < fuel) :
    (d.parsedToken i).decStep.Gives fuel (d.remaining (fuel + 1)) := by
  have hlt := d.bank.inLen.isLt
  obtain ⟨hunread, houtput, hin⟩ := Dec.parsedToken_unread hdec
  cases hwork : tokenWork i with
  | literal n =>
    obtain ⟨hn, hparsed⟩ := tokenWork_literal hwork (by omega)
    rw [hparsed] at hunread houtput ⊢
    have hgives := Dec.copyLiteral_gives (d := d.parsedLit (headerLen i) n) hb (hunread ▸ hfuel)
    rw [hunread, houtput, Dec.parsedLit_cnt, toNat_ofNat_of_lt hn] at hgives
    rw [Dec.remaining, decompressLoop_literal hdec hwork]
    exact hgives
  | backref len dist =>
    obtain ⟨-, ⟨-, hlen⟩, ⟨hpos, hmax⟩, hparsed⟩ := tokenWork_backref hwork (by omega)
    have hdist : (BitVec.ofNat 17 dist).toNat = dist := toNat_ofNat_of_lt (by omega)
    rw [hparsed] at hunread houtput ⊢
    have hgives := Dec.copyMatch_gives (d := d.parsedMatch (headerLen i) len dist .cm) hb
      (hunread ▸ hfuel) (by rwa [Dec.parsedMatch_dist, hdist])
    rw [hunread, houtput, Dec.parsedMatch_cnt, Dec.parsedMatch_dist, hdist,
      toNat_ofNat_of_lt hlen] at hgives
    rw [Dec.remaining, decompressLoop_backref hdec hwork]
    exact hgives
  | finish =>
    obtain ⟨count, hparsed⟩ := tokenWork_finish (decodeHeader_isToken hdec) hwork d
    rw [hparsed] at hunread houtput ⊢
    have hgives := Dec.finish_gives (d := d.parsedMatch (headerLen i) count 65536 .dn) fuel
      (by rwa [Dec.parsedMatch_ip, ip_after_header hin])
    rw [hunread, houtput] at hgives
    rw [Dec.remaining, decompressLoop_finish hdec hwork]
    exact hgives

/-- The parse of a token and the phase behind it (42_decoder_token_parser.md R190). -/
def Dec.round (d : Dec) : Dec := d.phaseTurn.phaseTurn

theorem Dec.round_of_not_busy {d : Dec} (h : d.bank.status ≠ .busy) : d.round = d := by
  rw [Dec.round, Dec.phaseTurn_of_not_busy h, Dec.phaseTurn_of_not_busy h]

/-- Two phases are one round of the loop of Decompress. -/
theorem Dec.Gives.round {d : Dec} {fuel : Nat} {r : CallResult} (h : d.Gives (fuel + 1) r) :
    d.round.Gives fuel r := by
  obtain hobs | ⟨hb, hp, hlen, rfl⟩ := h
  · rw [Dec.round_of_not_busy (Bank.not_busy_of_result hobs)]
    exact .inl hobs
  · have hreads := d.readToken_reads
    rw [Dec.round, Dec.phaseTurn_of_busy hb, Dec.decStep, hp]
    generalize d.readToken = parse, hdec : decodeHeader d.unread = decoded at hreads
    cases hreads with
    | cut n =>
      dsimp only
      have hst := d.headerCut_status n
      rw [Dec.phaseTurn_of_not_busy (by simp [hst]), Dec.remaining, decompressLoop_headerCut hdec]
      exact .inl (by rw [Bank.observation, hst])
    | token i rest =>
      dsimp only
      have htok := decodeHeader_isToken hdec
      have hpos := headerLen_pos htok
      have hsplit := decodeHeader_length hdec
      obtain ⟨-, hbank, -, -⟩ := d.parsedToken_frame htok
      rw [Dec.phaseTurn_of_busy (by rw [hbank, hb])]
      exact Dec.parsedToken_gives hb hdec (by omega)

/-! ### The call -/

theorem Dec.Gives.iterate {d : Dec} {n : Nat} {r : CallResult} (h : d.Gives n r) :
    (Dec.round^[n] d).bank.observation = some r := by
  induction n generalizing d with
  | zero => exact h.observation
  | succ n ih =>
    rw [Function.iterate_succ_apply]
    exact ih h.round

/-- Settles O22: two phases to a round, and a round for each byte of the stream and one more. -/
theorem phaseStepsComputeDecompress : Obligations.PhaseStepsComputeDecompress := by
  unfold Obligations.PhaseStepsComputeDecompress
  intro d hd
  have hpairs : Dec.phaseTurn^[2 * d.bank.inLen.toNat + 2] d =
      Dec.round^[d.bank.inLen.toNat + 1] d :=
    congrFun (Function.iterate_mul Dec.phaseTurn 2 (d.bank.inLen.toNat + 1)) d
  exact hpairs ▸ (Dec.started_gives hd).iterate

theorem Dec.decStep_sameArguments (d : Dec) : SameArguments d.bank d.decStep.bank := by
  unfold Dec.decStep
  cases hp : d.phase with
  | rt =>
    have hreads := d.readToken_reads
    generalize d.readToken = parse, hdec : decodeHeader d.unread = decoded at hreads
    cases hreads with
    | cut n => exact d.headerCut_sameArguments n
    | token i rest =>
      obtain ⟨-, hbank, -, -⟩ := d.parsedToken_frame (decodeHeader_isToken hdec)
      exact .of_eq hbank
  | cl => exact d.copyLiteral_sameArguments
  | cm => exact d.copyMatch_sameArguments
  | dn => exact d.finish_sameArguments

theorem Dec.phaseTurn_sameArguments (d : Dec) : SameArguments d.bank d.phaseTurn.bank := by
  unfold Dec.phaseTurn
  split
  · exact d.decStep_sameArguments
  · rfl

theorem Dec.iterate_round_sameArguments (d : Dec) (n : Nat) :
    SameArguments d.bank (Dec.round^[n] d).bank := by
  induction n generalizing d with
  | zero => rfl
  | succ n ih =>
    rw [Function.iterate_succ_apply]
    exact (d.phaseTurn_sameArguments.trans d.phaseTurn.phaseTurn_sameArguments).trans (ih d.round)

/-- A turn of DEC that does not stand inside a token is one round. -/
theorem step_eq_round {s : State} (hm : s.mover = .dec)
    (h : s.dec.bank.status = .busy → s.dec.phase = .rt) :
    step s = .next (s.popTurn.withDec s.dec.round) := by
  by_cases hb : s.dec.bank.status = .busy
  · exact fusedTokenIsTwoPhases s hm hb (h hb)
  · rw [Dec.round_of_not_busy hb, step_eq_outcome, nextAction_dec hm, State.decTurn,
      State.popTurn_dec, if_neg hb]
    rfl

theorem Dec.Gives.between_tokens {d : Dec} {fuel : Nat} {r : CallResult} (h : d.Gives fuel r)
    (hb : d.bank.status = .busy) : d.phase = .rt := by
  obtain hobs | ⟨-, hp, -, -⟩ := h
  · exact absurd hb (Bank.not_busy_of_result hobs)
  · exact hp

/-- A run in which only DEC moves is DEC's rounds. -/
theorem turnsOf_dec {n : Nat} {s : State} {r : CallResult} (h : s.dec.Gives n r) :
    turnsOf .dec n s = .next { s with dec := Dec.round^[n] s.dec, turns := [] } := by
  induction n generalizing s with
  | zero => rfl
  | succ n ih =>
    have hstep : Sys2Proof.core.step { s with turns := List.replicate (n + 1) Agent.dec }
        = .next { s with dec := s.dec.round, turns := List.replicate n Agent.dec } :=
      step_eq_round (s := { s with turns := List.replicate (n + 1) Agent.dec }) rfl
        h.between_tokens
    rw [Function.iterate_succ_apply]
    exact (run_succ_of_next n hstep).trans (ih (s := { s with dec := s.dec.round }) h.round)

/-- Settles O20: a turn of DEC to a round, and a round for each byte of the stream and one more. -/
theorem decCallComputesDecompress : Obligations.DecCallComputesDecompress := by
  unfold Obligations.DecCallComputesDecompress
  intro s hs
  have hgives := Dec.started_gives hs
  exact ⟨_, turnsOf_dec hgives, hgives.iterate, s.dec.iterate_round_sameArguments _, rfl⟩

end Sys2Proof.Machine
end

section
/-! The two host commands, and what holds between calls: START launches, is ignored or is refused by
STATUS and the length premises alone, and the result of a call stays until the next START or reset
(44_host_commands.md R250 to R254). -/

namespace Sys2Proof.Machine

/-! ### START -/

/-- A START is the launch of its engine, for every value of the ignored bits (10_state.md R22). -/
theorem exec_startCommand (x : BitVec 31) (g : Engine) (s : State) :
    exec (Engine.startCommand x g) s = s.start g (s.launched g) := by
  cases g <;> rfl

theorem exec_start_of_busy {s : State} {g : Engine} (x : BitVec 31)
    (hb : (s.bank g).status = .busy) : exec (Engine.startCommand x g) s = .next s := by
  rw [exec_startCommand]
  exact if_pos hb

theorem exec_start_of_not_busy {s : State} {g : Engine} (x : BitVec 31)
    (hb : (s.bank g).status ≠ .busy) :
    exec (Engine.startCommand x g) s =
      if s.launchable g then .next (s.launched g) else .refused .launchPremise := by
  rw [exec_startCommand]
  exact if_neg hb

theorem exec_start_of_premises {s : State} {g : Engine} (x : BitVec 31)
    (hb : (s.bank g).status ≠ .busy)
    (hpre : (s.bank g).premises (s.inMemBytes g) (s.outMemBytes g)) :
    exec (Engine.startCommand x g) s = .next (s.launched g) := by
  rw [exec_start_of_not_busy x hb, if_pos ((s.launchable_iff g).2 hpre)]

theorem exec_start_of_not_premises {s : State} {g : Engine} (x : BitVec 31)
    (hb : (s.bank g).status ≠ .busy)
    (hpre : ¬ (s.bank g).premises (s.inMemBytes g) (s.outMemBytes g)) :
    exec (Engine.startCommand x g) s = .refused .launchPremise := by
  rw [exec_start_of_not_busy x hb, if_neg fun hl => hpre ((s.launchable_iff g).1 hl)]

theorem State.sameButEnc_withEnc (s : State) (e : Enc) : SameButEnc s (s.withEnc e) :=
  ⟨rfl, rfl, rfl, rfl, rfl⟩

theorem Bank.launch_sameArguments (b : Bank) : SameArguments b b.launch := ⟨rfl, rfl, rfl⟩

/-- Settles O14: the state is DEC's launch. -/
theorem decStartLaunchesACall : Obligations.DecStartLaunchesACall := by
  unfold Obligations.DecStartLaunchesACall
  intro s x hb hpre
  have hexec : exec (.decStart x) s = .next (s.withDec s.dec.launch) :=
    exec_start_of_premises (g := .dec) x hb hpre
  exact ⟨_, hexec, s.sameButDec_withDec _, rfl, rfl, rfl, rfl, rfl, rfl, rfl,
    s.dec.bank.launch_sameArguments, rfl, rfl⟩

/-- Settles O15: the state is ENC's launch, and a cleared HEAD reads NIL everywhere. -/
theorem encStartLaunchesACall : Obligations.EncStartLaunchesACall := by
  unfold Obligations.EncStartLaunchesACall
  intro s x hb hpre
  have hexec : exec (.encStart x) s = .next (s.withEnc s.enc.launch) :=
    exec_start_of_premises (g := .enc) x hb hpre
  exact ⟨_, hexec, s.sameButEnc_withEnc _, rfl, rfl, rfl, Table.allNil_read .head, rfl, rfl, rfl,
    rfl, rfl, rfl, rfl, rfl, s.enc.bank.launch_sameArguments, rfl, rfl⟩

/-- Settles O16: STATUS is tested first, then the premises, the same way for both engines. -/
theorem startIsIgnoredOrRefused : Obligations.StartIsIgnoredOrRefused := by
  unfold Obligations.StartIsIgnoredOrRefused
  exact fun s x => ⟨exec_start_of_busy (g := .dec) x, exec_start_of_busy (g := .enc) x,
    exec_start_of_not_premises (g := .dec) x, exec_start_of_not_premises (g := .enc) x⟩

/-! ### The result of a call -/

/-- STATUS, OUT_LEN and OUT, the result of a call, are the same in both banks (44_host_commands.md
R254). -/
def SameResult (b b' : Bank) : Prop :=
  b'.status = b.status ∧ b'.outLen = b.outLen ∧ b'.outMem = b.outMem

/-- The events that may end the result of engine `g`'s last call: its START, and reset. -/
def Input.EndsResult (g : Engine) (x : Input) : Prop :=
  x = .reset ∨ ∃ w : Word, x = .regWrite g 0 w ∧ w.extractLsb' 0 1 = 1#1

@[refl] theorem SameResult.refl (b : Bank) : SameResult b b := ⟨rfl, rfl, rfl⟩

theorem SameResult.of_eq {b b' : Bank} (h : b' = b) : SameResult b b' := by
  rw [h]

theorem SameEngine.bank_eq {g : Engine} {s t : State} (h : SameEngine g s t) :
    t.bank g = s.bank g := by
  cases g with
  | dec => exact congrArg Dec.bank h
  | enc => exact congrArg Enc.bank h

/-- Another bank of either engine with the result of the old one changes no result. -/
theorem SameResult.withBank {s : State} {g' : Engine} {b : Bank} (g : Engine)
    (h : SameResult (s.bank g') b) : SameResult (s.bank g) ((s.withBank g' b).bank g) := by
  by_cases hg : g' = g
  · subst hg
    cases g' <;> exact h
  · exact .of_eq (SameEngine.withBank hg s b).bank_eq

theorem State.regWrite_result {s t : State} {g' : Engine} {n : Nat} {w : Word} (g : Engine)
    (h : (s.regWrite g' n w).outcome = .next t) :
    (Input.regWrite g' n w).EndsResult g ∨ SameResult (s.bank g) (t.bank g) := by
  obtain rfl | ⟨-, ⟨rfl, hbit, -, rfl⟩ | ⟨-, rfl⟩ | ⟨-, rfl⟩⟩ := State.regWrite_outcome_eq_next h
  · exact .inr (.refl _)
  · by_cases hg : g' = g
    · exact .inl (.inr ⟨w, by rw [hg], hbit⟩)
    · exact .inr (.of_eq (SameEngine.launched hg s).bank_eq)
  · exact .inr (.withBank g ⟨rfl, rfl, rfl⟩)
  · exact .inr (.withBank g ⟨rfl, rfl, rfl⟩)

/-- Of the host's accesses only START writes STATUS, OUT_LEN or OUT (10_state.md R22, 20_memory.md
R60). -/
theorem State.perform_result {s t : State} {x : Input} (g : Engine)
    (h : (s.perform x).outcome = .next t) :
    x.EndsResult g ∨ SameResult (s.bank g) (t.bank g) := by
  cases x with
  | regRead g' n =>
    obtain ⟨v, rfl⟩ := State.regRead_eq_next h
    exact .inr (.of_eq (SameEngine.reply g s _).bank_eq)
  | regWrite g' n w => exact State.regWrite_result g h
  | memRead g' b a =>
    obtain ⟨-, -, -, -, rfl⟩ := State.memRead_eq_next h
    exact .inr (.of_eq (SameEngine.reply g s _).bank_eq)
  | memWrite g' b a v =>
    obtain ⟨-, -, -, rfl⟩ := State.memWrite_eq_next h
    exact .inr (.withBank g ⟨rfl, rfl, rfl⟩)
  | reset => exact .inl (.inl rfl)

theorem State.decTurn_of_not_busy {s : State} (hb : s.dec.bank.status ≠ .busy) :
    s.decTurn = .answer (.next s) := if_neg hb

/-- DEC's turn keeps the bank of every engine that is not BUSY: a DEC that is not BUSY does nothing
(60_exceptions.md R284), and ENC's bank DEC never changes (00_scope.md R2). -/
theorem bank_of_step_dec {s t : State} {g : Engine} (hm : s.mover = .dec)
    (hb : (s.bank g).status ≠ .busy) (hstep : step s = .next t) : t.bank g = s.bank g := by
  rw [step_eq_outcome, nextAction_dec hm] at hstep
  cases g with
  | dec =>
    rw [State.decTurn_of_not_busy (s := s.popTurn) hb] at hstep
    cases hstep
    rfl
  | enc =>
    obtain ⟨d, hturn, -⟩ := s.popTurn.decTurn_decTurnOf
    rw [hturn] at hstep
    cases hstep
    rfl

/-- ENC's turn keeps the bank of every engine that is not BUSY, for the same two reasons. -/
theorem bank_of_step_enc {s t : State} {g : Engine} (hm : s.mover = .enc)
    (hb : (s.bank g).status ≠ .busy) (hstep : step s = .next t) : t.bank g = s.bank g := by
  rw [step_enc hm] at hstep
  cases hstep
  cases g with
  | dec => rfl
  | enc => exact congrArg Enc.bank (Enc.turn_of_not_busy hb)

/-- The outside's turn is its next event, or nothing where none is pending. -/
theorem step_outside_cases {s : State} (hm : s.mover = .outside) :
    step s = .next s.popTurn ∨
      ∃ x rest, NextInput s x rest ∧ step s = (s.popTurn.popInput.perform x).outcome := by
  cases hinputs : s.inputs with
  | nil => exact .inl (by simp [step_outside hm, State.outsideTurn, hinputs])
  | cons x rest => exact .inr ⟨x, rest, ⟨hm, hinputs⟩, step_nextInput ⟨hm, hinputs⟩⟩

/-- Settles O55, by who moves: a turn of an engine keeps the bank of every engine that is not BUSY,
and of the events from outside only START and reset touch a result. -/
theorem resultHoldsUntilStartOrReset : Obligations.ResultHoldsUntilStartOrReset := by
  unfold Obligations.ResultHoldsUntilStartOrReset
  intro s t g hb hstep
  cases hm : s.mover with
  | dec => exact .inr (SameResult.of_eq (bank_of_step_dec hm hb hstep))
  | enc => exact .inr (SameResult.of_eq (bank_of_step_enc hm hb hstep))
  | outside =>
    obtain hidle | ⟨x, rest, hnext, hx⟩ := step_outside_cases hm
    · rw [hidle] at hstep
      cases hstep
      cases g <;> exact .inr ⟨rfl, rfl, rfl⟩
    · rw [hx] at hstep
      obtain hends | hsame := State.perform_result g hstep
      · exact .inl ⟨x, rest, hnext, hends⟩
      · rw [s.bank_popTurn_popInput g] at hsame
        exact .inr hsame

end Sys2Proof.Machine
end

section
/-! The end of a step and the order of steps: what a turn of ENC can end in (60_exceptions.md R280),
that an engine which is not BUSY does nothing (R284), that the order of the engines' turns cannot be
seen (R282), and that FAULT persists (R277). -/

namespace Sys2Proof.Machine

/-! ### What a turn of ENC ends in -/

/-- A turn that puts bytes out has the STATUS of the engine it would leave, or OUTPUT_OVERRUN. -/
theorem Enc.TurnGives.status {e next : Enc} {bytes : List Byte} (h : e.TurnGives bytes next) :
    e.turn.bank.status = next.bank.status ∨ e.turn.bank.status = .fault .outputOverrun := by
  obtain ⟨hok, hover⟩ := h
  by_cases hfit : e.fits bytes
  · exact .inl (by rw [hok hfit])
  · exact .inr (hover hfit)

/-- OUTPUT_OVERRUN is the only fault ENC takes (60_exceptions.md R280). -/
theorem Enc.turn_status {e : Enc} (hb : e.bank.status = .busy) (hc : e.callOk) :
    e.turn.bank.status = .done ∨ e.turn.bank.status = .fault .outputOverrun ∨
      e.turn.bank.status = .busy := by
  obtain ⟨-, h⟩ | ⟨-, -, h⟩ | ⟨-, -, h⟩ := Enc.turn_cases hb hc
  · exact h.status.imp id .inl
  · rw [h, Enc.stepLiteral_bank, Enc.search_bank]
    exact .inr (.inr hb)
  · obtain hst | hst := h.status
    · rw [hst, Enc.cover_bank, Enc.withLs_bank, Enc.afterOutput_status, Enc.search_bank]
      exact .inr (.inr hb)
    · exact .inr (.inl hst)

/-- Settles O36: a turn that leaves ENC BUSY has moved I forward within the bounds. -/
theorem encoderOverrunsOrAdvances : Obligations.EncoderOverrunsOrAdvances := by
  unfold Obligations.EncoderOverrunsOrAdvances
  intro e hb hc
  obtain hdone | hover | hbusy := Enc.turn_status hb hc
  · exact .inl hdone
  · exact .inr (.inl hover)
  · obtain ⟨hc', hi⟩ := Enc.turn_callOk hb hc hbusy
    exact .inr (.inr ⟨hbusy, hi, hc'⟩)

/-! ### Turns of DEC as a function of DEC alone -/

/-- What a turn makes of DEC: between tokens a whole token, inside one the phase it stands in. -/
def Dec.turn (d : Dec) : Dec := if d.phase = .rt then d.round else d.phaseTurn

theorem Dec.turn_of_not_busy {d : Dec} (hb : d.bank.status ≠ .busy) : d.turn = d := by
  unfold Dec.turn
  split
  · exact Dec.round_of_not_busy hb
  · exact Dec.phaseTurn_of_not_busy hb

/-- Inside a token a turn of a BUSY DEC is one phase. -/
theorem State.busyDecTurn_of_phase {s : State} (hp : s.dec.phase ≠ .rt) :
    s.busyDecTurn = .answer (.next (s.withDec s.dec.decStep)) := by
  unfold State.busyDecTurn Dec.decStep
  cases h : s.dec.phase with
  | rt => exact absurd h hp
  | cl | cm | dn => rfl

/-- DEC's turn replaces DEC by what it makes of DEC, as `step_enc` says it of ENC. -/
theorem step_eq_turn {s : State} (hm : s.mover = .dec) :
    step s = .next (s.popTurn.withDec s.dec.turn) := by
  unfold Dec.turn
  split
  next hp => exact step_eq_round hm fun _ => hp
  next hp =>
    rw [step_eq_outcome, nextAction_dec hm]
    by_cases hb : s.dec.bank.status = .busy
    · have hturn : s.popTurn.decTurn = s.popTurn.busyDecTurn := if_pos hb
      rw [hturn, State.busyDecTurn_of_phase (s := s.popTurn) hp, Dec.phaseTurn_of_busy hb]
      rfl
    · rw [State.decTurn_of_not_busy (s := s.popTurn) hb, Dec.phaseTurn_of_not_busy hb]
      rfl

/-- Settles O51: the turn of an engine that is not BUSY leaves that engine as it is. -/
theorem engineThatIsNotBusyDoesNothing : Obligations.EngineThatIsNotBusyDoesNothing := by
  unfold Obligations.EngineThatIsNotBusyDoesNothing
  refine fun s => ⟨fun hm hb => ?_, fun hm hb => ?_⟩
  · rw [step_eq_turn hm, Dec.turn_of_not_busy hb]
    rfl
  · rw [step_enc hm, Enc.turn_of_not_busy hb]
    rfl

/-! ### The order of turns -/

/-- Settles O52: a turn of an engine reads and writes that engine alone, so in either order each
engine has taken its own turn. -/
theorem engineTurnsCommute : Obligations.EngineTurnsCommute := by
  unfold Obligations.EngineTurnsCommute
  intro s ts
  have hdec (e : Enc) (us : List Agent) :
      Sys2Proof.core.step { s with enc := e, turns := .dec :: us } =
        .next { s with dec := s.dec.turn, enc := e, turns := us } :=
    step_eq_turn (s := { s with enc := e, turns := .dec :: us }) rfl
  have henc (d : Dec) (us : List Agent) :
      Sys2Proof.core.step { s with dec := d, turns := .enc :: us } =
        .next { s with dec := d, enc := s.enc.turn, turns := us } :=
    step_enc (s := { s with dec := d, turns := .enc :: us }) rfl
  refine ⟨{ s with dec := s.dec.turn, enc := s.enc.turn, turns := ts }, ?_, ?_⟩
  · exact (run_succ_of_next 1 (hdec s.enc _)).trans (run_succ_of_next 0 (henc s.dec.turn ts))
  · exact (run_succ_of_next 1 (henc s.dec _)).trans (run_succ_of_next 0 (hdec s.enc.turn ts))

/-! ### FAULT -/

/-- Settles O54: an engine in FAULT is not BUSY, and STATUS is part of the result that holds until
START or reset. -/
theorem faultPersistsUntilStartOrReset : Obligations.FaultPersistsUntilStartOrReset := by
  unfold Obligations.FaultPersistsUntilStartOrReset
  intro s t g k hfault hstep hgone
  have hb : (s.bank g).status ≠ .busy := by simp [hfault]
  obtain hends | ⟨hst, -, -⟩ := resultHoldsUntilStartOrReset s t g hb hstep
  · exact hends
  · exact absurd (hst.trans hfault) hgone

end Sys2Proof.Machine
end
